-- ==== Sys2Proof/Word.lean ====
section
/-! DEFINITION. The word types of the block: bytes, 9-bit operands, 32-bit command words, and the host port's widths. -/

namespace Sys2Proof

/-- A byte, 8 bits (00_scope.md R9). -/
abbrev Byte := BitVec 8

/-- An operand field `A` or `B` of a command word, and the width of `POS`, `TXLEN`, `RXCNT` (30_encoding.md R102; 00_scope.md R9). -/
abbrev Nine := BitVec 9

/-- A command word (30_encoding.md R102). -/
abbrev CmdWord := BitVec 32

/-- An address of the host port (20_memory.md R67). -/
abbrev HostAddr := BitVec 12

/-- A datum of the host port (20_memory.md R67). -/
abbrev HostData := BitVec 16

end Sys2Proof
end

