-- ==== Sys2Proof/Config.lean ====
section
/-! DEFINITION. The parameters of the block (00_scope.md R7), as one configuration record, and the values this hardware takes. Every
definition that rests on a parameter takes the record as its last argument, this hardware's where none is given. -/

namespace Sys2Proof

/-- The parameters of 00_scope.md R7. `BUF_SIZE` and `PAY_SIZE` follow from the others (`Params.bufSize`, `Params.paySize`);
`timeoutSeconds` is the environment's (45_host_exchange.md R266); `XFAIL` is a result code of its own (92_eei_decisions.md D4). -/
structure Params where
  /-- `SOF`, the start marker (decision D1, OPEN). -/
  sof : Byte
  /-- `TYPE_REQ`, the type byte of every outbound frame. -/
  typeReq : Byte
  /-- `ACK_BYTE`. -/
  ackByte : Byte
  /-- `NACK_BYTE`. -/
  nackByte : Byte
  /-- `CSUM_SEED`, the initial value of the checksum accumulator. -/
  csumSeed : Byte
  /-- `SEQ_INIT`, the sequence counter after reset (decision D2, OPEN). -/
  seqInit : Byte
  /-- `MAX_PAYLOAD`, the largest payload `ENC` accepts (decision D3, OPEN). -/
  maxPayload : Nat
  /-- `MAX_PAYLOAD <= 252`, so that a length field never wraps (00_scope.md R7). -/
  maxPayload_le : maxPayload ≤ 252
  deriving DecidableEq, Repr

/-- `BUF_SIZE`, the bytes in `TXBUF` and in `RXBUF`: the largest length field, and 2 (00_scope.md R7; decision D12). -/
def Params.bufSize (_c : Params) : Nat := 255 + 2

/-- `PAY_SIZE`, the bytes in `PAY`: `MAX_PAYLOAD` (00_scope.md R7; decision D12). -/
def Params.paySize (c : Params) : Nat := c.maxPayload

/-- The value this hardware takes for each parameter: the third column of 00_scope.md R7. DESIGN CHOICE for the three OPEN ones, log
entry 9: unsafe. -/
def Config.hw : Params where
  sof := 0x01#8
  typeReq := 0x00#8
  ackByte := 0x06#8
  nackByte := 0x15#8
  csumSeed := 0xFF#8
  seqInit := 0x00#8
  maxPayload := 250
  maxPayload_le := by decide

end Sys2Proof
end

