-- ==== Sys2Proof/Syntax.lean ====
section
/-! DEFINITION. The instructions: one constructor per row of spec/opcode_table.json. -/

namespace Sys2Proof

/-- The nine commands (30_encoding.md R100, R103) and the three wire units (R90, R96).
A command's operands are the 9-bit fields `A` and `B` of its word (R104). -/
inductive Instr where
  /-- `CSUM.TX off, cnt` (40_checksum.md R133). -/
  | csumTx (off cnt : Nine)
  /-- `CSUM.RX off, cnt` (40_checksum.md R133). -/
  | csumRx (off cnt : Nine)
  /-- `CSUM.PAY off, cnt` (40_checksum.md R133). -/
  | csumPay (off cnt : Nine)
  /-- `ENC n` (41_encode.md R151). -/
  | enc (n : Nine)
  /-- `ENC.S n` (41_encode.md R152). -/
  | encS (n : Nine)
  /-- `SEND` (42_transmit.md R181). -/
  | send
  /-- `DEC` (43_decode.md R201). -/
  | dec
  /-- `ACK` (42_transmit.md R182). -/
  | ack
  /-- `NACK` (42_transmit.md R183). -/
  | nack
  /-- `WIRE.FRAME` (30_encoding.md R90): the start marker, the length field, and the `body`, which is the type byte, the payload,
  the sequence byte if there is one, and the checksum. The length field is the length of the body (R92, R93). -/
  | wireFrame (body : List Byte)
  /-- `WIRE.ACK` (30_encoding.md R96). -/
  | wireAck
  /-- `WIRE.NACK` (30_encoding.md R96). -/
  | wireNack
  deriving DecidableEq, Repr

end Sys2Proof
end

