-- ==== Sys2Proof/WellFormed.lean ====
section
/-! DEFINITION. Which instructions an encoding can hold. -/

namespace Sys2Proof

/-- A body fits one frame: the length field is one byte (30_encoding.md R90, R93). -/
def bodyFits (body : List Byte) : Bool := decide (body.length ≤ 255)

/-- Well-formedness. The command operands are 9-bit fields and every value of them is a legal encoding (30_encoding.md R103;
the refusals by value of R107 are the command's own checks, made when it runs); a wire frame's body must fit. -/
def Instr.wellFormed : Instr → Bool
  | .csumTx _ _ => true
  | .csumRx _ _ => true
  | .csumPay _ _ => true
  | .enc _ => true
  | .encS _ => true
  | .send => true
  | .dec => true
  | .ack => true
  | .nack => true
  | .wireFrame body => bodyFits body
  | .wireAck => true
  | .wireNack => true

/-- The instruction is a wire unit, not a command of the command port. -/
def Instr.isWire : Instr → Bool
  | .csumTx _ _ => false
  | .csumRx _ _ => false
  | .csumPay _ _ => false
  | .enc _ => false
  | .encS _ => false
  | .send => false
  | .dec => false
  | .ack => false
  | .nack => false
  | .wireFrame _ => true
  | .wireAck => true
  | .wireNack => true

end Sys2Proof
end

