-- ==== Sys2Proof/Decode.lean ====
section
/-! DEFINITION. Decoding of command words and of wire bytes, and the encoder beside it. -/

namespace Sys2Proof

/-- Why an encoding is no instruction: the conditions of 30_encoding.md R105 for a command word, and of R90 and R96 for wire bytes. -/
inductive Illegal where
  /-- `OP` is 0 or 7 to 15. -/
  | opcode
  /-- A bit of `ZERO` is set. -/
  | zeroBits
  /-- `S` = 1 with `OP` other than 2. -/
  | seqFlag
  /-- `BSEL` = 3 with `OP` = 1. -/
  | memorySelect
  /-- `BSEL` other than 0 with `OP` other than 1. -/
  | memorySelectUnused
  /-- `A` other than 0 with `OP` other than 1. -/
  | operandA
  /-- `B` other than 0 with `OP` not 1 or 2. -/
  | operandB
  /-- No wire byte is left. -/
  | wireEmpty
  /-- A start marker with fewer bytes after it than its length field counts. -/
  | wireTruncated
  /-- A byte that starts no wire unit. -/
  | wireByte
  deriving DecidableEq, Repr

/-! ### The fields of a command word (30_encoding.md R102, R104) -/

/-- `OP = w[31:28]`. -/
def opField (w : CmdWord) : BitVec 4 := w.extractLsb' 28 4

/-- `S = w[27]`. -/
def seqField (w : CmdWord) : Bool := w.getLsbD 27

/-- `BSEL = w[26:25]`. -/
def selField (w : CmdWord) : BitVec 2 := w.extractLsb' 25 2

/-- `ZERO = w[24:18]`. -/
def zeroField (w : CmdWord) : BitVec 7 := w.extractLsb' 18 7

/-- `A = w[17:9]`, unsigned, as it stands. -/
def fieldA (w : CmdWord) : Nine := w.extractLsb' 9 9

/-- `B = w[8:0]`, unsigned, as it stands. -/
def fieldB (w : CmdWord) : Nine := w.extractLsb' 0 9

/-! ### The opcode map (30_encoding.md R103) -/

/-- One row of the opcode map. -/
structure CmdRow where
  pattern : CmdWord
  mask : CmdWord
  make : Nine → Nine → Instr

/-- The word matches the row: `(w & mask) == match`. -/
def CmdRow.admits (r : CmdRow) (w : CmdWord) : Bool := w &&& r.mask == r.pattern

/-- The nine rows of R103, in its order. -/
def cmdRows : List CmdRow :=
  [ ⟨0x10000000#32, 0xFFFC0000#32, fun a b => .csumTx a b⟩,
    ⟨0x12000000#32, 0xFFFC0000#32, fun a b => .csumRx a b⟩,
    ⟨0x14000000#32, 0xFFFC0000#32, fun a b => .csumPay a b⟩,
    ⟨0x20000000#32, 0xFFFFFE00#32, fun _ b => .enc b⟩,
    ⟨0x28000000#32, 0xFFFFFE00#32, fun _ b => .encS b⟩,
    ⟨0x30000000#32, 0xFFFFFFFF#32, fun _ _ => .send⟩,
    ⟨0x40000000#32, 0xFFFFFFFF#32, fun _ _ => .dec⟩,
    ⟨0x50000000#32, 0xFFFFFFFF#32, fun _ _ => .ack⟩,
    ⟨0x60000000#32, 0xFFFFFFFF#32, fun _ _ => .nack⟩ ]

/-- The first condition of 30_encoding.md R105 the word meets, `none` when it meets none. -/
def illegalReason? (w : CmdWord) : Option Illegal :=
  let op := opField w
  if op = 0#4 ∨ 7#4 ≤ op then some .opcode
  else if zeroField w ≠ 0#7 then some .zeroBits
  else if seqField w = true ∧ op ≠ 2#4 then some .seqFlag
  else if selField w = 3#2 ∧ op = 1#4 then some .memorySelect
  else if selField w ≠ 0#2 ∧ op ≠ 1#4 then some .memorySelectUnused
  else if fieldA w ≠ 0#9 ∧ op ≠ 1#4 then some .operandA
  else if fieldB w ≠ 0#9 ∧ op ≠ 1#4 ∧ op ≠ 2#4 then some .operandB
  else none

/-- The command a word encodes: the row of R103 it matches, rejected by name when there is none. -/
def decodeCommand (w : CmdWord) : Except Illegal Instr :=
  match cmdRows.find? (fun r => r.admits w) with
  | some r => .ok (r.make (fieldA w) (fieldB w))
  | none => .error ((illegalReason? w).getD .opcode)

/-- The first wire unit of a run of bytes and the bytes after it (30_encoding.md R90, R93, R96): a start marker, a length field
and as many bytes as it counts are a frame; the two control codes stand alone. The checksum is not looked at: a frame whose
checksum is wrong is a frame, and `DEC` judges it (43_decode.md R216). DESIGN CHOICE, log entry 5: safe. -/
def decodeWire (bytes : List Byte) (c : Params := Config.hw) : Except Illegal (Instr × List Byte) :=
  match bytes with
  | [] => .error .wireEmpty
  | b :: rest =>
    if b = c.sof then
      match rest with
      | [] => .error .wireTruncated
      | l :: body =>
        if l.toNat ≤ body.length then .ok (.wireFrame (body.take l.toNat), body.drop l.toNat)
        else .error .wireTruncated
    else if b = c.ackByte then .ok (.wireAck, rest)
    else if b = c.nackByte then .ok (.wireNack, rest)
    else .error .wireByte

/-- The two kinds of encoding (30_encoding.md, opening): a command word, or bytes on the wire. -/
inductive Code where
  | command (w : CmdWord)
  | wire (bytes : List Byte)
  deriving DecidableEq, Repr

/-- The instruction an encoding stands for: total, rejecting by name. Of wire bytes, the first unit. -/
def decode (code : Code) (c : Params := Config.hw) : Except Illegal Instr :=
  match code with
  | .command w => decodeCommand w
  | .wire bytes => (decodeWire bytes c).map Prod.fst

/-! ### The encoder -/

/-- A command word from its fields, most significant first (30_encoding.md R102). -/
def commandWord (op : BitVec 4) (seq : Bool) (sel : BitVec 2) (a b : Nine) : CmdWord :=
  op ++ BitVec.ofBool seq ++ sel ++ 0#7 ++ a ++ b

/-- A frame's bytes from its body (30_encoding.md R90, R92). -/
def frameBytes (body : List Byte) (c : Params := Config.hw) : List Byte :=
  c.sof :: BitVec.ofNat 8 body.length :: body

/-- The encoding of an instruction (30_encoding.md R102, R103; R90, R96). -/
def encode (i : Instr) (c : Params := Config.hw) : Code :=
  match i with
  | .csumTx off cnt => .command (commandWord 1#4 false 0#2 off cnt)
  | .csumRx off cnt => .command (commandWord 1#4 false 1#2 off cnt)
  | .csumPay off cnt => .command (commandWord 1#4 false 2#2 off cnt)
  | .enc n => .command (commandWord 2#4 false 0#2 0#9 n)
  | .encS n => .command (commandWord 2#4 true 0#2 0#9 n)
  | .send => .command (commandWord 3#4 false 0#2 0#9 0#9)
  | .dec => .command (commandWord 4#4 false 0#2 0#9 0#9)
  | .ack => .command (commandWord 5#4 false 0#2 0#9 0#9)
  | .nack => .command (commandWord 6#4 false 0#2 0#9 0#9)
  | .wireFrame body => .wire (frameBytes body c)
  | .wireAck => .wire [c.ackByte]
  | .wireNack => .wire [c.nackByte]

/-- The bytes of a table row on the wire: the row's bits from bit 0 of the first byte, every bit above `nbits` 0, up to the
longest frame (30_encoding.md R93). The zero bytes after the row's unit are the model's: DESIGN CHOICE, log entry 26: unsafe. -/
def tableBytes (nbits w : Nat) : List Byte :=
  (List.range Config.hw.bufSize).map fun k => BitVec.ofNat 8 ((w % 2 ^ nbits) >>> (8 * k))

/-- The instruction the decoder reads from a table row's bits. A 32-bit row is a command word, presented in parallel
(20_memory.md R61); a row of bytes is on the wire. -/
def decodeTableWord (nbits w : Nat) : Option Instr :=
  if nbits = 32 then (decodeCommand (BitVec.ofNat 32 w)).toOption
  else (decode (.wire (tableBytes nbits w))).toOption

end Sys2Proof
end

