-- ==== Sys2Proof/Machine/State.lean ====
section
/-! DEFINITION. The state of the machine: every register, memory and stream the spec names, the run's events, and the moves of
the environment still to come. -/

namespace Sys2Proof.Machine

/-- The phase of the field-position tracker, the nine values of `FSM` (10_state.md R40). -/
inductive Phase where
  /-- `IDLE`: no command in progress. -/
  | idle
  /-- `C_RUN`: `CSUM` summing. -/
  | cRun
  /-- `E_RUN`: `ENC` building the frame. -/
  | eRun
  /-- `T_FRAME`: `SEND` handing the frame over. -/
  | tFrame
  /-- `T_CTRL`: `ACK` or `NACK` handing its byte over. -/
  | tCtrl
  /-- `D_HDR`: `DEC` in its header read call. -/
  | dHdr
  /-- `D_BODY`: `DEC` in its body read call. -/
  | dBody
  /-- `D_ACK`: `DEC` handing the ACK byte over. -/
  | dAck
  /-- `D_NACK`: `DEC` handing the NACK byte over. -/
  | dNack
  deriving DecidableEq, Repr

/-- The result codes (00_scope.md R8; 30_encoding.md R98), the transport failure a constructor of its own (92_eei_decisions.md D4). -/
inductive ResultCode where
  | ok
  | noack
  | invalidDatalen
  | invalidCrc
  | invalidData
  | invalidSof
  | invalidSofSize
  | xfail
  deriving DecidableEq, Repr

/-- The fields of a frame (10_state.md R41, R42; 70_reset_and_hazards.md R346, port `fld`). -/
inductive Field where
  | none
  | sof
  | len
  | type
  | pay
  | seq
  | csum
  | body
  deriving DecidableEq, Repr

/-- The three byte memories (10_state.md R34 to R36). -/
inductive Space where
  | pay
  | txbuf
  | rxbuf
  deriving DecidableEq, Repr

/-- The four bits of `STATUS` (10_state.md R29). -/
structure Status where
  busy : Bool
  done : Bool
  cmderr : Bool
  xerr : Bool
  deriving DecidableEq, Repr

/-- The events of a run (00_scope.md R11). -/
inductive Event where
  | cmd (w : CmdWord)
  | cmderr (w : CmdWord)
  | tx (b : Byte)
  | txerr
  | arm (k : Byte)
  | rx (b : Byte)
  | timeout
  | rxerr
  | done (c : ResultCode)
  | reset
  deriving DecidableEq, Repr

/-- What the transport's write side drives in one answer (70_reset_and_hazards.md R346, ports `tx_ready` and `tx_err`). -/
structure TxSignals where
  ready : Bool
  err : Bool
  deriving DecidableEq, Repr

/-- What the transport's read side and its timer drive in one answer (70_reset_and_hazards.md R346, ports `rx_valid`,
`rx_timeout`, `rx_err`); the byte itself is the head of the receive stream. -/
structure RxSignals where
  valid : Bool
  timeout : Bool
  err : Bool
  deriving DecidableEq, Repr

/-- One move of the environment (45_host_exchange.md R262, R263, R270, R276; 44_host_access.md R240, R248), or a turn given to
the block. The list of them says which agent moves next. DESIGN CHOICE, log entry 2: unsafe. -/
inductive Move where
  /-- The host presents a command word (30_encoding.md R101). -/
  | present (w : CmdWord)
  /-- `HRD a`. -/
  | hread (a : HostAddr)
  /-- `HWR a, d`. -/
  | hwrite (a : HostAddr) (d : HostData)
  /-- `WAIT`: the host leaves the block alone until the command in progress has ended or waits for the transport. -/
  | wait
  /-- `AWAITACK`, with the read side's answer to the host's one-byte read call. -/
  | ackWait (sig : RxSignals)
  /-- One turn of the block: one of its internal byte steps. -/
  | run
  /-- The write side answers. -/
  | tx (sig : TxSignals)
  /-- The read side answers. -/
  | rx (sig : RxSignals)
  /-- The peer's bytes reach the receive stream. -/
  | wire (bytes : List Byte)
  /-- `rst` is asserted. -/
  | reset
  deriving DecidableEq, Repr

/-- What the host observes (44_host_access.md R240; 45_host_exchange.md R270). -/
inductive HostObs where
  /-- A read returned this value. -/
  | readData (a : HostAddr) (v : HostData)
  /-- A write was taken. -/
  | wrote (a : HostAddr)
  /-- The access was refused: `h_err`, and no datum. -/
  | accessErr (a : HostAddr)
  /-- An ACK wait ended. -/
  | ackWait (c : ResultCode)
  deriving DecidableEq, Repr

/-- The byte memories as one list of (address, byte) pairs, keyed by the host port's addresses (20_memory.md R67). A listed byte
has a value; an unlisted byte has none (93_implementation_defined.md U1; DESIGN CHOICE, log entry 6: safe). -/
abbrev Memory := List Host.Cell

/-- The state of one block instance (10_state.md R20) and of its environment (R38). -/
structure State where
  /-- `SEQ` (10_state.md R21). -/
  seq : Byte
  /-- `ACC` (10_state.md R22). -/
  acc : Byte
  /-- `LEN` (10_state.md R23). -/
  len : Byte
  /-- `POS` (10_state.md R24). -/
  pos : Nine
  /-- `TXLEN` (10_state.md R25). -/
  txlen : Nine
  /-- `RXCNT` (10_state.md R26). -/
  rxcnt : Nine
  /-- `RESLEN` (10_state.md R27). -/
  reslen : Byte
  /-- `RESULT` (10_state.md R28). -/
  result : ResultCode
  /-- `STATUS` (10_state.md R29). -/
  status : Status
  /-- `FSM` (10_state.md R39, R40). -/
  phase : Phase
  /-- `SFL` (10_state.md R39). -/
  sfl : Bool
  /-- `OPA` (10_state.md R39). -/
  opa : Nine
  /-- `OPB` (10_state.md R39). -/
  opb : Nine
  /-- `BSL` (10_state.md R39). -/
  bsl : BitVec 2
  /-- `PEND` (10_state.md R39). -/
  pend : ResultCode
  /-- `PAY`, `TXBUF`, `RXBUF` (10_state.md R34 to R36). -/
  mem : Memory
  /-- The receive stream, head first (10_state.md R38): the environment's. -/
  rxStream : List Byte
  /-- The model's own: the events so far, oldest first (00_scope.md R11). -/
  events : List Event
  /-- The model's own: what the host has observed, oldest first. -/
  hostLog : List HostObs
  /-- The model's own: the environment's moves still to come. -/
  env : List Move
  deriving DecidableEq, Repr

/-- Why the machine stops. -/
inductive Fault where
  /-- Raised by a command or a host read that uses a byte nothing has written since reset (40_checksum.md R136; 41_encode.md R162;
  93_implementation_defined.md U1: 'a model should fault'). Safe: the hardware goes on with an unspecified value. -/
  | unwrittenByte
  /-- Raised by an access to a byte index outside its memory, which no rule makes. No run reaches it. Safe. -/
  | noSuchByte
  /-- Raised by a byte step whose position lies outside every field of the frame (10_state.md R41: 'belong to no field';
  43_decode.md R230: 'No other (state, event) pair of DEC is enabled'). No run reaches it. Safe. -/
  | trackerOffFrame
  deriving DecidableEq, Repr

/-- What the model gives no meaning. -/
inductive Refusal where
  /-- Raised by `exec` for an instruction that has no meaning yet; no arm of this model does. Safe. -/
  | notModelled (mnemonic : String)
  /-- Raised by a host read, other than of `STATUS` or `RESULT`, while `STATUS.BUSY = 1` (44_host_access.md R245: 'a model should
  refuse such a read'). Safe. -/
  | busyHostRead
  /-- Raised by an ACK wait while `STATUS.BUSY = 1` (45_host_exchange.md R270: 'allowed only when STATUS.BUSY = 0'; R276: 'outside
  this spec'). Safe. -/
  | ackWaitWhileBusy
  /-- Raised by a host call whose payload is so long that no command word can name its length (30_encoding.md R102;
  45_host_exchange.md R276). Safe. -/
  | payloadTooLong
  deriving DecidableEq, Repr

/-- The outcome of a meaning. -/
abbrev Result := Host.Outcome State Fault Refusal

/-- The state right after reset of a block with parameters `c` (10_state.md R46; 70_reset_and_hazards.md R340): memories
unspecified, so nothing listed; nothing has been sent, nothing has arrived, and nothing is scheduled (DESIGN CHOICE, log entries 2 and 12: unsafe). -/
def State.resetWith (c : Params) : State where
  seq := c.seqInit
  acc := c.csumSeed
  len := 0#8
  pos := 0#9
  txlen := 0#9
  rxcnt := 0#9
  reslen := 0#8
  result := .ok
  status := ⟨false, false, false, false⟩
  phase := .idle
  sfl := false
  opa := 0#9
  opb := 0#9
  bsl := 0#2
  pend := .ok
  mem := []
  rxStream := []
  events := []
  hostLog := []
  env := []

/-- The state of this hardware right after reset (10_state.md R46). -/
def State.reset : State := State.resetWith Config.hw

end Sys2Proof.Machine
end

