-- ==== Sys2Proof/Machine/Flags.lean ====
section
/-! DEFINITION. The flags of `STATUS` and the encoding of `RESULT`. -/

namespace Sys2Proof.Machine

/-- `STATUS` as the host reads it: bit 0 `BUSY`, 1 `DONE`, 2 `CMDERR`, 3 `XERR` (10_state.md R29; 44_host_access.md R241). -/
def Status.word (st : Status) : BitVec 4 :=
  BitVec.ofBool st.xerr ++ BitVec.ofBool st.cmderr ++ BitVec.ofBool st.done ++ BitVec.ofBool st.busy

/-- What the acceptance of a command does to the flags: `BUSY <- 1`, `DONE <- 0`; the error bits are sticky (10_state.md R29;
30_encoding.md R101). -/
def Status.accepted (st : Status) : Status := { st with busy := true, done := false }

/-- What a refused command does to the flags: `CMDERR <- 1` and nothing else (60_exceptions.md R305). -/
def Status.refused (st : Status) : Status := { st with cmderr := true }

/-- What `finish(c)` does to the flags: `BUSY <- 0`, `DONE <- 1`, and `XERR <- 1` if `c = XFAIL` (60_exceptions.md R308). -/
def Status.finished (st : Status) (c : ResultCode) : Status :=
  { st with busy := false, done := true, xerr := st.xerr || c == .xfail }

/-- The value of `RESULT` for each code (00_scope.md R7, R8; 30_encoding.md R98). -/
def ResultCode.byte : ResultCode → Byte
  | .ok => 0x00#8
  | .noack => 0x01#8
  | .invalidDatalen => 0x02#8
  | .invalidCrc => 0x03#8
  | .invalidData => 0x04#8
  | .invalidSof => 0x05#8
  | .invalidSofSize => 0x06#8
  | .xfail => 0xFF#8

end Sys2Proof.Machine
end

