-- ==== Sys2Proof/Machine/Operands.lean ====
section
/-! DEFINITION. Operands: the memories' places and sizes, the memory select, the range checks, the length field, the field maps. -/

namespace Sys2Proof.Machine

/-- Where a memory begins in the host port's address map (20_memory.md R67). -/
def Space.base : Space → Nat
  | .pay => 0x100
  | .txbuf => 0x200
  | .rxbuf => 0x400

/-- The bytes of a memory (10_state.md R34 to R36). -/
def Space.size (sp : Space) (c : Params := Config.hw) : Nat :=
  match sp with
  | .pay => c.paySize
  | .txbuf => c.bufSize
  | .rxbuf => c.bufSize

/-- The memory and index of a mapped byte address, `none` for every other address (20_memory.md R67). That the range of
`PAY` follows `MAX_PAYLOAD`: DEDUCED, log entry 9: unsafe. -/
def byteAt (a : Nat) (c : Params := Config.hw) : Option (Space × Nat) :=
  if Space.pay.base ≤ a ∧ a < Space.pay.base + Space.pay.size c then some (.pay, a - Space.pay.base)
  else if Space.txbuf.base ≤ a ∧ a < Space.txbuf.base + Space.txbuf.size c then some (.txbuf, a - Space.txbuf.base)
  else if Space.rxbuf.base ≤ a ∧ a < Space.rxbuf.base + Space.rxbuf.size c then some (.rxbuf, a - Space.rxbuf.base)
  else none

/-- The value of `BSEL` that selects a memory (30_encoding.md R102). -/
def Space.select : Space → BitVec 2
  | .txbuf => 0#2
  | .rxbuf => 1#2
  | .pay => 2#2

/-- The memory `BSEL` selects; 3 selects none (30_encoding.md R102). -/
def selected (sel : BitVec 2) : Option Space :=
  if sel = 0#2 then some .txbuf
  else if sel = 1#2 then some .rxbuf
  else if sel = 2#2 then some .pay
  else none

/-- The range check of `CSUM`: `A + B`, computed without wrap, is at most the memory's size (40_checksum.md R134). -/
def rangeFits (sp : Space) (off cnt : Nine) (c : Params := Config.hw) : Bool :=
  decide (off.toNat + cnt.toNat ≤ sp.size c)

/-- The value check of `ENC` and `ENC.S` (30_encoding.md R107). -/
def payloadFits (n : Nine) (c : Params := Config.hw) : Bool := decide (n.toNat ≤ c.maxPayload)

/-- The value check of `SEND`: a frame has been built (30_encoding.md R107). -/
def frameBuilt (s : State) : Bool := s.txlen != 0#9

/-- The length field of an outbound frame, `L = n + 2 + s` (30_encoding.md R92, R104). -/
def lengthField (n : Nat) (seq : Bool) : Nat := n + 2 + seq.toNat

/-- The outbound field map `field_out(p, n, s)` (10_state.md R41). -/
def fieldOut (p n : Nat) (seq : Bool) : Field :=
  if p = 0 then .sof
  else if p = 1 then .len
  else if p = 2 then .type
  else if p < 3 + n then .pay
  else if p = 3 + n ∧ seq = true then .seq
  else if p = lengthField n seq + 1 then .csum
  else .none

/-- The inbound field map `field_in(p, L)` (10_state.md R42); when `L` = 0 there is neither body nor checksum. -/
def fieldIn (p l : Nat) : Field :=
  if p = 0 then .sof
  else if p = 1 then .len
  else if p ≤ l then .body
  else if p = l + 1 then .csum
  else .none

end Sys2Proof.Machine
end

