-- ==== Sys2Proof/Machine/Ops.lean ====
section
/-! DEFINITION. The named operations: over memory, over the run's events, the end of a command and its refusal (what stands for
taking an exception here), acceptance, and the read side's answer. -/

namespace Sys2Proof.Machine

/-! ### Memory -/

/-- The byte listed at an address; an unlisted address has no value (93_implementation_defined.md U1). -/
def memLookup : Memory → Nat → Option Byte
  | [], _ => none
  | c :: rest, a => if c.1 = a then some c.2 else memLookup rest a

/-- Lists a byte at an address, in its place. -/
def memStore : Memory → Nat → Byte → Memory
  | [], a, b => [(a, b)]
  | c :: rest, a, b =>
    if a < c.1 then (a, b) :: c :: rest
    else if a = c.1 then (a, b) :: rest
    else c :: memStore rest a b

/-- The addresses rise strictly, from `lo` on. -/
def risingFrom : Nat → Memory → Bool
  | _, [] => true
  | lo, c :: rest => decide (lo ≤ c.1) && risingFrom (c.1 + 1) rest

/-- The canonical form: addresses strictly rising, each the address of a byte of one of the three memories (20_memory.md R66, R67).
An unlisted byte has no value, so no entry can equal what an unlisted address reads as. -/
def Memory.wf (m : Memory) (c : Params := Config.hw) : Bool :=
  risingFrom 0 m && m.all fun cell => (byteAt cell.1 c).isSome

/-- The value of byte `i` of a memory, if it has one (00_scope.md R10, `MemRead`). -/
def State.byte? (s : State) (sp : Space) (i : Nat) (c : Params := Config.hw) : Option Byte :=
  if i < sp.size c then memLookup s.mem (sp.base + i) else none

/-- Reads byte `i` of a memory and goes on with it: a byte no rule lets exist and a byte nothing has written stop the machine
(00_scope.md R10, `MemRead`; 40_checksum.md R136). -/
def State.withByte (s : State) (sp : Space) (i : Nat) (k : Byte → Result) (c : Params := Config.hw) : Result :=
  if i < sp.size c then
    match memLookup s.mem (sp.base + i) with
    | some b => k b
    | none => .fault .unwrittenByte
  else .fault .noSuchByte

/-- Writes byte `i` of a memory and goes on (00_scope.md R10, `MemWrite`). -/
def State.withStore (s : State) (sp : Space) (i : Nat) (b : Byte) (k : State → Result) (c : Params := Config.hw) : Result :=
  if i < sp.size c then k { s with mem := memStore s.mem (sp.base + i) b }
  else .fault .noSuchByte

/-- The `n` bytes of a memory from index `i`, if each has a value. -/
def State.bytes? (s : State) (sp : Space) (i n : Nat) (c : Params := Config.hw) : Option (List Byte) :=
  match n with
  | 0 => some []
  | n + 1 =>
    match s.byte? sp i c, s.bytes? sp (i + 1) n c with
    | some b, some bs => some (b :: bs)
    | _, _ => none

/-! ### Events and streams -/

/-- Adds an event to the run (00_scope.md R11). -/
def State.emit (s : State) (e : Event) : State := { s with events := s.events ++ [e] }

/-- The byte a `tx` event carries. -/
def Event.sent? : Event → Option Byte
  | .tx b => some b
  | _ => none

/-- The byte an `rx` event carries. -/
def Event.taken? : Event → Option Byte
  | .rx b => some b
  | _ => none

/-- The transmit stream: the bytes of the `tx` events so far, in order (10_state.md R38; 00_scope.md R11). -/
def State.txStream (s : State) : List Byte := s.events.filterMap Event.sent?

/-- The bytes the block has taken from the peer so far: the projection on the `rx` events (00_scope.md R11). -/
def State.rxTaken (s : State) : List Byte := s.events.filterMap Event.taken?

/-- The command word a `cmd` event carries. -/
def Event.accepted? : Event → Option CmdWord
  | .cmd w => some w
  | _ => none

/-- The command word accepted last, if any. -/
def State.lastAccepted (s : State) : Option CmdWord := (s.events.filterMap Event.accepted?).getLast?

/-- The decoded result stands: the last command was a `DEC` and it ended with `OK` (10_state.md R37; 44_host_access.md R242). -/
def State.rspValid (s : State) : Bool :=
  s.status.done && s.result == .ok && s.lastAccepted == some (commandWord 4#4 false 0#2 0#9 0#9)

/-- `RSP[i]`, a view of `RXBUF`; not defined after any other result (10_state.md R37). -/
def State.rspByte (s : State) (i : Nat) (c : Params := Config.hw) : Option Byte :=
  if s.rspValid = true ∧ i < s.reslen.toNat then s.byte? .rxbuf (2 + i) c else none

/-- Bytes of the peer reach the end of the receive stream (10_state.md R38; 45_host_exchange.md R263). No event of the block. -/
def State.arrive (s : State) (bytes : List Byte) : State := { s with rxStream := s.rxStream ++ bytes }

/-! ### The end of a command, its refusal, its acceptance -/

/-- `finish(c)`, the one way a command ends (60_exceptions.md R308): `RESULT`, the flags, `FSM`, and the event `done(c)`. -/
def State.finish (s : State) (c : ResultCode) : State :=
  { s with result := c, status := s.status.finished c, phase := .idle, events := s.events ++ [.done c] }

/-- A refused command word (60_exceptions.md R305): `CMDERR` and the event `cmderr(w)`, nothing else. -/
def State.refuse (s : State) (w : CmdWord) : State :=
  { s with status := s.status.refused, events := s.events ++ [.cmderr w] }

/-- What the acceptance of any command does (30_encoding.md R101): the event, the flags, and the operand latches, all four from the
word's fields (DEDUCED, log entry 14: unsafe). -/
def State.accept (s : State) (w : CmdWord) : State :=
  { s with
    status := s.status.accepted
    opa := fieldA w
    opb := fieldB w
    bsl := selField w
    sfl := seqField w
    events := s.events ++ [.cmd w] }

/-! ### The read side -/

/-- What happens in an open read call (43_decode.md R204). -/
inductive ReadAnswer where
  | byte (b : Byte) (rest : List Byte)
  | timeout
  | error
  | nothing
  deriving DecidableEq, Repr

/-- The read side's answer from its signals and the receive stream: a failure wins over a byte and over the deadline, a byte over
the deadline (43_decode.md R204; 70_reset_and_hazards.md R346, `rx_err`, `rx_timeout`; DEDUCED, log entry 15: safe). -/
def readAnswer (sig : RxSignals) (stream : List Byte) : ReadAnswer :=
  if sig.err then .error
  else
    match stream, sig.valid with
    | b :: rest, true => .byte b rest
    | _, _ => if sig.timeout then .timeout else .nothing

/-- Opens a read call for `k` bytes: the event `arm(k)`, at which the environment computes a fresh deadline (43_decode.md R203). -/
def State.arm (s : State) (k : Byte) : State := s.emit (.arm k)

/-! ### Sequencing -/

/-- Goes on from a next state; a stop stays a stop. -/
def andThen (r : Result) (k : State → Result) : Result :=
  match r with
  | .next s => k s
  | .fault f => .fault f
  | .refused e => .refused e

end Sys2Proof.Machine
end

