-- ==== Sys2Proof/Machine/Checksum.lean ====
section
/-! DEFINITION. The checksum-8 generator: the function, and the step level of `CSUM`. -/

namespace Sys2Proof.Machine

/-- The accumulator after the bytes of `bs`, in order (40_checksum.md R130). -/
def foldBytes (acc : Byte) (bs : List Byte) : Byte := bs.foldl (fun a b => a ^^^ b) acc

/-- `checksum(s)` (40_checksum.md R130): the running XOR seeded with `CSUM_SEED`. -/
def checksum (bs : List Byte) (c : Params := Config.hw) : Byte := foldBytes c.csumSeed bs

/-- The first-step effects of `CSUM` (40_checksum.md R135): `ACC <- 0xFF`, `POS <- A`, `FSM <- C_RUN`. -/
def State.startCsum (s : State) (c : Params := Config.hw) : State :=
  { s with acc := c.csumSeed, pos := s.opa, phase := .cRun }

/-- One step in `C_RUN` (40_checksum.md R135). -/
def csumStep (s : State) (c : Params := Config.hw) : Result :=
  if s.pos.toNat < s.opa.toNat + s.opb.toNat then
    match selected s.bsl with
    | some sp => s.withByte sp s.pos.toNat (fun b => .next { s with acc := s.acc ^^^ b, pos := s.pos + 1#9 }) c
    | none => .fault .noSuchByte
  else .next (s.finish .ok)

end Sys2Proof.Machine
end

