-- ==== Sys2Proof/Machine/Deserializer.lean ====
section
/-! DEFINITION. The frame deserializer: the step level of `DEC`'s two read calls. -/

namespace Sys2Proof.Machine

/-- The first-step effects of `DEC` (43_decode.md R205), with the event `arm(2)`. -/
def State.startDec (s : State) (c : Params := Config.hw) : State :=
  { s with
    rxcnt := 0#9
    reslen := 0#8
    len := 0#8
    pos := 0#9
    acc := c.csumSeed
    pend := .ok
    phase := .dHdr }.arm 2#8

/-- Takes a byte: the event `rx(b)`, the byte stored at `RXBUF[POS]`, and `POS` and `RXCNT` moved on (43_decode.md R206, R214). -/
def storeReceived (s : State) (b : Byte) (k : State → Result) (c : Params := Config.hw) : Result :=
  s.withStore .rxbuf s.pos.toNat b
    (fun s' => k ({ s' with pos := s'.pos + 1#9, rxcnt := s'.rxcnt + 1#9 }.emit (.rx b))) c

/-- The header call has ended full (43_decode.md R207): the marker, then a length field of 0 (R212), then the body call. -/
def headerComplete (s : State) (c : Params := Config.hw) : Result :=
  s.withByte .rxbuf 0
    (fun first =>
      if first ≠ c.sof then .next (s.finish .invalidSof)
      else if s.len = 0#8 then .next { s with pend := .invalidCrc, phase := .dNack }
      else .next ({ s with phase := .dBody }.arm s.len)) c

/-- A byte of the header (43_decode.md R206): the first is stored and neither folded nor compared; the second is the length field. -/
def headerByte (b : Byte) (s : State) (c : Params := Config.hw) : Result :=
  if s.pos = 0#9 then storeReceived s b (fun s' => .next s') c
  else if s.pos = 1#9 then
    storeReceived s b (fun s' => headerComplete { s' with len := b, acc := s'.acc ^^^ b } c) c
  else .fault .trackerOffFrame

/-- The body call has ended full (43_decode.md R216). -/
def bodyComplete (s : State) (received : Byte) : State :=
  if s.acc = received then { s with reslen := s.len - 1#8, phase := .dAck }
  else { s with pend := .invalidCrc, phase := .dNack }

/-- A byte of the body (43_decode.md R214): folded up to offset `LEN`, compared at offset `LEN + 1`. -/
def bodyByte (b : Byte) (s : State) (c : Params := Config.hw) : Result :=
  if s.pos.toNat ≤ s.len.toNat then
    storeReceived s b (fun s' => .next { s' with acc := s'.acc ^^^ b }) c
  else if s.pos.toNat = s.len.toNat + 1 then
    storeReceived s b (fun s' => .next (bodyComplete s' b)) c
  else .fault .trackerOffFrame

/-- The deadline passes in the header call: no byte is sent (43_decode.md R208). -/
def headerTimeout (s : State) : State := (s.emit .timeout).finish .invalidSofSize

/-- The deadline passes in the body call: a NACK is due (43_decode.md R215). -/
def bodyTimeout (s : State) : State :=
  { s.emit .timeout with pend := .invalidDatalen, phase := .dNack }

/-- The transport fails in a read call: no NACK (43_decode.md R220). -/
def readFailed (s : State) : State := (s.emit .rxerr).finish .xfail

/-- An open read call goes on with the read side's answer (43_decode.md R204). -/
def readCall (sig : RxSignals) (s : State) (onByte : Byte → State → Result) (onTimeout : State → State) : Result :=
  match readAnswer sig s.rxStream with
  | .byte b rest => onByte b { s with rxStream := rest }
  | .timeout => .next (onTimeout s)
  | .error => .next (readFailed s)
  | .nothing => .next s

/-- The read side's answer, in whatever phase the block is; where no read call is open it is not seen (43_decode.md R204, R230). -/
def rxAnswer (sig : RxSignals) (s : State) (c : Params := Config.hw) : Result :=
  match s.phase with
  | .dHdr => readCall sig s (fun b s' => headerByte b s' c) headerTimeout
  | .dBody => readCall sig s (fun b s' => bodyByte b s' c) bodyTimeout
  | .idle | .cRun | .eRun | .tFrame | .tCtrl | .dAck | .dNack => .next s

end Sys2Proof.Machine
end

