-- ==== Sys2Proof/Machine/Serializer.lean ====
section
/-! DEFINITION. The frame serializer: the function `encode`, and the step level of `ENC` and `ENC.S`. -/

namespace Sys2Proof.Machine

/-- The bytes of an outbound frame the checksum covers: length field, type, payload, sequence byte (41_encode.md R150, `body`). -/
def coveredBytes (payload : List Byte) (seq : Bool) (q : Byte) (c : Params := Config.hw) : List Byte :=
  BitVec.ofNat 8 (lengthField payload.length seq) :: c.typeReq :: (payload ++ if seq then [q] else [])

/-- The frame of `encode(p, s, q)` (41_encode.md R150). -/
def outboundFrame (payload : List Byte) (seq : Bool) (q : Byte) (c : Params := Config.hw) : List Byte :=
  c.sof :: (coveredBytes payload seq q c ++ [checksum (coveredBytes payload seq q c) c])

/-- The counter's next value of `encode(p, s, q)` (41_encode.md R150): `(q + 1) mod 256` when sequenced. -/
def nextSeq (seq : Bool) (q : Byte) : Byte := if seq then q + 1#8 else q

/-- The first-step effects of `ENC` and `ENC.S` (41_encode.md R153); `OPB` and `SFL` are latched by acceptance. -/
def State.startEnc (s : State) (c : Params := Config.hw) : State :=
  { s with
    pos := 0#9
    acc := c.csumSeed
    txlen := 0#9
    len := BitVec.ofNat 8 (lengthField s.opb.toNat s.sfl)
    phase := .eRun }

/-- Writes the byte of a covered field at `TXBUF[POS]`, folds it into `ACC` and moves the tracker (41_encode.md R154). -/
def putCovered (s : State) (v : Byte) (c : Params := Config.hw) : Result :=
  s.withStore .txbuf s.pos.toNat v (fun s' => .next { s' with acc := s'.acc ^^^ v, pos := s'.pos + 1#9 }) c

/-- The start marker's step: outside the checksum (41_encode.md R154). -/
def putSof (s : State) (c : Params := Config.hw) : Result :=
  s.withStore .txbuf s.pos.toNat c.sof (fun s' => .next { s' with pos := s'.pos + 1#9 }) c

/-- The sequence step: the old counter is written and folded, then it advances modulo 256, all in one step (41_encode.md R156). -/
def putSeq (s : State) (c : Params := Config.hw) : Result :=
  s.withStore .txbuf s.pos.toNat s.seq
    (fun s' => .next { s' with acc := s'.acc ^^^ s'.seq, pos := s'.pos + 1#9, seq := s'.seq + 1#8 }) c

/-- The checksum step, which ends the command (41_encode.md R157). -/
def putCsum (s : State) (c : Params := Config.hw) : Result :=
  s.withStore .txbuf s.pos.toNat s.acc
    (fun s' =>
      let size : Nine := BitVec.ofNat 9 (s'.len.toNat + 2)
      .next ({ s' with pos := size, txlen := size }.finish .ok)) c

/-- One step in `E_RUN`: the byte of the field that `field_out(POS, OPB, SFL)` names (41_encode.md R154). -/
def encStep (s : State) (c : Params := Config.hw) : Result :=
  match fieldOut s.pos.toNat s.opb.toNat s.sfl with
  | .sof => putSof s c
  | .len => putCovered s s.len c
  | .type => putCovered s c.typeReq c
  | .pay => s.withByte .pay (s.pos.toNat - 3) (fun v => putCovered s v c) c
  | .seq => putSeq s c
  | .csum => putCsum s c
  | .body => .fault .trackerOffFrame
  | .none => .fault .trackerOffFrame

end Sys2Proof.Machine
end

