-- ==== Sys2Proof/Machine/Transmitter.lean ====
section
/-! DEFINITION. The transmit serializer: `TxPut`, and the step level of `SEND`, `ACK`, `NACK` and of `DEC`'s reply. -/

namespace Sys2Proof.Machine

/-- What happens to the byte on offer (42_transmit.md R180). -/
inductive WriteAnswer where
  | taken
  | error
  | nothing
  deriving DecidableEq, Repr

/-- The write side's answer from its signals: a failure wins and the byte counts as not sent (70_reset_and_hazards.md R346,
`tx_err`). -/
def writeAnswer (sig : TxSignals) : WriteAnswer :=
  if sig.err then .error else if sig.ready then .taken else .nothing

/-- `TxPut(b)` (42_transmit.md R180): the byte is taken (event `tx(b)`) and the command goes on; or the transport reports failure
and the command ends with `XFAIL` (R186); or nothing happens yet. -/
def txPut (sig : TxSignals) (b : Byte) (s : State) (onSent : State → State) : State :=
  match writeAnswer sig with
  | .taken => onSent (s.emit (.tx b))
  | .error => (s.emit .txerr).finish .xfail
  | .nothing => s

/-- The first-step effects of `SEND` (42_transmit.md R184). -/
def State.startSend (s : State) : State := { s with pos := 0#9, phase := .tFrame }

/-- The first-step effects of `ACK` and `NACK`: `OPB` is loaded with the control byte (42_transmit.md R185; 90_conflicts.md C7). -/
def State.startControl (s : State) (b : Byte) : State :=
  { s with pos := 0#9, opb := b.setWidth 9, phase := .tCtrl }

/-- After a byte of the frame has been taken: `POS <- POS + 1`, and `finish(OK)` at `TXLEN` (42_transmit.md R184). -/
def frameByteSent (s : State) : State :=
  let s' := { s with pos := s.pos + 1#9 }
  if s'.pos = s'.txlen then s'.finish .ok else s'

/-- After the control byte has been taken: `POS <- 1`, `finish(OK)` (42_transmit.md R185). -/
def controlByteSent (s : State) : State := { s with pos := 1#9 }.finish .ok

/-- The write side's answer in `T_FRAME`: the byte on offer is `TXBUF[POS]` (42_transmit.md R184). -/
def sendAnswer (sig : TxSignals) (s : State) (c : Params := Config.hw) : Result :=
  s.withByte .txbuf s.pos.toNat (fun b => .next (txPut sig b s frameByteSent)) c

/-- The write side's answer in `T_CTRL`: the byte on offer is `OPB[7:0]` (42_transmit.md R185). -/
def controlAnswer (sig : TxSignals) (s : State) : Result :=
  .next (txPut sig (s.opb.setWidth 8) s controlByteSent)

/-- The write side's answer in `D_ACK` (43_decode.md R217, R219): `POS` is not changed by the reply. -/
def ackReplyAnswer (sig : TxSignals) (s : State) (c : Params := Config.hw) : Result :=
  .next (txPut sig c.ackByte s fun s' => s'.finish .ok)

/-- The write side's answer in `D_NACK` (43_decode.md R218, R219). -/
def nackReplyAnswer (sig : TxSignals) (s : State) (c : Params := Config.hw) : Result :=
  .next (txPut sig c.nackByte s fun s' => s'.finish s'.pend)

/-- The write side's answer, in whatever phase the block is; where no byte is on offer it is not seen (60_exceptions.md R314). -/
def txAnswer (sig : TxSignals) (s : State) (c : Params := Config.hw) : Result :=
  match s.phase with
  | .tFrame => sendAnswer sig s c
  | .tCtrl => controlAnswer sig s
  | .dAck => ackReplyAnswer sig s c
  | .dNack => nackReplyAnswer sig s c
  | .idle | .cRun | .eRun | .dHdr | .dBody => .next s

end Sys2Proof.Machine
end

