-- ==== Sys2Proof/Machine/Tracker.lean ====
section
/-! DEFINITION. The field-position tracker: one transition of a command in progress, the run of a command from its acceptance, and
the shape every command shares. -/

namespace Sys2Proof.Machine

/-- The block has a step of its own (10_state.md R40, 'the block's own steps'). -/
def State.internal (s : State) : Bool :=
  match s.phase with
  | .cRun | .eRun => true
  | .idle | .tFrame | .tCtrl | .dHdr | .dBody | .dAck | .dNack => false

/-- The block's own step; in a waiting phase and in `IDLE` it has none and stays where it is (42_transmit.md R180 (c); 43_decode.md
R204 (d)). -/
def selfStep (s : State) (c : Params := Config.hw) : Result :=
  match s.phase with
  | .cRun => csumStep s c
  | .eRun => encStep s c
  | .idle | .tFrame | .tCtrl | .dHdr | .dBody | .dAck | .dNack => .next s

/-- The move is the host's own action on the block or on the receive stream. -/
def Move.isHost : Move → Bool
  | .present _ | .hread _ | .hwrite _ _ | .ackWait _ | .reset => true
  | .wait | .run | .tx _ | .rx _ | .wire _ => false

/-- The move that is next leaves the block its internal steps: nothing is scheduled, the host waits, or an answer of the transport
comes, which no internal step asks for. DESIGN CHOICE, log entry 16: unsafe. -/
def yieldsToBlock : List Move → Bool
  | [] | .wait :: _ | .tx _ :: _ | .rx _ :: _ => true
  | .run :: _ | .wire _ :: _ => false
  | .present _ :: _ | .hread _ :: _ | .hwrite _ _ :: _ | .ackWait _ :: _ | .reset :: _ => false

/-- A move that is not the host's own action: a turn of the block, an answer of the transport, an arrival. -/
def otherMove (m : Move) (s : State) (c : Params := Config.hw) : Result :=
  match m with
  | .run => selfStep s c
  | .tx sig => txAnswer sig s c
  | .rx sig => rxAnswer sig s c
  | .wire bytes => .next (s.arrive bytes)
  | .wait | .present _ | .hread _ | .hwrite _ _ | .ackWait _ | .reset => .next s

/-- The host is in `WAIT`, and `rest` is scheduled after it (44_host_access.md R248; 30_encoding.md R108): `WAIT` ends when `DONE` is
1 and has no effect on the block; until then every move but the host's own goes on, and the host's next action is held back. DESIGN
CHOICE, log entry 25: unsafe. -/
def waitMove (rest : List Move) (s : State) (c : Params := Config.hw) : Result :=
  if s.status.done then .next { s with env := rest }
  else
    match rest with
    | [] => .next s
    | m :: later => if m.isHost then .next s else otherMove m { s with env := .wait :: later } c

/-- One transition at the step level (00_scope.md R12). Internal steps are taken when the move that is next leaves them to the block
(70_reset_and_hazards.md R352 (a)); else that move is made. A waiting phase with nothing scheduled waits on. A host action is not
the block's transition: the state stays. -/
def tick (s : State) (c : Params := Config.hw) : Result :=
  if s.internal && yieldsToBlock s.env then selfStep s c
  else
    match s.env with
    | [] => .next s
    | .wait :: rest => waitMove rest s c
    | m :: rest => if m.isHost then .next s else otherMove m { s with env := rest } c

/-- Something other than a host action is scheduled next; a host in `WAIT` takes no action. -/
def othersNext : List Move → Bool
  | [] => false
  | [.wait] => false
  | .wait :: m :: _ => !m.isHost
  | m :: _ => !m.isHost

/-- The command in progress can go on: the block has a step of its own and the turn for it, or something other than a host action
comes next. -/
def State.goesOn (s : State) : Bool :=
  s.phase != .idle && ((s.internal && yieldsToBlock s.env) || othersNext s.env)

/-- Runs the command in progress until it has ended, until it waits and nothing but the host's own actions is scheduled, or until the
host acts; at most `fuel` transitions. DESIGN CHOICE, log entry 1: unsafe. -/
def drive (fuel : Nat) (s : State) (c : Params := Config.hw) : Result :=
  match fuel with
  | 0 => .next s
  | fuel + 1 => if s.goesOn then andThen (tick s c) (fun s' => drive fuel s' c) else .next s

/-- Enough transitions for any one command: a move consumed by each, or a byte step. -/
def commandFuel (s : State) : Nat := s.env.length + 600

/-- The run of a command from the state its acceptance leaves. -/
def runCommand (s : State) (c : Params := Config.hw) : Result := drive (commandFuel s) s c

/-- A command word at the command port (30_encoding.md R101): while busy it is not taken; idle, it is refused if it fails the value
check of its command (R107), else accepted, its first-step effects happen, and it runs. -/
def command (w : CmdWord) (legal : State → Bool) (start : State → State) (s : State) (c : Params := Config.hw) : Result :=
  if s.status.busy then .next s
  else if legal s then runCommand (start (s.accept w)) c
  else .next (s.refuse w)

end Sys2Proof.Machine
end

