-- ==== Sys2Proof/Machine/CsumFamily.lean ====
section
/-! DEFINITION. The meanings of `CSUM.TX`, `CSUM.RX`, `CSUM.PAY` (40_checksum.md R133 to R136). -/

namespace Sys2Proof.Machine

/-- `CSUM.TX off, cnt` (40_checksum.md R133): `TXBUF`. -/
def execCsumTx (off cnt : Nine) (s : State) (c : Params := Config.hw) : Result :=
  command (commandWord 1#4 false Space.txbuf.select off cnt) (fun _ => rangeFits .txbuf off cnt c)
    (fun s' => s'.startCsum c) s c

/-- `CSUM.RX off, cnt` (40_checksum.md R133): `RXBUF`. -/
def execCsumRx (off cnt : Nine) (s : State) (c : Params := Config.hw) : Result :=
  command (commandWord 1#4 false Space.rxbuf.select off cnt) (fun _ => rangeFits .rxbuf off cnt c)
    (fun s' => s'.startCsum c) s c

/-- `CSUM.PAY off, cnt` (40_checksum.md R133): `PAY`. -/
def execCsumPay (off cnt : Nine) (s : State) (c : Params := Config.hw) : Result :=
  command (commandWord 1#4 false Space.pay.select off cnt) (fun _ => rangeFits .pay off cnt c)
    (fun s' => s'.startCsum c) s c

end Sys2Proof.Machine
end

