-- ==== Sys2Proof/Machine/DecFamily.lean ====
section
/-! DEFINITION. The meaning of `DEC` (43_decode.md R200 to R230). -/

namespace Sys2Proof.Machine

/-- `DEC` (43_decode.md R200, R201): receive, validate and acknowledge one frame; never refused when idle. -/
def execDec (s : State) (c : Params := Config.hw) : Result :=
  command (commandWord 4#4 false 0#2 0#9 0#9) (fun _ => true) (fun s' => s'.startDec c) s c

end Sys2Proof.Machine
end

