-- ==== Sys2Proof/Machine/EncFamily.lean ====
section
/-! DEFINITION. The meanings of `ENC` and `ENC.S` (41_encode.md R151 to R158). -/

namespace Sys2Proof.Machine

/-- `ENC n` (41_encode.md R151): the unsequenced frame of `PAY[0..n-1]`. -/
def execEnc (n : Nine) (s : State) (c : Params := Config.hw) : Result :=
  command (commandWord 2#4 false 0#2 0#9 n) (fun _ => payloadFits n c) (fun s' => s'.startEnc c) s c

/-- `ENC.S n` (41_encode.md R152): the sequenced frame, and `SEQ` advances. -/
def execEncS (n : Nine) (s : State) (c : Params := Config.hw) : Result :=
  command (commandWord 2#4 true 0#2 0#9 n) (fun _ => payloadFits n c) (fun s' => s'.startEnc c) s c

end Sys2Proof.Machine
end

