-- ==== Sys2Proof/Machine/TransmitFamily.lean ====
section
/-! DEFINITION. The meanings of `SEND`, `ACK`, `NACK` (42_transmit.md R181 to R186). -/

namespace Sys2Proof.Machine

/-- `SEND` (42_transmit.md R181): the built frame to the transport; refused when there is none. -/
def execSend (s : State) (c : Params := Config.hw) : Result :=
  command (commandWord 3#4 false 0#2 0#9 0#9) frameBuilt State.startSend s c

/-- `ACK` (42_transmit.md R182): the byte `0x06` to the transport; never refused when idle. -/
def execAck (s : State) (c : Params := Config.hw) : Result :=
  command (commandWord 5#4 false 0#2 0#9 0#9) (fun _ => true) (fun s' => s'.startControl c.ackByte) s c

/-- `NACK` (42_transmit.md R183): the byte `0x15` to the transport; never refused when idle. -/
def execNack (s : State) (c : Params := Config.hw) : Result :=
  command (commandWord 6#4 false 0#2 0#9 0#9) (fun _ => true) (fun s' => s'.startControl c.nackByte) s c

end Sys2Proof.Machine
end

