-- ==== Sys2Proof/Machine/WireFamily.lean ====
section
/-! DEFINITION. The meanings of the wire units `WIRE.FRAME`, `WIRE.ACK`, `WIRE.NACK` (30_encoding.md R90, R96): the peer's unit
reaches the receive stream (10_state.md R38; 45_host_exchange.md R263, R277). Arrival does not wait for the block, is no event of
the block, and is the same whether or not a command is in progress (20_memory.md R76). DESIGN CHOICE, log entry 4: unsafe. -/

namespace Sys2Proof.Machine

/-- A frame arrives: its `L + 2` bytes join the stream in increasing offset (30_encoding.md R90, R93; 20_memory.md R60). -/
def execWireFrame (body : List Byte) (s : State) (c : Params := Config.hw) : Result :=
  .next (s.arrive (frameBytes body c))

/-- The acknowledge byte arrives, standalone (30_encoding.md R96). -/
def execWireAck (s : State) (c : Params := Config.hw) : Result := .next (s.arrive [c.ackByte])

/-- The negative-acknowledge byte arrives, standalone (30_encoding.md R96). -/
def execWireNack (s : State) (c : Params := Config.hw) : Result := .next (s.arrive [c.nackByte])

end Sys2Proof.Machine
end

