-- ==== Sys2Proof/Machine/Dispatch.lean ====
section
/-! DEFINITION. One arm per instruction. -/

namespace Sys2Proof.Machine

/-- The meaning of an instruction. -/
def exec (i : Instr) (s : State) : Host.Outcome State Fault Refusal :=
  match i with
  | .csumTx off cnt => Sys2Proof.Machine.execCsumTx off cnt s
  | .csumRx off cnt => Sys2Proof.Machine.execCsumRx off cnt s
  | .csumPay off cnt => Sys2Proof.Machine.execCsumPay off cnt s
  | .enc n => Sys2Proof.Machine.execEnc n s
  | .encS n => Sys2Proof.Machine.execEncS n s
  | .send => Sys2Proof.Machine.execSend s
  | .dec => Sys2Proof.Machine.execDec s
  | .ack => Sys2Proof.Machine.execAck s
  | .nack => Sys2Proof.Machine.execNack s
  | .wireFrame body => Sys2Proof.Machine.execWireFrame body s
  | .wireAck => Sys2Proof.Machine.execWireAck s
  | .wireNack => Sys2Proof.Machine.execWireNack s

end Sys2Proof.Machine
end

