-- ==== Sys2Proof/Machine/HostPort.lean ====
section
/-! DEFINITION. The host port, the host's ACK wait, and reset (44_host_access.md; 45_host_exchange.md R270; 70_reset_and_hazards.md). -/

namespace Sys2Proof.Machine

/-- Adds what the host observes. -/
def State.observe (s : State) (o : HostObs) : State := { s with hostLog := s.hostLog ++ [o] }

/-- The register at an address, zero-extended to 16 bits (20_memory.md R67; 44_host_access.md R241). -/
def registerAt (s : State) (a : Nat) : Option HostData :=
  match a with
  | 0 => some (s.status.word.setWidth 16)
  | 1 => some (s.result.byte.setWidth 16)
  | 2 => some (s.seq.setWidth 16)
  | 3 => some (s.acc.setWidth 16)
  | 4 => some (s.len.setWidth 16)
  | 5 => some (s.reslen.setWidth 16)
  | 6 => some (s.pos.setWidth 16)
  | 7 => some (s.txlen.setWidth 16)
  | 8 => some (s.rxcnt.setWidth 16)
  | _ => none

/-- The register is readable while busy: `STATUS` and `RESULT` (44_host_access.md R245). -/
def readableBusy (a : Nat) : Bool := decide (a ≤ 1)

/-- `HRD a` (44_host_access.md R240 to R242, R245, R246): a register or a memory byte, zero-extended, with no side effect on the
block; an unmapped address is refused; while busy only `STATUS` and `RESULT` have a value (DESIGN CHOICE, log entries 7 and 8: safe). -/
def hostRead (a : HostAddr) (s : State) (c : Params := Config.hw) : Result :=
  match registerAt s a.toNat, byteAt a.toNat c with
  | some v, _ =>
    if s.status.busy && !readableBusy a.toNat then .refused .busyHostRead
    else .next (s.observe (.readData a v))
  | none, some (sp, i) =>
    if s.status.busy then .refused .busyHostRead
    else s.withByte sp i (fun b => .next (s.observe (.readData a (b.setWidth 16)))) c
  | none, none => .next (s.observe (.accessErr a))

/-- `HWR a, d` (44_host_access.md R243, R244, R246): only `PAY` can be written, only while idle, and only `d[7:0]` is used; every
other write changes nothing and is answered with `h_err`. -/
def hostWrite (a : HostAddr) (d : HostData) (s : State) (c : Params := Config.hw) : Result :=
  match byteAt a.toNat c with
  | some (.pay, j) =>
    if s.status.busy then .next (s.observe (.accessErr a))
    else s.withStore .pay j (d.setWidth 8) (fun s' => .next (s'.observe (.wrote a))) c
  | some (.txbuf, _) => .next (s.observe (.accessErr a))
  | some (.rxbuf, _) => .next (s.observe (.accessErr a))
  | none => .next (s.observe (.accessErr a))

/-- The outcome of an ACK wait for a byte that came in time (45_host_exchange.md R270): `OK` for `ACK_BYTE`, else `NOACK`. -/
def ackOutcome (b : Byte) (c : Params := Config.hw) : ResultCode := if b = c.ackByte then .ok else .noack

/-- `AWAITACK` (45_host_exchange.md R270): a read call of the host for one byte of the same stream. A byte that is not ACK is still
consumed; no byte in time is `NOACK`; a transport failure is the negative indicator; the block's state does not change. -/
def awaitAck (sig : RxSignals) (s : State) (c : Params := Config.hw) : Result :=
  if s.status.busy then .refused .ackWaitWhileBusy
  else
    match readAnswer sig s.rxStream with
    | .byte b rest => .next ({ s with rxStream := rest }.observe (.ackWait (ackOutcome b c)))
    | .timeout => .next (s.observe (.ackWait .noack))
    | .error => .next (s.observe (.ackWait .xfail))
    | .nothing => .next s

/-- Reset (70_reset_and_hazards.md R340, R341): the block takes its reset state and the command in progress is abandoned with no
`done`; the streams stay, and so does what the environment holds. No byte of memory has a value after it (DEDUCED, log entry 13:
safe). -/
def State.resetBlock (s : State) (c : Params := Config.hw) : State :=
  { State.resetWith c with
    rxStream := s.rxStream
    events := s.events ++ [.reset]
    hostLog := s.hostLog
    env := s.env }

end Sys2Proof.Machine
end

