-- ==== Sys2Proof/Machine/Fetch.lean ====
section
/-! DEFINITION. How an instruction reaches the block: the command port, and the wire. -/

namespace Sys2Proof.Machine

/-- The host presents a word (30_encoding.md R101): while busy it is not taken and nothing happens; idle, a legal word is the
command it encodes, run by `run`, and an illegal word is refused (R105; 60_exceptions.md R305). -/
def presentWord (run : Instr → State → Result) (w : CmdWord) (s : State) : Result :=
  if s.status.busy then .next s
  else
    match decodeCommand w with
    | .ok i => run i s
    | .error _ => .next (s.refuse w)

/-- The bytes left on the wire come before the moves that follow. -/
def wireLeft (bytes : List Byte) (rest : List Move) : List Move :=
  match bytes with
  | [] => rest
  | b :: bs => .wire (b :: bs) :: rest

/-- The peer's bytes arrive, one wire unit at a time, each run by `run`; a byte that starts no unit arrives as it is,
since the peer may send any bytes at all (45_host_exchange.md R263, R277). -/
def wireStep (run : Instr → State → Result) (bytes : List Byte) (rest : List Move) (s : State)
    (c : Params := Config.hw) : Result :=
  match bytes with
  | [] => .next { s with env := rest }
  | b :: bs =>
    match decodeWire (b :: bs) c with
    | .ok (i, left) => run i { s with env := wireLeft left rest }
    | .error _ => .next ({ s with env := wireLeft bs rest }.arrive [b])

/-- The move that brings a table row's bits to the machine: a 32-bit row is presented at the command port, a row of bytes comes
over the wire, and the zero bytes that fill it up come behind its unit as the peer's bytes (DESIGN CHOICE, log entry 26: unsafe). -/
def fetchMove (nbits w : Nat) : Move :=
  if nbits = 32 then .present (BitVec.ofNat 32 w) else .wire (tableBytes nbits w)

end Sys2Proof.Machine
end

