-- ==== Sys2Proof/Machine/Step.lean ====
section
/-! DEFINITION. One step of the machine. -/

namespace Sys2Proof.Machine

/-- One step of a block with parameters `c`, whose instructions `run` runs: the next move of the environment, or, when it is no host
action, a transition of the block (20_memory.md R70, one total order). -/
def stepVia (run : Instr → State → Result) (c : Params) (s : State) : Result :=
  match s.env with
  | .present w :: rest => presentWord run w { s with env := rest }
  | .hread a :: rest => hostRead a { s with env := rest } c
  | .hwrite a d :: rest => hostWrite a d { s with env := rest } c
  | .ackWait sig :: rest => awaitAck sig { s with env := rest } c
  | .reset :: rest => .next ({ s with env := rest }.resetBlock c)
  | .wire bytes :: rest => wireStep run bytes rest s c
  | .wait :: _ | .run :: _ | .tx _ :: _ | .rx _ :: _ | [] => tick s c

/-- One step of this hardware. -/
def step (s : State) : Host.Outcome State Fault Refusal := stepVia exec Config.hw s

/-- The state in which the next step runs the instruction with these bits: the host presents the command word, or the peer sends
the wire unit and the zero bytes behind it, before anything else scheduled. DESIGN CHOICE, log entries 3 and 26: unsafe. -/
def State.withFetchWord (s : State) (nbits w : Nat) : State := { s with env := fetchMove nbits w :: s.env }

end Sys2Proof.Machine
end

