-- ==== Sys2Proof/Machine/HostCalls.lean ====
section
/-! DEFINITION. The host's three calls and its collection loop (45_host_exchange.md R267 to R275), as programs over the commands,
the host port and the ACK wait. Nothing here is inside the block. -/

namespace Sys2Proof.Machine

/-- How a call ends: it returns bytes and a code, or it is still waiting for the block, the transport or the timer. -/
inductive CallReturn where
  | returned (bytes : List Byte) (code : ResultCode)
  | waiting
  deriving DecidableEq, Repr

/-- The outcome of a call. -/
abbrev CallResult := Host.Outcome (State × CallReturn) Fault Refusal

/-- Goes on with a call from a next state; a stop stays a stop. -/
def callThen (r : Result) (k : State → CallResult) : CallResult :=
  match r with
  | .next s => k s
  | .fault f => .fault f
  | .refused e => .refused e

/-- `WAIT` after a command (44_host_access.md R248; 30_encoding.md R108): goes on when `DONE` is 1, and not before
(DESIGN CHOICE, log entry 25: unsafe). -/
def whenDone (r : Result) (k : State → CallResult) : CallResult :=
  callThen r fun s => if s.status.done then k s else .next (s, .waiting)

/-- `PAY <- payload` from index `j`: one host write per byte (30_encoding.md R108; 44_host_access.md R243). -/
def writePayload (payload : List Byte) (j : Nat) (s : State) (c : Params := Config.hw) : Result :=
  match payload with
  | [] => .next s
  | b :: bs =>
    andThen (hostWrite (BitVec.ofNat 12 (Space.pay.base + j)) (b.setWidth 16) s c) (fun s' => writePayload bs (j + 1) s' c)

/-- The host's ACK wait inside a call: the peer's bytes arrive, and the read side answers; the code, and the state and the moves
left. `none` while no answer has come. -/
def ackWaitIn (moves : List Move) (s : State) (c : Params := Config.hw) : Option (ResultCode × State) :=
  match moves with
  | [] => none
  | .wire bytes :: rest => ackWaitIn rest (s.arrive bytes) c
  | .ackWait sig :: rest =>
    match readAnswer sig s.rxStream with
    | .byte b left => some (ackOutcome b c, { s with rxStream := left, env := rest })
    | .timeout => some (.noack, { s with env := rest })
    | .error => some (.xfail, { s with env := rest })
    | .nothing => ackWaitIn rest s c
  | .wait :: rest | .run :: rest | .tx _ :: rest | .rx _ :: rest => ackWaitIn rest s c
  | .present _ :: _ | .hread _ :: _ | .hwrite _ _ :: _ | .reset :: _ => none

/-- The first lines of 45_host_exchange.md R272 and R273: `PAY <- payload`, `ENC` or `ENC.S` and `WAIT`, `SEND` and `WAIT`. A payload
that breaks the caller's duty has its consequences (R276); one that no command word can name is refused (DESIGN CHOICE, log
entry 22: unsafe). -/
def sendFrame (payload : List Byte) (seq : Bool) (s : State) (k : State → CallResult) (c : Params := Config.hw) : CallResult :=
  let n : Nine := BitVec.ofNat 9 payload.length
  if 2 ^ 9 ≤ payload.length then .refused .payloadTooLong
  else
    callThen (writePayload payload 0 s c) fun s1 =>
      whenDone (if seq then execEncS n s1 c else execEnc n s1 c) fun s2 =>
        whenDone (execSend s2 c) k

/-- `r = AWAITACK`: any outcome but `OK` ends the call with `NOACK`, and nothing more is issued (45_host_exchange.md R271 to R273). -/
def whenAcked (s : State) (k : State → CallResult) (c : Params := Config.hw) : CallResult :=
  match ackWaitIn s.env s c with
  | none => .next (s, .waiting)
  | some (.ok, s') => k s'
  | some (_, s') => .next (s', .returned [] .noack)

/-- `receiveNextPushedFrame()` (45_host_exchange.md R274): one `DEC` and `WAIT`, then the result code, its length and its bytes. -/
def receiveNextPushedFrame (s : State) (c : Params := Config.hw) : CallResult :=
  whenDone (execDec s c) fun s' =>
    if s'.result = .ok then
      match s'.bytes? .rxbuf 2 s'.reslen.toNat c with
      | some bytes => .next (s', .returned bytes .ok)
      | none => .fault .unwrittenByte
    else .next (s', .returned [] s'.result)

/-- `sendCommandNoResponse(payload)` (45_host_exchange.md R272; R268 for the empty payload; 90_conflicts.md C4: unsequenced). A failed
`SEND` returns the negative indicator. -/
def sendCommandNoResponse (payload : List Byte) (s : State) (c : Params := Config.hw) : CallResult :=
  if payload = [] then .next (s, .returned [] .ok)
  else
    sendFrame payload false s
      (fun s' =>
        if s'.result = .xfail then .next (s', .returned [] .xfail)
        else whenAcked s' (fun s'' => .next (s'', .returned [] .ok)) c) c

/-- `sendCommandAwaitResponse(payload, sequenced)` (45_host_exchange.md R273; R268 for the empty payload): the ACK wait follows `SEND`
whatever its result. -/
def sendCommandAwaitResponse (payload : List Byte) (seq : Bool) (s : State) (c : Params := Config.hw) : CallResult :=
  if payload = [] then receiveNextPushedFrame s c
  else sendFrame payload seq s (fun s' => whenAcked s' (fun s'' => receiveNextPushedFrame s'' c) c) c

/-- The collection loop (45_host_exchange.md R275): up to `n` pushed frames, stopping at the first result that is not `OK`; the
frames collected before it stay. The state, the frames, and how the last call ended. -/
def collectFrames (n : Nat) (frames : List (List Byte)) (s : State) (c : Params := Config.hw) :
    Host.Outcome (State × List (List Byte) × CallReturn) Fault Refusal :=
  match n with
  | 0 => .next (s, frames, .returned [] .ok)
  | n + 1 =>
    match receiveNextPushedFrame s c with
    | .next (s', .returned bytes .ok) => collectFrames n (frames ++ [bytes]) s' c
    | .next (s', r) => .next (s', frames, r)
    | .fault f => .fault f
    | .refused e => .refused e

end Sys2Proof.Machine
end

