-- ==== Sys2Proof/Machine/Parametric.lean ====
section
/-! DEFINITION. The machine at any parameters (00_scope.md R7; 92_eei_decisions.md D1 to D3). `exec`, `step` and `core` are the same
machine at this hardware's. -/

namespace Sys2Proof.Machine

/-- The instruction's meaning on a block with parameters `c`. -/
def execWith (c : Params) (i : Instr) (s : State) : Result :=
  match i with
  | .csumTx off cnt => execCsumTx off cnt s c
  | .csumRx off cnt => execCsumRx off cnt s c
  | .csumPay off cnt => execCsumPay off cnt s c
  | .enc n => execEnc n s c
  | .encS n => execEncS n s c
  | .send => execSend s c
  | .dec => execDec s c
  | .ack => execAck s c
  | .nack => execNack s c
  | .wireFrame body => execWireFrame body s c
  | .wireAck => execWireAck s c
  | .wireNack => execWireNack s c

/-- One step of a block with parameters `c`. -/
def stepWith (c : Params) (s : State) : Result := stepVia (execWith c) c s

/-- The machine with parameters `c`. -/
def coreWith (c : Params) : Host.Core where
  State := State
  Fault := Fault
  Refusal := Refusal
  step := stepWith c
  reset := State.resetWith c

end Sys2Proof.Machine
end

