-- ==== Sys2Proof/Machine/Ports.lean ====
section
/-! DEFINITION. The block's outputs (70_reset_and_hazards.md R346), as functions of the state or of the events a step adds. -/

namespace Sys2Proof.Machine

/-- `cmd_ready = not STATUS.BUSY`. -/
def State.cmdReady (s : State) : Bool := !s.status.busy

/-- `tx_valid`: a byte is on offer. -/
def State.txValid (s : State) : Bool :=
  match s.phase with
  | .tFrame | .tCtrl | .dAck | .dNack => true
  | .idle | .cRun | .eRun | .dHdr | .dBody => false

/-- `tx_data`: the byte on offer. -/
def State.txData (s : State) (c : Params := Config.hw) : Option Byte :=
  match s.phase with
  | .tFrame => s.byte? .txbuf s.pos.toNat c
  | .tCtrl => some (s.opb.setWidth 8)
  | .dAck => some c.ackByte
  | .dNack => some c.nackByte
  | .idle | .cRun | .eRun | .dHdr | .dBody => none

/-- `rx_ready`: a read call is open. -/
def State.rxReady (s : State) : Bool :=
  match s.phase with
  | .dHdr | .dBody => true
  | .idle | .cRun | .eRun | .tFrame | .tCtrl | .dAck | .dNack => false

/-- The field of the byte at `POS` (port `fld`). -/
def State.field (s : State) : Field :=
  match s.phase with
  | .eRun => fieldOut s.pos.toNat s.opb.toNat s.sfl
  | .dHdr | .dBody => fieldIn s.pos.toNat s.len.toNat
  | .idle | .cRun | .tFrame | .tCtrl | .dAck | .dNack => .none

/-- The value of port `fld`. -/
def Field.code : Field → BitVec 3
  | .none => 0#3
  | .sof => 1#3
  | .len => 2#3
  | .type => 3#3
  | .pay => 4#3
  | .seq => 5#3
  | .csum => 6#3
  | .body => 7#3

/-- The events a step added. -/
def newEvents (before after : State) : List Event := after.events.drop before.events.length

/-- The event is a completion. -/
def Event.isDone : Event → Bool
  | .done _ => true
  | _ => false

/-- The event is a refusal. -/
def Event.isCmdErr : Event → Bool
  | .cmderr _ => true
  | _ => false

/-- The count an `arm` event carries. -/
def Event.armed? : Event → Option Byte
  | .arm k => some k
  | _ => none

/-- `done`: one pulse per `finish` (60_exceptions.md R309). -/
def donePulse (before after : State) : Bool := (newEvents before after).any Event.isDone

/-- `cmd_err`: one pulse per refused command (60_exceptions.md R309). -/
def cmdErrPulse (before after : State) : Bool := (newEvents before after).any Event.isCmdErr

/-- `rx_arm` with `rx_count`, for each read call a step opened. -/
def armPulses (before after : State) : List Byte := (newEvents before after).filterMap Event.armed?

end Sys2Proof.Machine
end

