-- ==== Sys2Proof/Safety.lean ====
section
/-! DEFINITION. What counts as a safe state, and the terms the statements are written in. -/

namespace Sys2Proof.Machine

/-! ### Safe states -/

/-- `STATUS.BUSY = 1` if and only if `FSM != IDLE`, and `BUSY` and `DONE` are not both 1 (10_state.md R49). -/
def State.flagsOk (s : State) : Bool :=
  (s.status.busy == (s.phase != .idle)) && !(s.status.busy && s.status.done)

/-- The codes the block can leave in `RESULT`: never 1 (`NOACK`) and never 4 (`INVALID_DATA`) (10_state.md R28). -/
def ResultCode.ofBlock : ResultCode → Bool
  | .noack | .invalidData => false
  | .ok | .invalidDatalen | .invalidCrc | .invalidSof | .invalidSofSize | .xfail => true

/-- `RESULT`, and the code `DEC` has pending, are codes of the block (10_state.md R28, R39). -/
def State.codesOk (s : State) : Bool := s.result.ofBlock && s.pend.ofBlock

/-- `TXLEN` is 0 or in the range 4 to 255 (10_state.md R25). -/
def State.txlenOk (s : State) (c : Params := Config.hw) : Bool :=
  decide (s.txlen.toNat = 0 ∨ (4 ≤ s.txlen.toNat ∧ s.txlen.toNat ≤ c.maxPayload + 5))

/-- Where the tracker can be in each phase (10_state.md R24, R40 to R43): `POS` inside the field map or the range of the command. -/
def State.trackerOk (s : State) (c : Params := Config.hw) : Bool :=
  s.txlenOk c && decide (s.pos.toNat ≤ 257) && decide (s.rxcnt.toNat ≤ 257) &&
  match s.phase with
  | .idle => true
  | .cRun =>
    match selected s.bsl with
    | some sp => decide (s.opa.toNat + s.opb.toNat ≤ sp.size c ∧ s.pos.toNat ≤ s.opa.toNat + s.opb.toNat)
    | none => false
  | .eRun =>
    decide (s.opb.toNat ≤ c.maxPayload ∧ s.len.toNat = lengthField s.opb.toNat s.sfl ∧
      s.pos.toNat ≤ s.len.toNat + 1 ∧ s.txlen = 0#9)
  | .tFrame => decide (s.pos.toNat < s.txlen.toNat)
  | .tCtrl => decide (s.pos = 0#9)
  | .dHdr => decide (s.pos.toNat ≤ 1 ∧ s.rxcnt = s.pos)
  | .dBody => decide (1 ≤ s.len.toNat ∧ 2 ≤ s.pos.toNat ∧ s.pos.toNat ≤ s.len.toNat + 1 ∧ s.rxcnt = s.pos)
  | .dAck => decide (1 ≤ s.len.toNat ∧ s.pos.toNat = s.len.toNat + 2 ∧ s.rxcnt = s.pos ∧ s.reslen = s.len - 1#8)
  | .dNack => decide (2 ≤ s.pos.toNat ∧ s.pos.toNat ≤ s.len.toNat + 2 ∧ s.rxcnt = s.pos)

/-- The frame `TXBUF` holds (10_state.md R47): its length field, its marker, its type, and its checksum over offsets 1 to `TXLEN - 2`. -/
def State.frameStands (s : State) (c : Params := Config.hw) : Prop :=
  ∃ l covered, s.byte? .txbuf 1 c = some l ∧ s.txlen.toNat = l.toNat + 2 ∧
    s.byte? .txbuf 0 c = some c.sof ∧ s.byte? .txbuf 2 c = some c.typeReq ∧
    s.bytes? .txbuf 1 (s.txlen.toNat - 2) c = some covered ∧
    s.byte? .txbuf (s.txlen.toNat - 1) c = some (checksum covered c)

/-- The part of a frame the serializer has built so far: the bytes written, and the accumulator over those the checksum covers
(41_encode.md R154). -/
def State.buildStands (s : State) (c : Params := Config.hw) : Prop :=
  (1 ≤ s.pos.toNat → s.byte? .txbuf 0 c = some c.sof) ∧
  (2 ≤ s.pos.toNat → s.byte? .txbuf 1 c = some s.len) ∧
  (3 ≤ s.pos.toNat → s.byte? .txbuf 2 c = some c.typeReq) ∧
  ∃ covered, s.bytes? .txbuf 1 (s.pos.toNat - 1) c = some covered ∧ s.acc = checksum covered c

/-- Whenever a frame is built it stands in `TXBUF`, and while one is being built its part stands (10_state.md R47). -/
def State.txbufOk (s : State) (c : Params := Config.hw) : Prop :=
  s.trackerOk c = true ∧ (s.txlen ≠ 0#9 → s.frameStands c) ∧ (s.phase = .eRun → s.buildStands c)

/-! ### Moves of the transport, named -/

/-- The transport takes the byte on offer. -/
def Move.taken : Move := .tx ⟨true, false⟩

/-- The transport reports a write failure. -/
def Move.writeFails : Move := .tx ⟨false, true⟩

/-- The byte at the head of the receive stream is given to the block. -/
def Move.byteComes : Move := .rx ⟨true, false, false⟩

/-- The deadline passes. -/
def Move.deadline : Move := .rx ⟨false, true, false⟩

/-- The transport reports a read failure. -/
def Move.readFails : Move := .rx ⟨false, false, true⟩

/-! ### Instructions, named by operand -/

/-- `CSUM` of a memory. -/
def csumOf : Space → Nine → Nine → Instr
  | .txbuf, off, cnt => .csumTx off cnt
  | .rxbuf, off, cnt => .csumRx off cnt
  | .pay, off, cnt => .csumPay off cnt

/-- `ENC` or `ENC.S`. -/
def encOf (seq : Bool) (n : Nine) : Instr := if seq then .encS n else .enc n

/-- The command word of an instruction, if it has one. -/
def wordOf (i : Instr) : Option CmdWord :=
  match encode i with
  | .command w => some w
  | .wire _ => none

/-- Several instructions in a row, each from the state the one before it left. -/
def execAll : List Instr → State → Result
  | [], s => .next s
  | i :: rest, s => andThen (exec i s) (execAll rest)

/-! ### Comparing states -/

/-- Every byte of every memory but the `n` bytes of `sp` from index `lo` reads in `t` as in `s`. -/
def sameBytesOutside (s t : State) (sp : Space) (lo n : Nat) (c : Params := Config.hw) : Prop :=
  ∀ sp' i, ¬ (sp' = sp ∧ lo ≤ i ∧ i < lo + n) → t.byte? sp' i c = s.byte? sp' i c

/-- Every byte of every memory reads in `t` as in `s`. -/
def sameBytes (s t : State) (c : Params := Config.hw) : Prop := ∀ sp i, t.byte? sp i c = s.byte? sp i c

/-- The flags after a command that started from `st` has ended with `c` (60_exceptions.md R308). -/
def flagsAfter (st : Status) (c : ResultCode) : Status :=
  ⟨false, true, st.cmderr, st.xerr || c == .xfail⟩

end Sys2Proof.Machine
end

