-- ==== Sys2Proof/Certificates/Slice0/Obligations.lean ====
section
/-! DEFINITION. The statements for the provers. -/

open Sys2Proof Sys2Proof.Machine

/-! ### Encodings -/

/-- Decoding the encoding of a well-formed instruction gives the instruction back. -/
def Obligations.DecodeEncodeRoundTrip : Prop :=
  ∀ i : Instr, i.wellFormed = true → decode (encode i) = .ok i

/-- A command word that decodes is the encoding of what it decodes to: no legal word has two readings or a bit that is dropped. -/
def Obligations.EncodeDecodeRoundTrip : Prop :=
  ∀ (w : CmdWord) (i : Instr), decodeCommand w = .ok i → encode i = .command w

/-- R103: a word is legal exactly if it matches a row, and no word matches two rows. -/
def Obligations.LegalWordsMatchOneRow : Prop :=
  (∀ w : CmdWord, (∃ i, decodeCommand w = .ok i) ↔ ∃ r ∈ cmdRows, w &&& r.mask = r.pattern) ∧
  (∀ w : CmdWord, ∀ r ∈ cmdRows, ∀ r' ∈ cmdRows,
    w &&& r.mask = r.pattern → w &&& r'.mask = r'.pattern → r.pattern = r'.pattern ∧ r.mask = r'.mask)

/-- R105: a word is illegal exactly under the conditions listed there; presented while idle, it is refused: `CMDERR`, the event
`cmderr(w)`, and nothing else. -/
def Obligations.IllegalWordsAreRefused : Prop :=
  ∀ w : CmdWord,
    ((∃ e, decodeCommand w = .error e) ↔ ∀ r ∈ cmdRows, w &&& r.mask ≠ r.pattern) ∧
    ((∃ e, decodeCommand w = .error e) ↔
      (opField w = 0#4 ∨ 7#4 ≤ opField w ∨ (selField w = 3#2 ∧ opField w = 1#4) ∨
       (seqField w = true ∧ opField w ≠ 2#4) ∨ (selField w ≠ 0#2 ∧ opField w ≠ 1#4) ∨ zeroField w ≠ 0#7 ∨
       (fieldA w ≠ 0#9 ∧ opField w ≠ 1#4) ∨ (fieldB w ≠ 0#9 ∧ opField w ≠ 1#4 ∧ opField w ≠ 2#4))) ∧
    ∀ (s : State) (rest : List Move), (∃ e, decodeCommand w = .error e) → s.status.busy = false →
      s.env = .present w :: rest →
      step s = .next { s with
        env := rest
        status := ⟨s.status.busy, s.status.done, true, s.status.xerr⟩
        events := s.events ++ [.cmderr w] }

/-- The bytes of a well-formed wire unit, whatever follows them, parse as that unit and leave what follows. -/
def Obligations.WireUnitsParse : Prop :=
  ∀ (i : Instr) (bytes rest : List Byte), i.wellFormed = true → encode i = .wire bytes →
    decodeWire (bytes ++ rest) = .ok (i, rest)

/-- The example words of R103 and one word or byte of every family, written out from the tables, decode to what they stand for. -/
def Obligations.WrittenWordsDecode : Prop :=
  decodeCommand 0x20000002#32 = .ok (.enc 2#9) ∧
  decodeCommand 0x28000000#32 = .ok (.encS 0#9) ∧
  decodeCommand 0x10000204#32 = .ok (.csumTx 1#9 4#9) ∧
  decodeCommand 0x12000204#32 = .ok (.csumRx 1#9 4#9) ∧
  decodeCommand 0x1401F400#32 = .ok (.csumPay 250#9 0#9) ∧
  decodeCommand 0x30000000#32 = .ok .send ∧
  decodeCommand 0x40000000#32 = .ok .dec ∧
  decodeCommand 0x50000000#32 = .ok .ack ∧
  decodeCommand 0x60000000#32 = .ok .nack ∧
  decodeWire [0x01#8, 0x02#8, 0x13#8, 0xEE#8] = .ok (.wireFrame [0x13#8, 0xEE#8], []) ∧
  decodeWire [0x06#8] = .ok (.wireAck, []) ∧
  decodeWire [0x15#8] = .ok (.wireNack, [])

/-! ### Steps and acceptance -/

/-- A step on an idle block with a legal word presented runs the instruction it encodes, the presentation used up. -/
def Obligations.StepRunsThePresentedCommand : Prop :=
  ∀ (s : State) (w : CmdWord) (rest : List Move) (i : Instr),
    s.env = .present w :: rest → s.status.busy = false → decodeCommand w = .ok i →
    step s = exec i { s with env := rest }

/-- A step with a wire unit on the wire runs that unit; the bytes after it stay on the wire. The meaning of the wire rows as arrivals
is the model's choice (log entry 4). -/
def Obligations.StepRunsTheArrivingUnit : Prop :=
  ∀ (s : State) (bytes left : List Byte) (rest : List Move) (i : Instr),
    s.env = .wire bytes :: rest → decodeWire bytes = .ok (i, left) →
    step s = exec i { s with env := if left = [] then rest else .wire left :: rest }

/-- R101: while `BUSY = 1` a presented word is not taken and nothing happens, whatever the word. That the presentation is
then used up is the model's choice (log entry 23). -/
def Obligations.BusyWordsAreNotTaken : Prop :=
  (∀ (s : State) (w : CmdWord) (rest : List Move),
    s.env = .present w :: rest → s.status.busy = true → step s = .next { s with env := rest }) ∧
  (∀ (s : State) (i : Instr) (w : CmdWord), encode i = .command w → s.status.busy = true → exec i s = .next s)

/-- R107: the three legal encodings refused by value, each with exactly the effect of an illegal word. -/
def Obligations.CommandsRefusedByValue : Prop :=
  ∀ (s : State) (i : Instr) (w : CmdWord), s.status.busy = false → encode i = .command w →
    ((∃ seq n, i = encOf seq n ∧ 250 < n.toNat) ∨
     (∃ off cnt, (i = .csumTx off cnt ∨ i = .csumRx off cnt) ∧ 257 < off.toNat + cnt.toNat) ∨
     (∃ off cnt, i = .csumPay off cnt ∧ 250 < off.toNat + cnt.toNat) ∨
     (i = .send ∧ s.txlen = 0#9)) →
    exec i s = .next { s with
      status := ⟨s.status.busy, s.status.done, true, s.status.xerr⟩
      events := s.events ++ [.cmderr w] }

/-- A command run from `IDLE` goes on until it has ended, the host acts, or it waits for an answer that is not there: it is never cut
short (R158, R352). The command level as a run of the step level is the model's choice (log entry 1). -/
def Obligations.CommandsEndOrWait : Prop :=
  ∀ (s t : State) (i : Instr) (w : CmdWord), encode i = .command w → s.phase = .idle → exec i s = .next t → t.goesOn = false

/-- A command has at most one result, at its end, in `RESULT` (R28, R308, R311): while it is busy `RESULT` stays and there is no
`done`; when it has ended the one `done` is the last event and carries `RESULT`. -/
def Obligations.CommandsEndOnce : Prop :=
  ∀ (s t : State) (i : Instr) (w : CmdWord), encode i = .command w → s.status.busy = false → exec i s = .next t →
    t.events = s.events ++ [.cmderr w] ∨
    ∃ mid, (∀ e ∈ mid, e.isDone = false) ∧
      ((t.status.busy = true ∧ t.result = s.result ∧ t.events = s.events ++ .cmd w :: mid) ∨
       (t.status.busy = false ∧ t.status.done = true ∧ t.events = s.events ++ .cmd w :: (mid ++ [.done t.result])))

/-! ### The checksum and CSUM -/

/-- R132: the laws (a) to (f) of the checksum. -/
def Obligations.ChecksumLaws : Prop :=
  (∀ xs ys : List Byte, xs.Perm ys → checksum xs = checksum ys) ∧
  (∀ xs ys : List Byte, checksum (xs ++ ys) = checksum xs ^^^ checksum ys ^^^ 0xFF#8) ∧
  (∀ xs : List Byte, checksum (xs ++ [checksum xs]) = 0x00#8) ∧
  (∀ (xs ys : List Byte) (b : Byte) (k : Nat), k < 8 →
    checksum (xs ++ (b ^^^ (1#8 <<< k)) :: ys) = checksum (xs ++ b :: ys) ^^^ (1#8 <<< k)) ∧
  (∀ x : Byte, checksum [x, x] = 0xFF#8) ∧
  (∀ xs ys : List Byte, checksum (xs ++ 0x00#8 :: ys) = checksum (xs ++ ys))

/-- R133, R135: on an idle block whose next move leaves it its steps, `CSUM` over a range of written bytes that fits its memory ends
with `OK`; `ACC` is the checksum of the range, `POS` its end, and nothing else changes but the latches, the flags and the events.
The operand latches and the turn of the internal steps are the model's choices (log entries 14 and 16). -/
def Obligations.CsumCompletes : Prop :=
  ∀ (sp : Space) (off cnt : Nine) (s : State) (bs : List Byte) (w : CmdWord),
    s.status.busy = false → yieldsToBlock s.env = true → off.toNat + cnt.toNat ≤ sp.size →
    s.bytes? sp off.toNat cnt.toNat = some bs → encode (csumOf sp off cnt) = .command w →
    exec (csumOf sp off cnt) s = .next { s with
      acc := checksum bs
      pos := off + cnt
      result := .ok
      status := flagsAfter s.status .ok
      phase := .idle
      opa := off
      opb := cnt
      bsl := sp.select
      sfl := false
      events := s.events ++ [.cmd w, .done .ok] }

/-- R136: a `CSUM` whose range holds a byte nothing has written stops with the fault of its name. That a byte without a value stops
the command is the model's choice (log entry 6), as the rule advises. -/
def Obligations.CsumFaultsOnUnwrittenBytes : Prop :=
  ∀ (sp : Space) (off cnt : Nine) (s : State),
    s.status.busy = false → yieldsToBlock s.env = true → off.toNat + cnt.toNat ≤ sp.size →
    (∃ k, k < cnt.toNat ∧ s.byte? sp (off.toNat + k) = none) →
    exec (csumOf sp off cnt) s = .fault .unwrittenByte

/-- R133: whatever the environment does, and whether or not it ends, `CSUM` writes none of `LEN`, `SEQ`, `TXLEN`, `RXCNT`, `RESLEN`,
`PEND` and no byte of memory, and sends and takes nothing. -/
def Obligations.CsumFrame : Prop :=
  ∀ (sp : Space) (off cnt : Nine) (s t : State), exec (csumOf sp off cnt) s = .next t →
    t.len = s.len ∧ t.seq = s.seq ∧ t.txlen = s.txlen ∧ t.rxcnt = s.rxcnt ∧ t.reslen = s.reslen ∧ t.pend = s.pend ∧
    t.hostLog = s.hostLog ∧ sameBytes s t ∧ t.txStream = s.txStream ∧ t.rxTaken = s.rxTaken

/-! ### ENC and ENC.S -/

/-- R41: the field of every offset of an outbound frame with `n` payload bytes, and the byte there; past the checksum there is no
field, and the frame ends. For every value of the parameters (R7). -/
def Obligations.OutboundFrameLayout : Prop :=
  ∀ (c : Params) (p : List Byte) (seq : Bool) (q : Byte), p.length ≤ c.maxPayload →
    (fieldOut 0 p.length seq = .sof ∧ fieldOut 1 p.length seq = .len ∧ fieldOut 2 p.length seq = .type ∧
      (∀ k, k < p.length → fieldOut (3 + k) p.length seq = .pay) ∧
      (seq = true → fieldOut (3 + p.length) p.length seq = .seq) ∧
      fieldOut (3 + p.length + seq.toNat) p.length seq = .csum ∧
      ∀ k, 3 + p.length + seq.toNat < k → fieldOut k p.length seq = .none) ∧
    ∀ k, (outboundFrame p seq q c)[k]? =
      match fieldOut k p.length seq with
      | .sof => some c.sof
      | .len => some (BitVec.ofNat 8 (p.length + 2 + seq.toNat))
      | .type => some c.typeReq
      | .pay => p[k - 3]?
      | .seq => some q
      | .csum => some (checksum (((outboundFrame p seq q c).drop 1).take (p.length + 2 + seq.toNat)) c)
      | .body => none
      | .none => none

/-- R151: on an idle block whose next move leaves it its steps, `ENC n` with a written payload of at most 250 bytes ends with `OK`;
the frame stands in `TXBUF`, every other byte is as before, and the registers are as the rule says. The operand latches and the
turn of the internal steps are the model's choices (log entries 14 and 16). -/
def Obligations.EncCompletes : Prop :=
  ∀ (n : Nine) (s : State) (p : List Byte) (w : CmdWord),
    s.status.busy = false → yieldsToBlock s.env = true → n.toNat ≤ 250 →
    s.bytes? .pay 0 n.toNat = some p → encode (.enc n) = .command w →
    ∃ t, exec (.enc n) s = .next t ∧
      t.bytes? .txbuf 0 (n.toNat + 4) = some (outboundFrame p false s.seq) ∧
      sameBytesOutside s t .txbuf 0 (n.toNat + 4) ∧
      { t with mem := s.mem } = { s with
        acc := checksum (coveredBytes p false s.seq)
        len := BitVec.ofNat 8 (n.toNat + 2)
        pos := BitVec.ofNat 9 (n.toNat + 4)
        txlen := BitVec.ofNat 9 (n.toNat + 4)
        result := .ok
        status := flagsAfter s.status .ok
        phase := .idle
        opa := 0#9
        opb := n
        bsl := 0#2
        sfl := false
        events := s.events ++ [.cmd w, .done .ok] }

/-- R152, R156: the same for `ENC.S n`: the sequence byte is the counter's old value, and the counter advances modulo 256. The operand
latches and the turn of the internal steps are the model's choices (log entries 14 and 16). -/
def Obligations.EncSCompletes : Prop :=
  ∀ (n : Nine) (s : State) (p : List Byte) (w : CmdWord),
    s.status.busy = false → yieldsToBlock s.env = true → n.toNat ≤ 250 →
    s.bytes? .pay 0 n.toNat = some p → encode (.encS n) = .command w →
    ∃ t, exec (.encS n) s = .next t ∧
      t.bytes? .txbuf 0 (n.toNat + 5) = some (outboundFrame p true s.seq) ∧
      sameBytesOutside s t .txbuf 0 (n.toNat + 5) ∧
      { t with mem := s.mem } = { s with
        seq := s.seq + 1#8
        acc := checksum (coveredBytes p true s.seq)
        len := BitVec.ofNat 8 (n.toNat + 3)
        pos := BitVec.ofNat 9 (n.toNat + 5)
        txlen := BitVec.ofNat 9 (n.toNat + 5)
        result := .ok
        status := flagsAfter s.status .ok
        phase := .idle
        opa := 0#9
        opb := n
        bsl := 0#2
        sfl := true
        events := s.events ++ [.cmd w, .done .ok] }

/-- R162: an `ENC` or `ENC.S` whose payload holds a byte nothing has written stops with the fault of its name. That a byte without a
value stops the command is the model's choice (log entry 6), as the rule advises. -/
def Obligations.EncFaultsOnUnwrittenPayload : Prop :=
  ∀ (seq : Bool) (n : Nine) (s : State),
    s.status.busy = false → yieldsToBlock s.env = true → n.toNat ≤ 250 →
    (∃ k, k < n.toNat ∧ s.byte? .pay k = none) →
    exec (encOf seq n) s = .fault .unwrittenByte

/-- R151, R152: whatever the environment does, and whether or not it ends, `ENC` and `ENC.S` write none of `RXCNT`, `RESLEN`, `PEND`, no
byte outside the first `n + 4 + s` of `TXBUF`, and send and take nothing; `ENC` does not write `SEQ`. -/
def Obligations.EncFrame : Prop :=
  ∀ (seq : Bool) (n : Nine) (s t : State), exec (encOf seq n) s = .next t →
    t.rxcnt = s.rxcnt ∧ t.reslen = s.reslen ∧ t.pend = s.pend ∧ t.hostLog = s.hostLog ∧
    (seq = false → t.seq = s.seq) ∧
    sameBytesOutside s t .txbuf 0 (n.toNat + 4 + seq.toNat) ∧
    t.txStream = s.txStream ∧ t.rxTaken = s.rxTaken

/-- R21: no instruction but `ENC.S` writes the sequence counter. -/
def Obligations.OnlyEncSWritesSeq : Prop :=
  ∀ (i : Instr) (s t : State), (∀ n, i ≠ .encS n) → exec i s = .next t → t.seq = s.seq

/-- R160: `k` consecutive `ENC.S n` put `q, q + 1, ..., q + k - 1`, modulo 256, in their sequence bytes and leave `q + k`. -/
def Obligations.SequenceNumbersCycle : Prop :=
  ∀ (k : Nat) (n : Nine) (s : State),
    s.status.busy = false → yieldsToBlock s.env = true → n.toNat ≤ 250 → (s.bytes? .pay 0 n.toNat).isSome = true →
    ∃ t, execAll (List.replicate (k + 1) (.encS n)) s = .next t ∧
      t.seq = s.seq + BitVec.ofNat 8 (k + 1) ∧
      t.byte? .txbuf (3 + n.toNat) = some (s.seq + BitVec.ofNat 8 k)

/-! ### SEND, ACK, NACK -/

/-- R181, R184: on an idle block with a frame of written bytes built and a transport that takes every byte, `SEND` hands over
`TXBUF[0..TXLEN-1]` in order and ends with `OK`; nothing else changes but `POS`, the latches, the flags and the events. The
operand latches are the model's choice (log entry 14). -/
def Obligations.SendCompletes : Prop :=
  ∀ (s : State) (bs : List Byte) (rest : List Move) (w : CmdWord),
    s.status.busy = false → s.txlen ≠ 0#9 → s.bytes? .txbuf 0 s.txlen.toNat = some bs →
    s.env = List.replicate s.txlen.toNat Move.taken ++ rest → encode .send = .command w →
    exec .send s = .next { s with
      pos := s.txlen
      result := .ok
      status := flagsAfter s.status .ok
      phase := .idle
      opa := 0#9
      opb := 0#9
      bsl := 0#2
      sfl := false
      events := s.events ++ .cmd w :: (bs.map Event.tx ++ [.done .ok])
      env := rest }

/-- R181, R186: when the transport fails at byte `i`, the bytes before it have been sent, no more are, `POS = i`, and the command ends
with `XFAIL` and the sticky `XERR`. The operand latches are the model's choice (log entry 14). -/
def Obligations.SendEndsAtAWriteFailure : Prop :=
  ∀ (s : State) (bs : List Byte) (i : Nat) (rest : List Move) (w : CmdWord),
    s.status.busy = false → s.bytes? .txbuf 0 s.txlen.toNat = some bs → i < s.txlen.toNat →
    s.env = List.replicate i Move.taken ++ Move.writeFails :: rest → encode .send = .command w →
    exec .send s = .next { s with
      pos := BitVec.ofNat 9 i
      result := .xfail
      status := flagsAfter s.status .xfail
      phase := .idle
      opa := 0#9
      opb := 0#9
      bsl := 0#2
      sfl := false
      events := s.events ++ .cmd w :: ((bs.take i).map Event.tx ++ [.txerr, .done .xfail])
      env := rest }

/-- R182, R183, R185, R186: on an idle block, `ACK` and `NACK` send their one byte and end with `OK` and `POS = 1`; when the transport
fails nothing is sent, `POS = 0` and the result is `XFAIL`. The operand latches are the model's choice (log entry 14). -/
def Obligations.ControlCommandsComplete : Prop :=
  ∀ (s : State) (rest : List Move) (i : Instr) (b : Byte) (w : CmdWord),
    (i = .ack ∧ b = 0x06#8 ∨ i = .nack ∧ b = 0x15#8) → s.status.busy = false → encode i = .command w →
    (s.env = Move.taken :: rest →
      exec i s = .next { s with
        pos := 1#9
        result := .ok
        status := flagsAfter s.status .ok
        phase := .idle
        opa := 0#9
        opb := b.setWidth 9
        bsl := 0#2
        sfl := false
        events := s.events ++ [.cmd w, .tx b, .done .ok]
        env := rest }) ∧
    (s.env = Move.writeFails :: rest →
      exec i s = .next { s with
        pos := 0#9
        result := .xfail
        status := flagsAfter s.status .xfail
        phase := .idle
        opa := 0#9
        opb := b.setWidth 9
        bsl := 0#2
        sfl := false
        events := s.events ++ [.cmd w, .txerr, .done .xfail]
        env := rest })

/-- R181 to R183: whatever the environment does, and whether or not they end, `SEND`, `ACK` and `NACK` write none of `SEQ`, `ACC`, `LEN`,
`TXLEN`, `RXCNT`, `RESLEN`, `PEND` and no byte of memory, and take nothing from the peer. -/
def Obligations.TransmitFrame : Prop :=
  ∀ (i : Instr) (s t : State), (i = .send ∨ i = .ack ∨ i = .nack) → exec i s = .next t →
    t.seq = s.seq ∧ t.acc = s.acc ∧ t.len = s.len ∧ t.txlen = s.txlen ∧ t.rxcnt = s.rxcnt ∧ t.reslen = s.reslen ∧
    t.pend = s.pend ∧ t.hostLog = s.hostLog ∧ sameBytes s t ∧ t.rxTaken = s.rxTaken

/-- R180 (c), R204 (d), R352: with no answer of the transport scheduled, a command that needs one stays busy, and every further step
leaves it where it is: the hang stays possible. That a machine with nothing scheduled waits on is the model's choice (log entries
2 and 19). -/
def Obligations.CommandsCanWaitForEver : Prop :=
  ∀ (s : State) (i : Instr), (i = .ack ∨ i = .nack ∨ i = .dec ∨ (i = .send ∧ s.txlen ≠ 0#9)) →
    s.status.busy = false → s.env = [] →
    ∃ t, exec i s = .next t ∧ t.status.busy = true ∧ t.result = s.result ∧ step t = .next t

/-! ### DEC -/

/-- R200, R201, R217: on an idle block, a frame whose body ends in the checksum of its length field and the rest of its body,
delivered in time and its ACK taken, ends with `OK`. The body may be the checksum alone (R213). The operand latches are the
model's choice (log entry 14). -/
def Obligations.DecAcceptsValidFrames : Prop :=
  ∀ (s : State) (covered body more : List Byte) (rest : List Move) (w : CmdWord),
    s.status.busy = false → covered.length + 1 ≤ 255 →
    body = covered ++ [checksum (BitVec.ofNat 8 (covered.length + 1) :: covered)] →
    s.rxStream = frameBytes body ++ more →
    s.env = List.replicate (body.length + 2) Move.byteComes ++ Move.taken :: rest → encode .dec = .command w →
    ∃ t, exec .dec s = .next t ∧
      t.bytes? .rxbuf 0 (body.length + 2) = some (frameBytes body) ∧
      sameBytesOutside s t .rxbuf 0 (body.length + 2) ∧
      { t with mem := s.mem } = { s with
        acc := checksum (BitVec.ofNat 8 (covered.length + 1) :: covered)
        len := BitVec.ofNat 8 body.length
        pos := BitVec.ofNat 9 (body.length + 2)
        rxcnt := BitVec.ofNat 9 (body.length + 2)
        reslen := BitVec.ofNat 8 covered.length
        result := .ok
        status := flagsAfter s.status .ok
        phase := .idle
        opa := 0#9
        opb := 0#9
        bsl := 0#2
        sfl := false
        pend := .ok
        rxStream := more
        events := s.events ++ .cmd w :: .arm 2#8 :: .rx 0x01#8 :: .rx (BitVec.ofNat 8 body.length) ::
          .arm (BitVec.ofNat 8 body.length) :: (body.map Event.rx ++ [.tx 0x06#8, .done .ok])
        env := rest }

/-- R216, R218, R304: the same frame with another last byte ends with `INVALID_CRC`, after a NACK, and no result. The operand latches
are the model's choice (log entry 14). -/
def Obligations.DecRejectsBadChecksums : Prop :=
  ∀ (s : State) (covered body more : List Byte) (c : Byte) (rest : List Move) (w : CmdWord),
    s.status.busy = false → covered.length + 1 ≤ 255 →
    c ≠ checksum (BitVec.ofNat 8 (covered.length + 1) :: covered) → body = covered ++ [c] →
    s.rxStream = frameBytes body ++ more →
    s.env = List.replicate (body.length + 2) Move.byteComes ++ Move.taken :: rest → encode .dec = .command w →
    ∃ t, exec .dec s = .next t ∧
      t.bytes? .rxbuf 0 (body.length + 2) = some (frameBytes body) ∧
      sameBytesOutside s t .rxbuf 0 (body.length + 2) ∧
      { t with mem := s.mem } = { s with
        acc := checksum (BitVec.ofNat 8 (covered.length + 1) :: covered)
        len := BitVec.ofNat 8 body.length
        pos := BitVec.ofNat 9 (body.length + 2)
        rxcnt := BitVec.ofNat 9 (body.length + 2)
        reslen := 0#8
        result := .invalidCrc
        status := flagsAfter s.status .invalidCrc
        phase := .idle
        opa := 0#9
        opb := 0#9
        bsl := 0#2
        sfl := false
        pend := .invalidCrc
        rxStream := more
        events := s.events ++ .cmd w :: .arm 2#8 :: .rx 0x01#8 :: .rx (BitVec.ofNat 8 body.length) ::
          .arm (BitVec.ofNat 8 body.length) :: (body.map Event.rx ++ [.tx 0x15#8, .done .invalidCrc])
        env := rest }

/-- R212: a header with length field 0 opens no body call; a NACK is sent and the result is `INVALID_CRC`. -/
def Obligations.DecRejectsLengthZero : Prop :=
  ∀ (s : State) (more : List Byte) (rest : List Move) (w : CmdWord),
    s.status.busy = false → s.rxStream = 0x01#8 :: 0x00#8 :: more →
    s.env = Move.byteComes :: Move.byteComes :: Move.taken :: rest → encode .dec = .command w →
    ∃ t, exec .dec s = .next t ∧
      t.bytes? .rxbuf 0 2 = some [0x01#8, 0x00#8] ∧ sameBytesOutside s t .rxbuf 0 2 ∧
      { t with mem := s.mem, opa := s.opa, opb := s.opb, bsl := s.bsl, sfl := s.sfl } = { s with
        acc := 0xFF#8
        len := 0#8
        pos := 2#9
        rxcnt := 2#9
        reslen := 0#8
        result := .invalidCrc
        status := flagsAfter s.status .invalidCrc
        phase := .idle
        pend := .invalidCrc
        rxStream := more
        events := s.events ++ [.cmd w, .arm 2#8, .rx 0x01#8, .rx 0x00#8, .tx 0x15#8, .done .invalidCrc]
        env := rest }

/-- R208: when the header's deadline passes after 0 or 1 bytes, whatever the byte, the result is `INVALID_SOF_SIZE`, nothing is
sent, and a byte taken stays taken. -/
def Obligations.DecEndsOnAShortHeader : Prop :=
  ∀ (s : State) (got more : List Byte) (rest : List Move) (w : CmdWord),
    s.status.busy = false → got.length ≤ 1 → s.rxStream = got ++ more →
    s.env = List.replicate got.length Move.byteComes ++ Move.deadline :: rest →
    encode .dec = .command w →
    ∃ t, exec .dec s = .next t ∧
      t.bytes? .rxbuf 0 got.length = some got ∧ sameBytesOutside s t .rxbuf 0 got.length ∧
      { t with mem := s.mem, opa := s.opa, opb := s.opb, bsl := s.bsl, sfl := s.sfl } = { s with
        acc := 0xFF#8
        len := 0#8
        pos := BitVec.ofNat 9 got.length
        rxcnt := BitVec.ofNat 9 got.length
        reslen := 0#8
        result := .invalidSofSize
        status := flagsAfter s.status .invalidSofSize
        phase := .idle
        pend := .ok
        rxStream := more
        events := s.events ++ .cmd w :: .arm 2#8 :: (got.map Event.rx ++ [.timeout, .done .invalidSofSize])
        env := rest }

/-- R210: two bytes whose first is not the start marker, the second anything, end with `INVALID_SOF`: no body call, nothing sent,
nothing more taken, and `LEN` holds the second byte. -/
def Obligations.DecRejectsWrongMarkers : Prop :=
  ∀ (s : State) (first second : Byte) (more : List Byte) (rest : List Move) (w : CmdWord),
    s.status.busy = false → first ≠ 0x01#8 → s.rxStream = first :: second :: more →
    s.env = Move.byteComes :: Move.byteComes :: rest → encode .dec = .command w →
    ∃ t, exec .dec s = .next t ∧
      t.bytes? .rxbuf 0 2 = some [first, second] ∧ sameBytesOutside s t .rxbuf 0 2 ∧
      { t with mem := s.mem, opa := s.opa, opb := s.opb, bsl := s.bsl, sfl := s.sfl } = { s with
        acc := 0xFF#8 ^^^ second
        len := second
        pos := 2#9
        rxcnt := 2#9
        reslen := 0#8
        result := .invalidSof
        status := flagsAfter s.status .invalidSof
        phase := .idle
        pend := .ok
        rxStream := more
        events := s.events ++ [.cmd w, .arm 2#8, .rx first, .rx second, .done .invalidSof]
        env := rest }

/-- R215: when the body's deadline passes before `LEN` bytes have come, a NACK is sent and the result is `INVALID_DATALEN`; the bytes
taken stay, and `ACC` holds their fold. -/
def Obligations.DecEndsOnAShortBody : Prop :=
  ∀ (s : State) (l : Byte) (got more : List Byte) (rest : List Move) (w : CmdWord),
    s.status.busy = false → got.length < l.toNat → s.rxStream = 0x01#8 :: l :: (got ++ more) →
    s.env = List.replicate (got.length + 2) Move.byteComes ++ Move.deadline :: Move.taken :: rest →
    encode .dec = .command w →
    ∃ t, exec .dec s = .next t ∧
      t.bytes? .rxbuf 0 (got.length + 2) = some (0x01#8 :: l :: got) ∧ sameBytesOutside s t .rxbuf 0 (got.length + 2) ∧
      { t with mem := s.mem, opa := s.opa, opb := s.opb, bsl := s.bsl, sfl := s.sfl } = { s with
        acc := checksum (l :: got)
        len := l
        pos := BitVec.ofNat 9 (got.length + 2)
        rxcnt := BitVec.ofNat 9 (got.length + 2)
        reslen := 0#8
        result := .invalidDatalen
        status := flagsAfter s.status .invalidDatalen
        phase := .idle
        pend := .invalidDatalen
        rxStream := more
        events := s.events ++ .cmd w :: .arm 2#8 :: .rx 0x01#8 :: .rx l :: .arm l ::
          (got.map Event.rx ++ [.timeout, .tx 0x15#8, .done .invalidDatalen])
        env := rest }

/-- R220: a read failure in either read call ends the command with `XFAIL` and `XERR`, with no NACK; the bytes taken stay taken. The first
clause is the header call, the second the body call. -/
def Obligations.DecEndsOnAReadFailure : Prop :=
  (∀ (s : State) (got more : List Byte) (rest : List Move),
    s.status.busy = false → got.length ≤ 1 → s.rxStream = got ++ more →
    s.env = List.replicate got.length Move.byteComes ++ Move.readFails :: rest →
    ∃ t, exec .dec s = .next t ∧ t.result = .xfail ∧ t.status = flagsAfter s.status .xfail ∧ t.phase = .idle ∧
      t.rxcnt = BitVec.ofNat 9 got.length ∧ t.reslen = 0#8 ∧ t.txStream = s.txStream ∧ t.rxStream = more ∧
      t.bytes? .rxbuf 0 got.length = some got ∧ t.env = rest) ∧
  (∀ (s : State) (l : Byte) (got more : List Byte) (rest : List Move),
    s.status.busy = false → got.length < l.toNat → s.rxStream = 0x01#8 :: l :: (got ++ more) →
    s.env = List.replicate (got.length + 2) Move.byteComes ++ Move.readFails :: rest →
    ∃ t, exec .dec s = .next t ∧ t.result = .xfail ∧ t.status = flagsAfter s.status .xfail ∧ t.phase = .idle ∧
      t.rxcnt = BitVec.ofNat 9 (got.length + 2) ∧ t.reslen = 0#8 ∧ t.txStream = s.txStream ∧ t.rxStream = more ∧
      t.bytes? .rxbuf 0 (got.length + 2) = some (0x01#8 :: l :: got) ∧ t.env = rest)

/-- R201: whatever the environment does, and whether or not it ends, `DEC` does not write `SEQ`, `TXLEN` or any byte of `TXBUF` or
`PAY`, and sends at most one byte, an ACK or a NACK. -/
def Obligations.DecFrame : Prop :=
  ∀ (s t : State), exec .dec s = .next t →
    t.seq = s.seq ∧ t.txlen = s.txlen ∧ t.hostLog = s.hostLog ∧ sameBytesOutside s t .rxbuf 0 257 ∧
    (t.txStream = s.txStream ∨ t.txStream = s.txStream ++ [0x06#8] ∨ t.txStream = s.txStream ++ [0x15#8])

/-- R76, R65: with nothing new arriving, what `DEC` takes and what stays in the stream are together what was there, in order: it takes
from the head, skips none and puts none back. -/
def Obligations.DecTakesBytesInOrder : Prop :=
  ∀ (s t : State), (∀ m ∈ s.env, ∀ bytes, m ≠ Move.wire bytes) → exec .dec s = .next t →
    t.rxTaken ++ t.rxStream = s.rxTaken ++ s.rxStream

/-- R163: the bytes of `encode(p, s, q)`, delivered in time and the ACK taken, decode with `OK` to the type byte, the payload and the
sequence byte, and `0x06` is sent. -/
def Obligations.DecodeRecoversWhatEncodeBuilt : Prop :=
  ∀ (p : List Byte) (seq : Bool) (q : Byte) (s : State) (more : List Byte) (rest : List Move),
    p.length ≤ 250 → s.status.busy = false → s.rxStream = outboundFrame p seq q ++ more →
    s.env = List.replicate (p.length + 4 + seq.toNat) Move.byteComes ++ Move.taken :: rest →
    ∃ t, exec .dec s = .next t ∧ t.status.busy = false ∧ t.result = .ok ∧
      t.len.toNat = p.length + 2 + seq.toNat ∧ t.reslen.toNat = p.length + 1 + seq.toNat ∧
      (∀ k, k < t.reslen.toNat → t.rspByte k = (0x00#8 :: (p ++ if seq then [q] else []))[k]?) ∧
      t.txStream = s.txStream ++ [0x06#8] ∧ t.rxStream = more

/-- R225 (a): a valid frame with one bit flipped at an offset from 2 to `L`, or in its checksum byte, ends with `INVALID_CRC` and a
NACK. -/
def Obligations.SingleBitFlipsAreCaught : Prop :=
  ∀ (s : State) (covered body flipped more : List Byte) (j k : Nat) (rest : List Move),
    s.status.busy = false → covered.length + 1 ≤ 255 →
    body = covered ++ [checksum (BitVec.ofNat 8 (covered.length + 1) :: covered)] →
    (hj : j < body.length) → k < 8 → flipped = body.set j (body[j] ^^^ (1#8 <<< k)) →
    s.rxStream = frameBytes flipped ++ more →
    s.env = List.replicate (body.length + 2) Move.byteComes ++ Move.taken :: rest →
    ∃ t, exec .dec s = .next t ∧ t.status.busy = false ∧ t.result = .invalidCrc ∧ t.txStream = s.txStream ++ [0x15#8]

/-- R230: every row of the transition table of `DEC`, as a single step, and the pairs that are not enabled: no read answer is taken while the
reply is on offer, no write answer while a read call is open. In the header `RXCNT` equals `POS`, as the tracker keeps it. -/
def Obligations.DecTransitionTable : Prop :=
  ∀ (s : State) (b : Byte) (more : List Byte) (rest : List Move),
    (s.phase = .idle → s.status.busy = false → s.env = [.present 0x40000000#32] →
      ∃ t, step s = .next t ∧
        { t with opa := s.opa, opb := s.opb, bsl := s.bsl, sfl := s.sfl } = { s with
          rxcnt := 0#9, reslen := 0#8, len := 0#8, pos := 0#9, acc := 0xFF#8, pend := .ok
          status := ⟨true, false, s.status.cmderr, s.status.xerr⟩, phase := .dHdr
          events := s.events ++ [.cmd 0x40000000#32, .arm 2#8], env := [] }) ∧
    (s.phase = .dHdr → s.rxcnt = s.pos → s.rxStream = b :: more → s.env = Move.byteComes :: rest →
      (s.pos = 0#9 →
        step s = .next { s with
          mem := memStore s.mem 0x400 b, pos := 1#9, rxcnt := 1#9
          rxStream := more, events := s.events ++ [.rx b], env := rest }) ∧
      (s.pos = 1#9 → ∀ first, s.byte? .rxbuf 0 = some first →
        (first ≠ 0x01#8 →
          step s = .next { s with
            mem := memStore s.mem 0x401 b, len := b, acc := s.acc ^^^ b, pos := 2#9, rxcnt := 2#9
            result := .invalidSof, status := flagsAfter s.status .invalidSof, phase := .idle
            rxStream := more, events := s.events ++ [.rx b, .done .invalidSof], env := rest }) ∧
        (first = 0x01#8 → b = 0x00#8 →
          step s = .next { s with
            mem := memStore s.mem 0x401 b, len := 0#8, pos := 2#9, rxcnt := 2#9
            pend := .invalidCrc, phase := .dNack
            rxStream := more, events := s.events ++ [.rx b], env := rest }) ∧
        (first = 0x01#8 → b ≠ 0x00#8 →
          step s = .next { s with
            mem := memStore s.mem 0x401 b, len := b, acc := s.acc ^^^ b, pos := 2#9, rxcnt := 2#9
            phase := .dBody
            rxStream := more, events := s.events ++ [.rx b, .arm b], env := rest }))) ∧
    (s.phase = .dBody → s.rxStream = b :: more → s.env = Move.byteComes :: rest →
      (s.pos.toNat ≤ s.len.toNat →
        step s = .next { s with
          mem := memStore s.mem (0x400 + s.pos.toNat) b, acc := s.acc ^^^ b, pos := s.pos + 1#9, rxcnt := s.rxcnt + 1#9
          rxStream := more, events := s.events ++ [.rx b], env := rest }) ∧
      (s.pos.toNat = s.len.toNat + 1 → s.acc = b →
        step s = .next { s with
          mem := memStore s.mem (0x400 + s.pos.toNat) b, pos := s.pos + 1#9, rxcnt := s.rxcnt + 1#9
          reslen := s.len - 1#8, phase := .dAck
          rxStream := more, events := s.events ++ [.rx b], env := rest }) ∧
      (s.pos.toNat = s.len.toNat + 1 → s.acc ≠ b →
        step s = .next { s with
          mem := memStore s.mem (0x400 + s.pos.toNat) b, pos := s.pos + 1#9, rxcnt := s.rxcnt + 1#9
          pend := .invalidCrc, phase := .dNack
          rxStream := more, events := s.events ++ [.rx b], env := rest })) ∧
    (s.env = Move.deadline :: rest →
      (s.phase = .dHdr →
        step s = .next { s with
          result := .invalidSofSize, status := flagsAfter s.status .invalidSofSize, phase := .idle
          events := s.events ++ [.timeout, .done .invalidSofSize], env := rest }) ∧
      (s.phase = .dBody →
        step s = .next { s with
          pend := .invalidDatalen, phase := .dNack, events := s.events ++ [.timeout], env := rest })) ∧
    (s.env = Move.readFails :: rest → (s.phase = .dHdr ∨ s.phase = .dBody) →
      step s = .next { s with
        result := .xfail, status := flagsAfter s.status .xfail, phase := .idle
        events := s.events ++ [.rxerr, .done .xfail], env := rest }) ∧
    (s.env = Move.taken :: rest →
      (s.phase = .dAck →
        step s = .next { s with
          result := .ok, status := flagsAfter s.status .ok, phase := .idle
          events := s.events ++ [.tx 0x06#8, .done .ok], env := rest }) ∧
      (s.phase = .dNack →
        step s = .next { s with
          result := s.pend, status := flagsAfter s.status s.pend, phase := .idle
          events := s.events ++ [.tx 0x15#8, .done s.pend], env := rest })) ∧
    (s.env = Move.writeFails :: rest → (s.phase = .dAck ∨ s.phase = .dNack) →
      step s = .next { s with
        result := .xfail, status := flagsAfter s.status .xfail, phase := .idle
        events := s.events ++ [.txerr, .done .xfail], env := rest }) ∧
    (∀ sig : RxSignals, (s.phase = .dAck ∨ s.phase = .dNack) → s.env = .rx sig :: rest → step s = .next { s with env := rest }) ∧
    (∀ sig : TxSignals, (s.phase = .dHdr ∨ s.phase = .dBody) → s.env = .tx sig :: rest → step s = .next { s with env := rest })

/-! ### The wire -/

/-- A wire unit of the peer joins the end of the receive stream, byte for byte, and changes nothing else, busy or not. That this is the
meaning of the wire rows is the model's choice (log entry 4). -/
def Obligations.WireUnitsJoinTheStream : Prop :=
  ∀ (i : Instr) (bytes : List Byte) (s : State), encode i = .wire bytes →
    exec i s = .next { s with rxStream := s.rxStream ++ bytes }

/-! ### The host -/

/-- R241: a read of a register while idle returns its value, zero-extended, and changes nothing of the block. -/
def Obligations.HostReadsRegisters : Prop :=
  ∀ (s : State) (a : HostAddr) (v : HostData) (rest : List Move),
    s.status.busy = false → s.env = .hread a :: rest →
    (a.toNat, v) ∈
      [(0, 0#12 ++ BitVec.ofBool s.status.xerr ++ BitVec.ofBool s.status.cmderr ++ BitVec.ofBool s.status.done ++
          BitVec.ofBool s.status.busy),
       (1, 0#8 ++ s.result.byte), (2, 0#8 ++ s.seq), (3, 0#8 ++ s.acc), (4, 0#8 ++ s.len), (5, 0#8 ++ s.reslen),
       (6, 0#7 ++ s.pos), (7, 0#7 ++ s.txlen), (8, 0#7 ++ s.rxcnt)] →
    step s = .next { s with hostLog := s.hostLog ++ [.readData a v], env := rest }

/-- R242, R67: a read of a memory byte while idle returns it, zero-extended, if something has written it; else it stops with the fault
of its name (U1). The stop is the model's choice (log entry 6). -/
def Obligations.HostReadsBytes : Prop :=
  ∀ (s : State) (sp : Space) (i : Nat) (a : HostAddr) (rest : List Move),
    s.status.busy = false → s.env = .hread a :: rest → i < sp.size → a.toNat = sp.base + i →
    step s =
      match s.byte? sp i with
      | some b => .next { s with hostLog := s.hostLog ++ [.readData a (0#8 ++ b)], env := rest }
      | none => .fault .unwrittenByte

/-- R243: a write to `PAY[j]` while idle stores the low byte of the datum there and changes nothing else of the block. -/
def Obligations.HostWritesPayload : Prop :=
  ∀ (s : State) (j : Nat) (a : HostAddr) (d : HostData) (rest : List Move),
    s.status.busy = false → s.env = .hwrite a d :: rest → j ≤ 249 → a.toNat = 0x100 + j →
    ∃ t, step s = .next t ∧ t.byte? .pay j = some (d.extractLsb' 0 8) ∧ sameBytesOutside s t .pay j 1 ∧
      { t with mem := s.mem } = { s with hostLog := s.hostLog ++ [.wrote a], env := rest }

/-- R244, R246: a write to `PAY` while busy, a write anywhere else, and a read of an unmapped address change nothing and are answered
with `h_err`. That a refused read has no datum is the model's choice (log entry 8). -/
def Obligations.RefusedHostAccesses : Prop :=
  ∀ (s : State) (a : HostAddr) (d : HostData) (rest : List Move),
    ((s.env = .hwrite a d :: rest ∧ s.status.busy = true ∧ 0x100 ≤ a.toNat ∧ a.toNat ≤ 0x1F9) ∨
     (s.env = .hwrite a d :: rest ∧ (a.toNat < 0x100 ∨ 0x1F9 < a.toNat)) ∨
     (s.env = .hread a :: rest ∧
       ((8 < a.toNat ∧ a.toNat < 0x100) ∨ (0x1F9 < a.toNat ∧ a.toNat < 0x200) ∨ (0x300 < a.toNat ∧ a.toNat < 0x400) ∨
        0x500 < a.toNat))) →
    step s = .next { s with hostLog := s.hostLog ++ [.accessErr a], env := rest }

/-- R245: while busy `STATUS` and `RESULT` read as ever, and a read of any other mapped address is refused by name. The refusal is the
model's choice (log entry 7), as the rule advises. -/
def Obligations.BusyHostReads : Prop :=
  ∀ (s : State) (a : HostAddr) (rest : List Move), s.status.busy = true → s.env = .hread a :: rest →
    (a = 0x000#12 → step s = .next { s with hostLog := s.hostLog ++ [.readData a (0#12 ++ s.status.word)], env := rest }) ∧
    (a = 0x001#12 → step s = .next { s with hostLog := s.hostLog ++ [.readData a (0#8 ++ s.result.byte)], env := rest }) ∧
    (((2 ≤ a.toNat ∧ a.toNat ≤ 8) ∨ (0x100 ≤ a.toNat ∧ a.toNat ≤ 0x1F9) ∨ (0x200 ≤ a.toNat ∧ a.toNat ≤ 0x300) ∨
      (0x400 ≤ a.toNat ∧ a.toNat ≤ 0x500)) → step s = .refused .busyHostRead)

/-- R270: the ACK wait while idle takes one byte if one comes, whatever it is; the outcome is `OK` for `0x06` and `NOACK` for any other
byte and for none; a read failure is the negative indicator; the block's state does not change. -/
def Obligations.AckWaitOutcomes : Prop :=
  ∀ (s : State) (b : Byte) (more : List Byte) (rest : List Move), s.status.busy = false →
    (s.rxStream = b :: more → s.env = .ackWait ⟨true, false, false⟩ :: rest →
      step s = .next { s with
        rxStream := more, env := rest
        hostLog := s.hostLog ++ [.ackWait (if b = 0x06#8 then .ok else .noack)] }) ∧
    (s.env = .ackWait ⟨false, true, false⟩ :: rest →
      step s = .next { s with env := rest, hostLog := s.hostLog ++ [.ackWait .noack] }) ∧
    (s.env = .ackWait ⟨false, false, true⟩ :: rest →
      step s = .next { s with env := rest, hostLog := s.hostLog ++ [.ackWait .xfail] })

/-- R271: a call that returns `NOACK` has issued no `DEC`. The host's call as a function over the machine is the model's choice (log
entry 22). -/
def Obligations.NoDecodeAfterNoack : Prop :=
  ∀ (payload : List Byte) (seq : Bool) (s t : State),
    sendCommandAwaitResponse payload seq s = .next (t, .returned [] .noack) →
    ∀ e ∈ t.events.drop s.events.length, e ≠ .cmd 0x40000000#32

/-- R273: with a transport that takes the command frame, an ACK at the head of the stream and a valid response behind it, the call
returns the response's type byte and payload. The host's call as a function over the machine is the model's choice (log entry 22). -/
def Obligations.AwaitResponseReturnsTheResponse : Prop :=
  ∀ (payload covered body more : List Byte) (seq : Bool) (s : State) (rest : List Move),
    s.status.busy = false → payload ≠ [] → payload.length ≤ 250 → covered.length + 1 ≤ 255 →
    body = covered ++ [checksum (BitVec.ofNat 8 (covered.length + 1) :: covered)] →
    s.rxStream = 0x06#8 :: (frameBytes body ++ more) →
    s.env = List.replicate (payload.length + 4 + seq.toNat) Move.taken ++ .ackWait ⟨true, false, false⟩ ::
      (List.replicate (body.length + 2) Move.byteComes ++ Move.taken :: rest) →
    ∃ t, sendCommandAwaitResponse payload seq s = .next (t, .returned covered .ok) ∧
      t.txStream = s.txStream ++ outboundFrame payload seq s.seq ++ [0x06#8] ∧ t.rxStream = more ∧
      t.seq = nextSeq seq s.seq

/-! ### Reset -/

/-- R46, R340, R341: reset gives every register its reset value and every byte of memory none, adds the event `reset` and no `done`,
and leaves the streams as they are. Bytes without a value stand for unspecified ones: the model's choice (log entry 13). -/
def Obligations.ResetTakesTheResetState : Prop :=
  ∀ (s : State) (rest : List Move), s.env = .reset :: rest →
    ∃ t, step s = .next t ∧ t.seq = 0x00#8 ∧ t.acc = 0xFF#8 ∧ t.len = 0#8 ∧ t.pos = 0#9 ∧ t.txlen = 0#9 ∧ t.rxcnt = 0#9 ∧
      t.reslen = 0#8 ∧ t.result.byte = 0x00#8 ∧ t.status.word = 0#4 ∧ t.phase = .idle ∧ t.sfl = false ∧ t.opa = 0#9 ∧
      t.opb = 0#9 ∧ t.bsl = 0#2 ∧ t.pend.byte = 0#8 ∧ (∀ sp i, t.byte? sp i = none) ∧
      t.rxStream = s.rxStream ∧ t.txStream = s.txStream ∧ t.events = s.events ++ [.reset]

/-! ### Invariants -/

/-- The state after reset is safe: flags, codes, tracker, memory, transmit buffer. -/
def Obligations.ResetIsSafe : Prop :=
  State.reset.flagsOk = true ∧ State.reset.codesOk = true ∧ State.reset.trackerOk = true ∧
  Memory.wf State.reset.mem = true ∧ State.reset.txbufOk

/-- R49: every step keeps `BUSY = 1` equivalent to `FSM != IDLE`, and `BUSY` and `DONE` not both 1. -/
def Obligations.StepsKeepTheFlags : Prop :=
  ∀ s t : State, s.flagsOk = true → step s = .next t → t.flagsOk = true

/-- R28: every step keeps `RESULT` a code of the block: never 1, never 4. -/
def Obligations.StepsKeepTheCodes : Prop :=
  ∀ s t : State, s.codesOk = true → step s = .next t → t.codesOk = true

/-- Every step keeps the memory in its canonical form. The form is the model's own (20_memory.md R66, R67). -/
def Obligations.StepsKeepTheMemoryCanonical : Prop :=
  ∀ s t : State, Memory.wf s.mem = true → step s = .next t → Memory.wf t.mem = true

/-- R24, R25, R43: every step keeps the tracker inside its field map or range, `POS` and `RXCNT` at most 257, and `TXLEN` 0 or 4 to 255. -/
def Obligations.StepsKeepTheTracker : Prop :=
  ∀ s t : State, s.trackerOk = true → step s = .next t → t.trackerOk = true

/-- R47: every step keeps the built frame valid in `TXBUF`: marker, length, type and checksum; while it is being built, its part. -/
def Obligations.StepsKeepTheFrameValid : Prop :=
  ∀ s t : State, s.txbufOk → step s = .next t → t.txbufOk

/-- Where the tracker is as it must be, no step leaves the field map and none touches a byte outside a memory. So two faults of the
model are never met (log entry 20). -/
def Obligations.NoStepLeavesTheFieldMap : Prop :=
  ∀ s : State, s.trackerOk = true → step s ≠ .fault .trackerOffFrame ∧ step s ≠ .fault .noSuchByte

/-- R29, R342: `CMDERR` and `XERR`, once set, stay set by every step but a reset. -/
def Obligations.ErrorBitsAreSticky : Prop :=
  ∀ s t : State, (∀ rest, s.env ≠ .reset :: rest) → step s = .next t →
    (s.status.cmderr = true → t.status.cmderr = true) ∧ (s.status.xerr = true → t.status.xerr = true)

/-- R38, R65: no step takes an event back: what has been sent and what has been taken stay so. -/
def Obligations.EventsOnlyGrow : Prop :=
  ∀ s t : State, step s = .next t → s.events <+: t.events

/-- R73, R247: while a command is busy no move of the host but a reset changes a register or a byte of memory. -/
def Obligations.HostCannotDisturbABusyBlock : Prop :=
  ∀ (s t : State) (m : Move) (rest : List Move), s.status.busy = true → s.env = m :: rest → m.isHost = true → m ≠ .reset →
    step s = .next t → { t with env := s.env, hostLog := s.hostLog } = s
end

