-- ==== Sys2Proof/Laws/Config.lean ====
section
/-! SUPPORT. This hardware's value of each parameter (00_scope.md R7), one lemma each. -/

namespace Sys2Proof

@[simp] theorem Config.hw_sof : Config.hw.sof = 0x01#8 := rfl
@[simp] theorem Config.hw_typeReq : Config.hw.typeReq = 0x00#8 := rfl
@[simp] theorem Config.hw_ackByte : Config.hw.ackByte = 0x06#8 := rfl
@[simp] theorem Config.hw_nackByte : Config.hw.nackByte = 0x15#8 := rfl
@[simp] theorem Config.hw_csumSeed : Config.hw.csumSeed = 0xFF#8 := rfl
@[simp] theorem Config.hw_seqInit : Config.hw.seqInit = 0x00#8 := rfl
@[simp] theorem Config.hw_maxPayload : Config.hw.maxPayload = 250 := rfl
@[simp] theorem Params.bufSize_eq (c : Params) : c.bufSize = 257 := rfl
@[simp] theorem Params.paySize_eq (c : Params) : c.paySize = c.maxPayload := rfl

end Sys2Proof
end

