-- ==== Sys2Proof/Laws/Decode.lean ====
section
/-! SUPPORT. The laws of the command word: each field of a word built from fields is that field. -/

namespace Sys2Proof

variable (op : BitVec 4) (seq : Bool) (sel : BitVec 2) (a b : Nine)

@[simp] theorem fieldB_commandWord : fieldB (commandWord op seq sel a b) = b := by
  unfold fieldB commandWord
  ext i hi
  simp only [BitVec.getElem_extractLsb', BitVec.getLsbD_append]
  rw [Nat.zero_add, if_pos hi, BitVec.getLsbD_eq_getElem hi]

@[simp] theorem fieldA_commandWord : fieldA (commandWord op seq sel a b) = a := by
  unfold fieldA commandWord
  ext i hi
  simp only [BitVec.getElem_extractLsb', BitVec.getLsbD_append]
  simp [show ¬ 9 + i < 9 by omega, show 9 + i - 9 = i by omega, hi]

@[simp] theorem zeroField_commandWord : zeroField (commandWord op seq sel a b) = 0#7 := by
  unfold zeroField commandWord
  ext i hi
  simp only [BitVec.getElem_extractLsb', BitVec.getLsbD_append]
  simp [show ¬ 18 + i < 9 by omega, show ¬ 18 + i - 9 < 9 by omega, show 18 + i - 9 - 9 = i by omega, hi]

@[simp] theorem selField_commandWord : selField (commandWord op seq sel a b) = sel := by
  unfold selField commandWord
  ext i hi
  simp only [BitVec.getElem_extractLsb', BitVec.getLsbD_append]
  simp [show ¬ 25 + i < 9 by omega, show ¬ 25 + i - 9 < 9 by omega, show ¬ 25 + i - 9 - 9 < 7 by omega,
    show 25 + i - 9 - 9 - 7 = i by omega, hi]

@[simp] theorem seqField_commandWord : seqField (commandWord op seq sel a b) = seq := by
  unfold seqField commandWord
  simp only [BitVec.getLsbD_append]
  simp

@[simp] theorem opField_commandWord : opField (commandWord op seq sel a b) = op := by
  unfold opField commandWord
  ext i hi
  simp only [BitVec.getElem_extractLsb', BitVec.getLsbD_append]
  simp [show ¬ 28 + i < 9 by omega, show ¬ 28 + i - 9 < 9 by omega, show ¬ 28 + i - 9 - 9 < 7 by omega,
    show ¬ 28 + i - 9 - 9 - 7 < 2 by omega, show ¬ 28 + i - 9 - 9 - 7 - 2 < 1 by omega,
    show 28 + i - 9 - 9 - 7 - 2 - 1 = i by omega, BitVec.getLsbD_eq_getElem hi]

/-- A word is the word built from its own fields, when its `ZERO` bits are zero. -/
theorem commandWord_of_fields (w : CmdWord) (h : zeroField w = 0#7) :
    commandWord (opField w) (seqField w) (selField w) (fieldA w) (fieldB w) = w := by
  have hz : ∀ i, i < 7 → w.getLsbD (18 + i) = false := by
    intro i hi
    have := congrArg (fun v : BitVec 7 => v.getLsbD i) h
    simpa [zeroField, BitVec.getLsbD_extractLsb', hi] using this
  unfold commandWord
  ext i hi
  rw [← BitVec.getLsbD_eq_getElem hi, ← BitVec.getLsbD_eq_getElem hi]
  simp only [BitVec.getLsbD_append]
  split_ifs with h1 h2 h3 h4 h5
  · simp [fieldB, h1]
  · simp [fieldA, h2, show 9 + (i - 9) = i by omega]
  · have := hz (i - 9 - 9) h3
    rw [show 18 + (i - 9 - 9) = i by omega] at this
    simp [this]
  · simp [selField, h4, show 25 + (i - 9 - 9 - 7) = i by omega]
  · have : i = 27 := by omega
    subst this
    simp [seqField]
  · simp [opField, show i - 9 - 9 - 7 - 2 - 1 < 4 by omega,
      show 28 + (i - 9 - 9 - 7 - 2 - 1) = i by omega]

end Sys2Proof
end

