-- ==== Sys2Proof/Laws/State.lean ====
section
/-! SUPPORT. One lemma per field per named update of the state, each true by unfolding. -/

namespace Sys2Proof.Machine

variable (c : Params) (s : State)

/-! ### `State.emit`: adds an event -/

@[simp] theorem State.emit_seq (e : Event) : (s.emit e).seq = s.seq := rfl
@[simp] theorem State.emit_acc (e : Event) : (s.emit e).acc = s.acc := rfl
@[simp] theorem State.emit_len (e : Event) : (s.emit e).len = s.len := rfl
@[simp] theorem State.emit_pos (e : Event) : (s.emit e).pos = s.pos := rfl
@[simp] theorem State.emit_txlen (e : Event) : (s.emit e).txlen = s.txlen := rfl
@[simp] theorem State.emit_rxcnt (e : Event) : (s.emit e).rxcnt = s.rxcnt := rfl
@[simp] theorem State.emit_reslen (e : Event) : (s.emit e).reslen = s.reslen := rfl
@[simp] theorem State.emit_result (e : Event) : (s.emit e).result = s.result := rfl
@[simp] theorem State.emit_status (e : Event) : (s.emit e).status = s.status := rfl
@[simp] theorem State.emit_phase (e : Event) : (s.emit e).phase = s.phase := rfl
@[simp] theorem State.emit_sfl (e : Event) : (s.emit e).sfl = s.sfl := rfl
@[simp] theorem State.emit_opa (e : Event) : (s.emit e).opa = s.opa := rfl
@[simp] theorem State.emit_opb (e : Event) : (s.emit e).opb = s.opb := rfl
@[simp] theorem State.emit_bsl (e : Event) : (s.emit e).bsl = s.bsl := rfl
@[simp] theorem State.emit_pend (e : Event) : (s.emit e).pend = s.pend := rfl
@[simp] theorem State.emit_mem (e : Event) : (s.emit e).mem = s.mem := rfl
@[simp] theorem State.emit_rxStream (e : Event) : (s.emit e).rxStream = s.rxStream := rfl
@[simp] theorem State.emit_events (e : Event) : (s.emit e).events = s.events ++ [e] := rfl
@[simp] theorem State.emit_hostLog (e : Event) : (s.emit e).hostLog = s.hostLog := rfl
@[simp] theorem State.emit_env (e : Event) : (s.emit e).env = s.env := rfl

/-! ### `State.arm`: opens a read call -/

@[simp] theorem State.arm_seq (k : Byte) : (s.arm k).seq = s.seq := rfl
@[simp] theorem State.arm_acc (k : Byte) : (s.arm k).acc = s.acc := rfl
@[simp] theorem State.arm_len (k : Byte) : (s.arm k).len = s.len := rfl
@[simp] theorem State.arm_pos (k : Byte) : (s.arm k).pos = s.pos := rfl
@[simp] theorem State.arm_txlen (k : Byte) : (s.arm k).txlen = s.txlen := rfl
@[simp] theorem State.arm_rxcnt (k : Byte) : (s.arm k).rxcnt = s.rxcnt := rfl
@[simp] theorem State.arm_reslen (k : Byte) : (s.arm k).reslen = s.reslen := rfl
@[simp] theorem State.arm_result (k : Byte) : (s.arm k).result = s.result := rfl
@[simp] theorem State.arm_status (k : Byte) : (s.arm k).status = s.status := rfl
@[simp] theorem State.arm_phase (k : Byte) : (s.arm k).phase = s.phase := rfl
@[simp] theorem State.arm_sfl (k : Byte) : (s.arm k).sfl = s.sfl := rfl
@[simp] theorem State.arm_opa (k : Byte) : (s.arm k).opa = s.opa := rfl
@[simp] theorem State.arm_opb (k : Byte) : (s.arm k).opb = s.opb := rfl
@[simp] theorem State.arm_bsl (k : Byte) : (s.arm k).bsl = s.bsl := rfl
@[simp] theorem State.arm_pend (k : Byte) : (s.arm k).pend = s.pend := rfl
@[simp] theorem State.arm_mem (k : Byte) : (s.arm k).mem = s.mem := rfl
@[simp] theorem State.arm_rxStream (k : Byte) : (s.arm k).rxStream = s.rxStream := rfl
@[simp] theorem State.arm_events (k : Byte) : (s.arm k).events = s.events ++ [.arm k] := rfl
@[simp] theorem State.arm_hostLog (k : Byte) : (s.arm k).hostLog = s.hostLog := rfl
@[simp] theorem State.arm_env (k : Byte) : (s.arm k).env = s.env := rfl

/-! ### `State.arrive`: takes bytes into the receive stream -/

@[simp] theorem State.arrive_seq (bs : List Byte) : (s.arrive bs).seq = s.seq := rfl
@[simp] theorem State.arrive_acc (bs : List Byte) : (s.arrive bs).acc = s.acc := rfl
@[simp] theorem State.arrive_len (bs : List Byte) : (s.arrive bs).len = s.len := rfl
@[simp] theorem State.arrive_pos (bs : List Byte) : (s.arrive bs).pos = s.pos := rfl
@[simp] theorem State.arrive_txlen (bs : List Byte) : (s.arrive bs).txlen = s.txlen := rfl
@[simp] theorem State.arrive_rxcnt (bs : List Byte) : (s.arrive bs).rxcnt = s.rxcnt := rfl
@[simp] theorem State.arrive_reslen (bs : List Byte) : (s.arrive bs).reslen = s.reslen := rfl
@[simp] theorem State.arrive_result (bs : List Byte) : (s.arrive bs).result = s.result := rfl
@[simp] theorem State.arrive_status (bs : List Byte) : (s.arrive bs).status = s.status := rfl
@[simp] theorem State.arrive_phase (bs : List Byte) : (s.arrive bs).phase = s.phase := rfl
@[simp] theorem State.arrive_sfl (bs : List Byte) : (s.arrive bs).sfl = s.sfl := rfl
@[simp] theorem State.arrive_opa (bs : List Byte) : (s.arrive bs).opa = s.opa := rfl
@[simp] theorem State.arrive_opb (bs : List Byte) : (s.arrive bs).opb = s.opb := rfl
@[simp] theorem State.arrive_bsl (bs : List Byte) : (s.arrive bs).bsl = s.bsl := rfl
@[simp] theorem State.arrive_pend (bs : List Byte) : (s.arrive bs).pend = s.pend := rfl
@[simp] theorem State.arrive_mem (bs : List Byte) : (s.arrive bs).mem = s.mem := rfl
@[simp] theorem State.arrive_rxStream (bs : List Byte) : (s.arrive bs).rxStream = s.rxStream ++ bs := rfl
@[simp] theorem State.arrive_events (bs : List Byte) : (s.arrive bs).events = s.events := rfl
@[simp] theorem State.arrive_hostLog (bs : List Byte) : (s.arrive bs).hostLog = s.hostLog := rfl
@[simp] theorem State.arrive_env (bs : List Byte) : (s.arrive bs).env = s.env := rfl

/-! ### `State.observe`: records what the host observes -/

@[simp] theorem State.observe_seq (o : HostObs) : (s.observe o).seq = s.seq := rfl
@[simp] theorem State.observe_acc (o : HostObs) : (s.observe o).acc = s.acc := rfl
@[simp] theorem State.observe_len (o : HostObs) : (s.observe o).len = s.len := rfl
@[simp] theorem State.observe_pos (o : HostObs) : (s.observe o).pos = s.pos := rfl
@[simp] theorem State.observe_txlen (o : HostObs) : (s.observe o).txlen = s.txlen := rfl
@[simp] theorem State.observe_rxcnt (o : HostObs) : (s.observe o).rxcnt = s.rxcnt := rfl
@[simp] theorem State.observe_reslen (o : HostObs) : (s.observe o).reslen = s.reslen := rfl
@[simp] theorem State.observe_result (o : HostObs) : (s.observe o).result = s.result := rfl
@[simp] theorem State.observe_status (o : HostObs) : (s.observe o).status = s.status := rfl
@[simp] theorem State.observe_phase (o : HostObs) : (s.observe o).phase = s.phase := rfl
@[simp] theorem State.observe_sfl (o : HostObs) : (s.observe o).sfl = s.sfl := rfl
@[simp] theorem State.observe_opa (o : HostObs) : (s.observe o).opa = s.opa := rfl
@[simp] theorem State.observe_opb (o : HostObs) : (s.observe o).opb = s.opb := rfl
@[simp] theorem State.observe_bsl (o : HostObs) : (s.observe o).bsl = s.bsl := rfl
@[simp] theorem State.observe_pend (o : HostObs) : (s.observe o).pend = s.pend := rfl
@[simp] theorem State.observe_mem (o : HostObs) : (s.observe o).mem = s.mem := rfl
@[simp] theorem State.observe_rxStream (o : HostObs) : (s.observe o).rxStream = s.rxStream := rfl
@[simp] theorem State.observe_events (o : HostObs) : (s.observe o).events = s.events := rfl
@[simp] theorem State.observe_hostLog (o : HostObs) : (s.observe o).hostLog = s.hostLog ++ [o] := rfl
@[simp] theorem State.observe_env (o : HostObs) : (s.observe o).env = s.env := rfl

/-! ### `State.finish`: ends a command -/

@[simp] theorem State.finish_seq (c : ResultCode) : (s.finish c).seq = s.seq := rfl
@[simp] theorem State.finish_acc (c : ResultCode) : (s.finish c).acc = s.acc := rfl
@[simp] theorem State.finish_len (c : ResultCode) : (s.finish c).len = s.len := rfl
@[simp] theorem State.finish_pos (c : ResultCode) : (s.finish c).pos = s.pos := rfl
@[simp] theorem State.finish_txlen (c : ResultCode) : (s.finish c).txlen = s.txlen := rfl
@[simp] theorem State.finish_rxcnt (c : ResultCode) : (s.finish c).rxcnt = s.rxcnt := rfl
@[simp] theorem State.finish_reslen (c : ResultCode) : (s.finish c).reslen = s.reslen := rfl
@[simp] theorem State.finish_result (c : ResultCode) : (s.finish c).result = c := rfl
@[simp] theorem State.finish_status (c : ResultCode) : (s.finish c).status = s.status.finished c := rfl
@[simp] theorem State.finish_phase (c : ResultCode) : (s.finish c).phase = .idle := rfl
@[simp] theorem State.finish_sfl (c : ResultCode) : (s.finish c).sfl = s.sfl := rfl
@[simp] theorem State.finish_opa (c : ResultCode) : (s.finish c).opa = s.opa := rfl
@[simp] theorem State.finish_opb (c : ResultCode) : (s.finish c).opb = s.opb := rfl
@[simp] theorem State.finish_bsl (c : ResultCode) : (s.finish c).bsl = s.bsl := rfl
@[simp] theorem State.finish_pend (c : ResultCode) : (s.finish c).pend = s.pend := rfl
@[simp] theorem State.finish_mem (c : ResultCode) : (s.finish c).mem = s.mem := rfl
@[simp] theorem State.finish_rxStream (c : ResultCode) : (s.finish c).rxStream = s.rxStream := rfl
@[simp] theorem State.finish_events (c : ResultCode) : (s.finish c).events = s.events ++ [.done c] := rfl
@[simp] theorem State.finish_hostLog (c : ResultCode) : (s.finish c).hostLog = s.hostLog := rfl
@[simp] theorem State.finish_env (c : ResultCode) : (s.finish c).env = s.env := rfl

/-! ### `State.refuse`: refuses a command word -/

@[simp] theorem State.refuse_seq (w : CmdWord) : (s.refuse w).seq = s.seq := rfl
@[simp] theorem State.refuse_acc (w : CmdWord) : (s.refuse w).acc = s.acc := rfl
@[simp] theorem State.refuse_len (w : CmdWord) : (s.refuse w).len = s.len := rfl
@[simp] theorem State.refuse_pos (w : CmdWord) : (s.refuse w).pos = s.pos := rfl
@[simp] theorem State.refuse_txlen (w : CmdWord) : (s.refuse w).txlen = s.txlen := rfl
@[simp] theorem State.refuse_rxcnt (w : CmdWord) : (s.refuse w).rxcnt = s.rxcnt := rfl
@[simp] theorem State.refuse_reslen (w : CmdWord) : (s.refuse w).reslen = s.reslen := rfl
@[simp] theorem State.refuse_result (w : CmdWord) : (s.refuse w).result = s.result := rfl
@[simp] theorem State.refuse_status (w : CmdWord) : (s.refuse w).status = s.status.refused := rfl
@[simp] theorem State.refuse_phase (w : CmdWord) : (s.refuse w).phase = s.phase := rfl
@[simp] theorem State.refuse_sfl (w : CmdWord) : (s.refuse w).sfl = s.sfl := rfl
@[simp] theorem State.refuse_opa (w : CmdWord) : (s.refuse w).opa = s.opa := rfl
@[simp] theorem State.refuse_opb (w : CmdWord) : (s.refuse w).opb = s.opb := rfl
@[simp] theorem State.refuse_bsl (w : CmdWord) : (s.refuse w).bsl = s.bsl := rfl
@[simp] theorem State.refuse_pend (w : CmdWord) : (s.refuse w).pend = s.pend := rfl
@[simp] theorem State.refuse_mem (w : CmdWord) : (s.refuse w).mem = s.mem := rfl
@[simp] theorem State.refuse_rxStream (w : CmdWord) : (s.refuse w).rxStream = s.rxStream := rfl
@[simp] theorem State.refuse_events (w : CmdWord) : (s.refuse w).events = s.events ++ [.cmderr w] := rfl
@[simp] theorem State.refuse_hostLog (w : CmdWord) : (s.refuse w).hostLog = s.hostLog := rfl
@[simp] theorem State.refuse_env (w : CmdWord) : (s.refuse w).env = s.env := rfl

/-! ### `State.accept`: accepts a command word -/

@[simp] theorem State.accept_seq (w : CmdWord) : (s.accept w).seq = s.seq := rfl
@[simp] theorem State.accept_acc (w : CmdWord) : (s.accept w).acc = s.acc := rfl
@[simp] theorem State.accept_len (w : CmdWord) : (s.accept w).len = s.len := rfl
@[simp] theorem State.accept_pos (w : CmdWord) : (s.accept w).pos = s.pos := rfl
@[simp] theorem State.accept_txlen (w : CmdWord) : (s.accept w).txlen = s.txlen := rfl
@[simp] theorem State.accept_rxcnt (w : CmdWord) : (s.accept w).rxcnt = s.rxcnt := rfl
@[simp] theorem State.accept_reslen (w : CmdWord) : (s.accept w).reslen = s.reslen := rfl
@[simp] theorem State.accept_result (w : CmdWord) : (s.accept w).result = s.result := rfl
@[simp] theorem State.accept_status (w : CmdWord) : (s.accept w).status = s.status.accepted := rfl
@[simp] theorem State.accept_phase (w : CmdWord) : (s.accept w).phase = s.phase := rfl
@[simp] theorem State.accept_sfl (w : CmdWord) : (s.accept w).sfl = seqField w := rfl
@[simp] theorem State.accept_opa (w : CmdWord) : (s.accept w).opa = fieldA w := rfl
@[simp] theorem State.accept_opb (w : CmdWord) : (s.accept w).opb = fieldB w := rfl
@[simp] theorem State.accept_bsl (w : CmdWord) : (s.accept w).bsl = selField w := rfl
@[simp] theorem State.accept_pend (w : CmdWord) : (s.accept w).pend = s.pend := rfl
@[simp] theorem State.accept_mem (w : CmdWord) : (s.accept w).mem = s.mem := rfl
@[simp] theorem State.accept_rxStream (w : CmdWord) : (s.accept w).rxStream = s.rxStream := rfl
@[simp] theorem State.accept_events (w : CmdWord) : (s.accept w).events = s.events ++ [.cmd w] := rfl
@[simp] theorem State.accept_hostLog (w : CmdWord) : (s.accept w).hostLog = s.hostLog := rfl
@[simp] theorem State.accept_env (w : CmdWord) : (s.accept w).env = s.env := rfl

/-! ### `State.startCsum`: starts `CSUM` -/

@[simp] theorem State.startCsum_seq : (s.startCsum c).seq = s.seq := rfl
@[simp] theorem State.startCsum_acc : (s.startCsum c).acc = c.csumSeed := rfl
@[simp] theorem State.startCsum_len : (s.startCsum c).len = s.len := rfl
@[simp] theorem State.startCsum_pos : (s.startCsum c).pos = s.opa := rfl
@[simp] theorem State.startCsum_txlen : (s.startCsum c).txlen = s.txlen := rfl
@[simp] theorem State.startCsum_rxcnt : (s.startCsum c).rxcnt = s.rxcnt := rfl
@[simp] theorem State.startCsum_reslen : (s.startCsum c).reslen = s.reslen := rfl
@[simp] theorem State.startCsum_result : (s.startCsum c).result = s.result := rfl
@[simp] theorem State.startCsum_status : (s.startCsum c).status = s.status := rfl
@[simp] theorem State.startCsum_phase : (s.startCsum c).phase = .cRun := rfl
@[simp] theorem State.startCsum_sfl : (s.startCsum c).sfl = s.sfl := rfl
@[simp] theorem State.startCsum_opa : (s.startCsum c).opa = s.opa := rfl
@[simp] theorem State.startCsum_opb : (s.startCsum c).opb = s.opb := rfl
@[simp] theorem State.startCsum_bsl : (s.startCsum c).bsl = s.bsl := rfl
@[simp] theorem State.startCsum_pend : (s.startCsum c).pend = s.pend := rfl
@[simp] theorem State.startCsum_mem : (s.startCsum c).mem = s.mem := rfl
@[simp] theorem State.startCsum_rxStream : (s.startCsum c).rxStream = s.rxStream := rfl
@[simp] theorem State.startCsum_events : (s.startCsum c).events = s.events := rfl
@[simp] theorem State.startCsum_hostLog : (s.startCsum c).hostLog = s.hostLog := rfl
@[simp] theorem State.startCsum_env : (s.startCsum c).env = s.env := rfl

/-! ### `State.startEnc`: starts `ENC` -/

@[simp] theorem State.startEnc_seq : (s.startEnc c).seq = s.seq := rfl
@[simp] theorem State.startEnc_acc : (s.startEnc c).acc = c.csumSeed := rfl
@[simp] theorem State.startEnc_len : (s.startEnc c).len = BitVec.ofNat 8 (lengthField s.opb.toNat s.sfl) := rfl
@[simp] theorem State.startEnc_pos : (s.startEnc c).pos = 0#9 := rfl
@[simp] theorem State.startEnc_txlen : (s.startEnc c).txlen = 0#9 := rfl
@[simp] theorem State.startEnc_rxcnt : (s.startEnc c).rxcnt = s.rxcnt := rfl
@[simp] theorem State.startEnc_reslen : (s.startEnc c).reslen = s.reslen := rfl
@[simp] theorem State.startEnc_result : (s.startEnc c).result = s.result := rfl
@[simp] theorem State.startEnc_status : (s.startEnc c).status = s.status := rfl
@[simp] theorem State.startEnc_phase : (s.startEnc c).phase = .eRun := rfl
@[simp] theorem State.startEnc_sfl : (s.startEnc c).sfl = s.sfl := rfl
@[simp] theorem State.startEnc_opa : (s.startEnc c).opa = s.opa := rfl
@[simp] theorem State.startEnc_opb : (s.startEnc c).opb = s.opb := rfl
@[simp] theorem State.startEnc_bsl : (s.startEnc c).bsl = s.bsl := rfl
@[simp] theorem State.startEnc_pend : (s.startEnc c).pend = s.pend := rfl
@[simp] theorem State.startEnc_mem : (s.startEnc c).mem = s.mem := rfl
@[simp] theorem State.startEnc_rxStream : (s.startEnc c).rxStream = s.rxStream := rfl
@[simp] theorem State.startEnc_events : (s.startEnc c).events = s.events := rfl
@[simp] theorem State.startEnc_hostLog : (s.startEnc c).hostLog = s.hostLog := rfl
@[simp] theorem State.startEnc_env : (s.startEnc c).env = s.env := rfl

/-! ### `State.startSend`: starts `SEND` -/

@[simp] theorem State.startSend_seq : (s.startSend).seq = s.seq := rfl
@[simp] theorem State.startSend_acc : (s.startSend).acc = s.acc := rfl
@[simp] theorem State.startSend_len : (s.startSend).len = s.len := rfl
@[simp] theorem State.startSend_pos : (s.startSend).pos = 0#9 := rfl
@[simp] theorem State.startSend_txlen : (s.startSend).txlen = s.txlen := rfl
@[simp] theorem State.startSend_rxcnt : (s.startSend).rxcnt = s.rxcnt := rfl
@[simp] theorem State.startSend_reslen : (s.startSend).reslen = s.reslen := rfl
@[simp] theorem State.startSend_result : (s.startSend).result = s.result := rfl
@[simp] theorem State.startSend_status : (s.startSend).status = s.status := rfl
@[simp] theorem State.startSend_phase : (s.startSend).phase = .tFrame := rfl
@[simp] theorem State.startSend_sfl : (s.startSend).sfl = s.sfl := rfl
@[simp] theorem State.startSend_opa : (s.startSend).opa = s.opa := rfl
@[simp] theorem State.startSend_opb : (s.startSend).opb = s.opb := rfl
@[simp] theorem State.startSend_bsl : (s.startSend).bsl = s.bsl := rfl
@[simp] theorem State.startSend_pend : (s.startSend).pend = s.pend := rfl
@[simp] theorem State.startSend_mem : (s.startSend).mem = s.mem := rfl
@[simp] theorem State.startSend_rxStream : (s.startSend).rxStream = s.rxStream := rfl
@[simp] theorem State.startSend_events : (s.startSend).events = s.events := rfl
@[simp] theorem State.startSend_hostLog : (s.startSend).hostLog = s.hostLog := rfl
@[simp] theorem State.startSend_env : (s.startSend).env = s.env := rfl

/-! ### `State.startControl`: starts `ACK` or `NACK` -/

@[simp] theorem State.startControl_seq (b : Byte) : (s.startControl b).seq = s.seq := rfl
@[simp] theorem State.startControl_acc (b : Byte) : (s.startControl b).acc = s.acc := rfl
@[simp] theorem State.startControl_len (b : Byte) : (s.startControl b).len = s.len := rfl
@[simp] theorem State.startControl_pos (b : Byte) : (s.startControl b).pos = 0#9 := rfl
@[simp] theorem State.startControl_txlen (b : Byte) : (s.startControl b).txlen = s.txlen := rfl
@[simp] theorem State.startControl_rxcnt (b : Byte) : (s.startControl b).rxcnt = s.rxcnt := rfl
@[simp] theorem State.startControl_reslen (b : Byte) : (s.startControl b).reslen = s.reslen := rfl
@[simp] theorem State.startControl_result (b : Byte) : (s.startControl b).result = s.result := rfl
@[simp] theorem State.startControl_status (b : Byte) : (s.startControl b).status = s.status := rfl
@[simp] theorem State.startControl_phase (b : Byte) : (s.startControl b).phase = .tCtrl := rfl
@[simp] theorem State.startControl_sfl (b : Byte) : (s.startControl b).sfl = s.sfl := rfl
@[simp] theorem State.startControl_opa (b : Byte) : (s.startControl b).opa = s.opa := rfl
@[simp] theorem State.startControl_opb (b : Byte) : (s.startControl b).opb = b.setWidth 9 := rfl
@[simp] theorem State.startControl_bsl (b : Byte) : (s.startControl b).bsl = s.bsl := rfl
@[simp] theorem State.startControl_pend (b : Byte) : (s.startControl b).pend = s.pend := rfl
@[simp] theorem State.startControl_mem (b : Byte) : (s.startControl b).mem = s.mem := rfl
@[simp] theorem State.startControl_rxStream (b : Byte) : (s.startControl b).rxStream = s.rxStream := rfl
@[simp] theorem State.startControl_events (b : Byte) : (s.startControl b).events = s.events := rfl
@[simp] theorem State.startControl_hostLog (b : Byte) : (s.startControl b).hostLog = s.hostLog := rfl
@[simp] theorem State.startControl_env (b : Byte) : (s.startControl b).env = s.env := rfl

/-! ### `State.startDec`: starts `DEC` -/

@[simp] theorem State.startDec_seq : (s.startDec c).seq = s.seq := rfl
@[simp] theorem State.startDec_acc : (s.startDec c).acc = c.csumSeed := rfl
@[simp] theorem State.startDec_len : (s.startDec c).len = 0#8 := rfl
@[simp] theorem State.startDec_pos : (s.startDec c).pos = 0#9 := rfl
@[simp] theorem State.startDec_txlen : (s.startDec c).txlen = s.txlen := rfl
@[simp] theorem State.startDec_rxcnt : (s.startDec c).rxcnt = 0#9 := rfl
@[simp] theorem State.startDec_reslen : (s.startDec c).reslen = 0#8 := rfl
@[simp] theorem State.startDec_result : (s.startDec c).result = s.result := rfl
@[simp] theorem State.startDec_status : (s.startDec c).status = s.status := rfl
@[simp] theorem State.startDec_phase : (s.startDec c).phase = .dHdr := rfl
@[simp] theorem State.startDec_sfl : (s.startDec c).sfl = s.sfl := rfl
@[simp] theorem State.startDec_opa : (s.startDec c).opa = s.opa := rfl
@[simp] theorem State.startDec_opb : (s.startDec c).opb = s.opb := rfl
@[simp] theorem State.startDec_bsl : (s.startDec c).bsl = s.bsl := rfl
@[simp] theorem State.startDec_pend : (s.startDec c).pend = .ok := rfl
@[simp] theorem State.startDec_mem : (s.startDec c).mem = s.mem := rfl
@[simp] theorem State.startDec_rxStream : (s.startDec c).rxStream = s.rxStream := rfl
@[simp] theorem State.startDec_events : (s.startDec c).events = s.events ++ [.arm 2#8] := rfl
@[simp] theorem State.startDec_hostLog : (s.startDec c).hostLog = s.hostLog := rfl
@[simp] theorem State.startDec_env : (s.startDec c).env = s.env := rfl

/-! ### `State.resetBlock`: resets the block -/

@[simp] theorem State.resetBlock_seq : (s.resetBlock c).seq = c.seqInit := rfl
@[simp] theorem State.resetBlock_acc : (s.resetBlock c).acc = c.csumSeed := rfl
@[simp] theorem State.resetBlock_len : (s.resetBlock c).len = 0#8 := rfl
@[simp] theorem State.resetBlock_pos : (s.resetBlock c).pos = 0#9 := rfl
@[simp] theorem State.resetBlock_txlen : (s.resetBlock c).txlen = 0#9 := rfl
@[simp] theorem State.resetBlock_rxcnt : (s.resetBlock c).rxcnt = 0#9 := rfl
@[simp] theorem State.resetBlock_reslen : (s.resetBlock c).reslen = 0#8 := rfl
@[simp] theorem State.resetBlock_result : (s.resetBlock c).result = .ok := rfl
@[simp] theorem State.resetBlock_status : (s.resetBlock c).status = ⟨false, false, false, false⟩ := rfl
@[simp] theorem State.resetBlock_phase : (s.resetBlock c).phase = .idle := rfl
@[simp] theorem State.resetBlock_sfl : (s.resetBlock c).sfl = false := rfl
@[simp] theorem State.resetBlock_opa : (s.resetBlock c).opa = 0#9 := rfl
@[simp] theorem State.resetBlock_opb : (s.resetBlock c).opb = 0#9 := rfl
@[simp] theorem State.resetBlock_bsl : (s.resetBlock c).bsl = 0#2 := rfl
@[simp] theorem State.resetBlock_pend : (s.resetBlock c).pend = .ok := rfl
@[simp] theorem State.resetBlock_mem : (s.resetBlock c).mem = [] := rfl
@[simp] theorem State.resetBlock_rxStream : (s.resetBlock c).rxStream = s.rxStream := rfl
@[simp] theorem State.resetBlock_events : (s.resetBlock c).events = s.events ++ [.reset] := rfl
@[simp] theorem State.resetBlock_hostLog : (s.resetBlock c).hostLog = s.hostLog := rfl
@[simp] theorem State.resetBlock_env : (s.resetBlock c).env = s.env := rfl

/-! ### `State.withFetchWord`: schedules an instruction -/

@[simp] theorem State.withFetchWord_seq (nbits w : Nat) : (s.withFetchWord nbits w).seq = s.seq := rfl
@[simp] theorem State.withFetchWord_acc (nbits w : Nat) : (s.withFetchWord nbits w).acc = s.acc := rfl
@[simp] theorem State.withFetchWord_len (nbits w : Nat) : (s.withFetchWord nbits w).len = s.len := rfl
@[simp] theorem State.withFetchWord_pos (nbits w : Nat) : (s.withFetchWord nbits w).pos = s.pos := rfl
@[simp] theorem State.withFetchWord_txlen (nbits w : Nat) : (s.withFetchWord nbits w).txlen = s.txlen := rfl
@[simp] theorem State.withFetchWord_rxcnt (nbits w : Nat) : (s.withFetchWord nbits w).rxcnt = s.rxcnt := rfl
@[simp] theorem State.withFetchWord_reslen (nbits w : Nat) : (s.withFetchWord nbits w).reslen = s.reslen := rfl
@[simp] theorem State.withFetchWord_result (nbits w : Nat) : (s.withFetchWord nbits w).result = s.result := rfl
@[simp] theorem State.withFetchWord_status (nbits w : Nat) : (s.withFetchWord nbits w).status = s.status := rfl
@[simp] theorem State.withFetchWord_phase (nbits w : Nat) : (s.withFetchWord nbits w).phase = s.phase := rfl
@[simp] theorem State.withFetchWord_sfl (nbits w : Nat) : (s.withFetchWord nbits w).sfl = s.sfl := rfl
@[simp] theorem State.withFetchWord_opa (nbits w : Nat) : (s.withFetchWord nbits w).opa = s.opa := rfl
@[simp] theorem State.withFetchWord_opb (nbits w : Nat) : (s.withFetchWord nbits w).opb = s.opb := rfl
@[simp] theorem State.withFetchWord_bsl (nbits w : Nat) : (s.withFetchWord nbits w).bsl = s.bsl := rfl
@[simp] theorem State.withFetchWord_pend (nbits w : Nat) : (s.withFetchWord nbits w).pend = s.pend := rfl
@[simp] theorem State.withFetchWord_mem (nbits w : Nat) : (s.withFetchWord nbits w).mem = s.mem := rfl
@[simp] theorem State.withFetchWord_rxStream (nbits w : Nat) : (s.withFetchWord nbits w).rxStream = s.rxStream := rfl
@[simp] theorem State.withFetchWord_events (nbits w : Nat) : (s.withFetchWord nbits w).events = s.events := rfl
@[simp] theorem State.withFetchWord_hostLog (nbits w : Nat) : (s.withFetchWord nbits w).hostLog = s.hostLog := rfl
@[simp] theorem State.withFetchWord_env (nbits w : Nat) : (s.withFetchWord nbits w).env = fetchMove nbits w :: s.env := rfl

/-! ### The flags -/

variable (st : Status)

@[simp] theorem Status.accepted_busy : st.accepted.busy = true := rfl
@[simp] theorem Status.accepted_done : st.accepted.done = false := rfl
@[simp] theorem Status.accepted_cmderr : st.accepted.cmderr = st.cmderr := rfl
@[simp] theorem Status.accepted_xerr : st.accepted.xerr = st.xerr := rfl
@[simp] theorem Status.refused_busy : st.refused.busy = st.busy := rfl
@[simp] theorem Status.refused_done : st.refused.done = st.done := rfl
@[simp] theorem Status.refused_cmderr : st.refused.cmderr = true := rfl
@[simp] theorem Status.refused_xerr : st.refused.xerr = st.xerr := rfl
@[simp] theorem Status.finished_busy (c : ResultCode) : (st.finished c).busy = false := rfl
@[simp] theorem Status.finished_done (c : ResultCode) : (st.finished c).done = true := rfl
@[simp] theorem Status.finished_cmderr (c : ResultCode) : (st.finished c).cmderr = st.cmderr := rfl
@[simp] theorem Status.finished_xerr (c : ResultCode) : (st.finished c).xerr = (st.xerr || c == .xfail) := rfl

end Sys2Proof.Machine
end

