-- ==== Sys2Proof/Laws/Memory.lean ====
section
/-! SUPPORT. The laws of the memory: read after write, the canonical form, and what the reading and writing operations can do. -/

namespace Sys2Proof.Machine

/-- Reading after a write gives the byte written at its address, and what stood there at every other. -/
@[simp] theorem memLookup_memStore (m : Memory) (a a' : Nat) (b : Byte) :
    memLookup (memStore m a b) a' = if a' = a then some b else memLookup m a' := by
  have here : ∀ rest : Memory, memLookup ((a, b) :: rest) a' = if a' = a then some b else memLookup rest a' := by
    intro rest
    by_cases h : a' = a
    · simp [memLookup, h]
    · simp [memLookup, h, Ne.symm h]
  induction m with
  | nil => simpa [memStore, memLookup] using here []
  | cons c rest ih =>
    by_cases h1 : a < c.1
    · simpa [memStore, h1] using here (c :: rest)
    by_cases h2 : a = c.1
    · have skip : a' ≠ a → memLookup (c :: rest) a' = memLookup rest a' := by
        intro h
        have : c.1 ≠ a' := by omega
        simp [memLookup, this]
      by_cases h : a' = a
      · simp [memStore, h2, memLookup, h]
      · have e : memStore (c :: rest) a b = (a, b) :: rest := by simp [memStore, h2]
        rw [e, here, if_neg h, if_neg h, skip h]
    · have e : memStore (c :: rest) a b = c :: memStore rest a b := by simp [memStore, h1, h2]
      rw [e]
      by_cases h : c.1 = a'
      · have : a' ≠ a := by omega
        simp [memLookup, h, this]
      · simp [memLookup, h, ih]

theorem risingFrom_mono {lo lo' : Nat} (m : Memory) (h : lo' ≤ lo) (hm : risingFrom lo m = true) :
    risingFrom lo' m = true := by
  cases m with
  | nil => rfl
  | cons c rest =>
    simp only [risingFrom, Bool.and_eq_true, decide_eq_true_eq] at hm ⊢
    exact ⟨by omega, hm.2⟩

theorem memStore_rising (m : Memory) (lo a : Nat) (b : Byte) (ha : lo ≤ a) (hm : risingFrom lo m = true) :
    risingFrom lo (memStore m a b) = true := by
  induction m generalizing lo with
  | nil => simpa [memStore, risingFrom] using ha
  | cons c rest ih =>
    simp only [risingFrom, Bool.and_eq_true, decide_eq_true_eq] at hm
    unfold memStore
    split_ifs with h1 h2
    · simp only [risingFrom, Bool.and_eq_true, decide_eq_true_eq]
      exact ⟨ha, by omega, hm.2⟩
    · simp only [risingFrom, Bool.and_eq_true, decide_eq_true_eq]
      exact ⟨ha, h2 ▸ hm.2⟩
    · simp only [risingFrom, Bool.and_eq_true, decide_eq_true_eq]
      exact ⟨hm.1, ih (c.1 + 1) (by omega) hm.2⟩

theorem memStore_all (m : Memory) (p : Host.Cell → Bool) (a : Nat) (b : Byte) (ha : p (a, b) = true) (hm : m.all p = true) :
    (memStore m a b).all p = true := by
  induction m with
  | nil => simpa [memStore] using ha
  | cons c rest ih =>
    simp only [List.all_cons, Bool.and_eq_true] at hm
    unfold memStore
    split_ifs
    · simp [ha, hm.1, hm.2]
    · simp [ha, hm.2]
    · simp [hm.1, ih hm.2]

@[simp] theorem Space.base_pay : Space.pay.base = 256 := rfl
@[simp] theorem Space.base_txbuf : Space.txbuf.base = 512 := rfl
@[simp] theorem Space.base_rxbuf : Space.rxbuf.base = 1024 := rfl
@[simp] theorem Space.size_pay (c : Params) : Space.pay.size c = c.maxPayload := rfl
@[simp] theorem Space.size_txbuf (c : Params) : Space.txbuf.size c = 257 := rfl
@[simp] theorem Space.size_rxbuf (c : Params) : Space.rxbuf.size c = 257 := rfl

variable {c : Params}

/-- A byte index inside a memory has a mapped address (20_memory.md R67). -/
theorem byteAt_base (sp : Space) (i : Nat) (h : i < sp.size c) : byteAt (sp.base + i) c = some (sp, i) := by
  have := c.maxPayload_le
  cases sp <;> simp only [Space.size_pay, Space.size_txbuf, Space.size_rxbuf] at h <;> unfold byteAt
  · rw [if_pos (by simp; omega), Nat.add_sub_cancel_left]
  · rw [if_neg (by simp; omega), if_pos (by simp; omega), Nat.add_sub_cancel_left]
  · rw [if_neg (by simp; omega), if_neg (by simp; omega), if_pos (by simp; omega), Nat.add_sub_cancel_left]

/-- The three memories do not overlap. -/
theorem base_injective {sp sp' : Space} {i i' : Nat} (h : i < sp.size c) (h' : i' < sp'.size c)
    (e : sp.base + i = sp'.base + i') : sp = sp' ∧ i = i' := by
  have := byteAt_base sp i h
  rw [e, byteAt_base sp' i' h'] at this
  simpa [eq_comm] using this

/-- A write of a mapped byte keeps the canonical form. -/
theorem memStore_wf {m : Memory} {sp : Space} {i : Nat} (b : Byte) (h : i < sp.size c) (hm : m.wf c = true) :
    Memory.wf (memStore m (sp.base + i) b) c = true := by
  simp only [Memory.wf, Bool.and_eq_true] at hm ⊢
  exact ⟨memStore_rising m 0 _ b (Nat.zero_le _) hm.1, memStore_all m _ _ b (by simp [byteAt_base sp i h]) hm.2⟩

/-- The empty memory has the canonical form. -/
theorem nil_wf : Memory.wf [] c = true := rfl

/-- Reading a byte after a write. -/
theorem byte?_memStore (s : State) (sp sp' : Space) (i i' : Nat) (b : Byte) (h : i < sp.size c) :
    State.byte? { s with mem := memStore s.mem (sp.base + i) b } sp' i' c =
      if sp' = sp ∧ i' = i then some b else s.byte? sp' i' c := by
  unfold State.byte?
  by_cases h' : i' < sp'.size c
  · by_cases e : sp' = sp ∧ i' = i
    · obtain ⟨rfl, rfl⟩ := e
      simp [h']
    · have : sp'.base + i' ≠ sp.base + i := fun e' => e (base_injective h' h e')
      simp [h', e, this]
  · have : ¬ (sp' = sp ∧ i' = i) := by
      rintro ⟨rfl, rfl⟩
      exact h' h
    simp [h', this]

/-- The byte read is the byte of the memory alone. -/
theorem byte?_congr {s t : State} (h : t.mem = s.mem) (sp : Space) (i : Nat) : t.byte? sp i c = s.byte? sp i c := by
  simp [State.byte?, h]

theorem bytes?_congr {s t : State} (sp : Space) (i n : Nat)
    (h : ∀ k, i ≤ k → k < i + n → t.byte? sp k c = s.byte? sp k c) : t.bytes? sp i n c = s.bytes? sp i n c := by
  induction n generalizing i with
  | zero => rfl
  | succ n ih =>
    simp only [State.bytes?]
    rw [h i (by omega) (by omega), ih (i + 1) fun k hk hk' => h k (by omega) (by omega)]

/-- What reading a byte can do. -/
theorem withByte_next {s t : State} {sp : Space} {i : Nat} {k : Byte → Result} (h : s.withByte sp i k c = .next t) :
    ∃ b, s.byte? sp i c = some b ∧ k b = .next t := by
  unfold State.withByte at h
  split_ifs at h with hi
  split at h
  · next b hb => exact ⟨b, by simp [State.byte?, hi, hb], h⟩
  · cases h

/-- A byte that has a value is read. -/
theorem withByte_of_byte? {s : State} {sp : Space} {i : Nat} {b : Byte} (k : Byte → Result) (h : s.byte? sp i c = some b) :
    s.withByte sp i k c = k b := by
  unfold State.byte? at h
  split_ifs at h with hi
  simp [State.withByte, hi, h]

/-- A byte of a memory that has no value stops the machine. -/
theorem withByte_unwritten {s : State} {sp : Space} {i : Nat} (k : Byte → Result) (hi : i < sp.size c)
    (h : s.byte? sp i c = none) : s.withByte sp i k c = .fault .unwrittenByte := by
  simp only [State.byte?, hi, if_true] at h
  simp [State.withByte, hi, h]

/-- What writing a byte can do. -/
theorem withStore_next {s t : State} {sp : Space} {i : Nat} {b : Byte} {k : State → Result}
    (h : s.withStore sp i b k c = .next t) :
    i < sp.size c ∧ k { s with mem := memStore s.mem (sp.base + i) b } = .next t := by
  unfold State.withStore at h
  split_ifs at h with hi
  exact ⟨hi, h⟩

/-- A write inside a memory is made. -/
theorem withStore_of_lt {s : State} {sp : Space} {i : Nat} (b : Byte) (k : State → Result) (hi : i < sp.size c) :
    s.withStore sp i b k c = k { s with mem := memStore s.mem (sp.base + i) b } := by
  simp [State.withStore, hi]

/-- The bytes of a range, one by one. -/
theorem bytes?_eq_some_iff {s : State} {sp : Space} {i n : Nat} {bs : List Byte} :
    s.bytes? sp i n c = some bs ↔ bs.length = n ∧ ∀ k (h : k < bs.length), s.byte? sp (i + k) c = some bs[k] := by
  induction n generalizing i bs with
  | zero =>
    simp only [State.bytes?, Option.some.injEq]
    constructor
    · rintro rfl
      simp
    · rintro ⟨h, _⟩
      exact (List.length_eq_zero_iff.mp h).symm
  | succ n ih =>
    cases bs with
    | nil =>
      simp only [State.bytes?, List.length_nil]
      constructor
      · intro h
        split at h <;> simp at h
      · rintro ⟨h, _⟩
        omega
    | cons d ds =>
      simp only [State.bytes?]
      constructor
      · intro h
        split at h
        · next b bs hb hbs =>
          simp only [Option.some.injEq, List.cons.injEq] at h
          obtain ⟨rfl, rfl⟩ := h
          obtain ⟨hl, hk⟩ := ih.mp hbs
          refine ⟨by simp [hl], fun k hk' => ?_⟩
          cases k with
          | zero => simpa using hb
          | succ k =>
            have := hk k (by simpa using hk')
            simpa [Nat.add_assoc, Nat.add_comm 1 k] using this
        · cases h
      · rintro ⟨hl, hk⟩
        have h0 : s.byte? sp i c = some d := hk 0 (Nat.succ_pos _)
        have h1 : s.bytes? sp (i + 1) n c = some ds := by
          refine ih.mpr ⟨by simpa using hl, fun k hk' => ?_⟩
          have := hk (k + 1) (by simpa using hk')
          simpa [Nat.add_assoc, Nat.add_comm 1 k] using this
        rw [h0, h1]

end Sys2Proof.Machine
end

