-- ==== Sys2Proof/Laws/Ops.lean ====
section
/-! SUPPORT. What each shared operation of the step level can do, said once. -/

namespace Sys2Proof.Machine

variable {c : Params}

/-! ### The checksum generator -/

theorem foldBytes_append (acc : Byte) (xs ys : List Byte) :
    foldBytes acc (xs ++ ys) = foldBytes (foldBytes acc xs) ys := by
  simp [foldBytes]

/-- The accumulator's start can be taken out of the fold. -/
theorem foldBytes_start (acc : Byte) (xs : List Byte) : foldBytes acc xs = acc ^^^ foldBytes 0#8 xs := by
  induction xs generalizing acc with
  | nil => simp [foldBytes]
  | cons x xs ih =>
    have h1 : foldBytes acc (x :: xs) = foldBytes (acc ^^^ x) xs := rfl
    have h2 : foldBytes 0#8 (x :: xs) = foldBytes (0#8 ^^^ x) xs := rfl
    rw [h1, h2, ih, ih (0#8 ^^^ x), BitVec.zero_xor, BitVec.xor_assoc]

theorem checksum_append_single (xs : List Byte) (b : Byte) : checksum (xs ++ [b]) c = checksum xs c ^^^ b := by
  simp [checksum, foldBytes]

/-- One step in `C_RUN`: a byte summed, or the end. -/
theorem csumStep_next {s t : State} (h : csumStep s c = .next t) :
    (∃ sp b, s.pos.toNat < s.opa.toNat + s.opb.toNat ∧ selected s.bsl = some sp ∧ s.byte? sp s.pos.toNat c = some b ∧
      t = { s with acc := s.acc ^^^ b, pos := s.pos + 1#9 }) ∨
    (s.opa.toNat + s.opb.toNat ≤ s.pos.toNat ∧ t = s.finish .ok) := by
  unfold csumStep at h
  split_ifs at h with hp
  · split at h
    · next sp hsp =>
      obtain ⟨b, hb, ht⟩ := withByte_next h
      exact .inl ⟨sp, b, hp, hsp, hb, by simpa using ht.symm⟩
    · cases h
  · exact .inr ⟨by omega, by simpa using h.symm⟩

/-! ### The serializer -/

/-- The state after a covered field's byte. -/
def coveredPut (s : State) (v : Byte) : State :=
  { s with mem := memStore s.mem (Space.txbuf.base + s.pos.toNat) v, acc := s.acc ^^^ v, pos := s.pos + 1#9 }

/-- The state after the start marker. -/
def sofPut (s : State) (c : Params := Config.hw) : State :=
  { s with mem := memStore s.mem (Space.txbuf.base + s.pos.toNat) c.sof, pos := s.pos + 1#9 }

/-- The state after the sequence byte. -/
def seqPut (s : State) : State :=
  { s with
    mem := memStore s.mem (Space.txbuf.base + s.pos.toNat) s.seq
    acc := s.acc ^^^ s.seq
    pos := s.pos + 1#9
    seq := s.seq + 1#8 }

/-- The state after the checksum byte, at the end of the command. -/
def csumPut (s : State) : State :=
  { s with
    mem := memStore s.mem (Space.txbuf.base + s.pos.toNat) s.acc
    pos := BitVec.ofNat 9 (s.len.toNat + 2)
    txlen := BitVec.ofNat 9 (s.len.toNat + 2) }.finish .ok

theorem putCovered_next {s t : State} {v : Byte} (h : putCovered s v c = .next t) :
    s.pos.toNat < Space.txbuf.size c ∧ t = coveredPut s v := by
  obtain ⟨hp, ht⟩ := withStore_next h
  exact ⟨hp, by simpa [coveredPut] using ht.symm⟩

/-- One step in `E_RUN`, by the field of the byte. -/
theorem encStep_next {s t : State} (h : encStep s c = .next t) :
    s.pos.toNat < Space.txbuf.size c ∧
    ((fieldOut s.pos.toNat s.opb.toNat s.sfl = .sof ∧ t = sofPut s c) ∨
     (fieldOut s.pos.toNat s.opb.toNat s.sfl = .len ∧ t = coveredPut s s.len) ∨
     (fieldOut s.pos.toNat s.opb.toNat s.sfl = .type ∧ t = coveredPut s c.typeReq) ∨
     (fieldOut s.pos.toNat s.opb.toNat s.sfl = .pay ∧
       ∃ v, s.byte? .pay (s.pos.toNat - 3) c = some v ∧ t = coveredPut s v) ∨
     (fieldOut s.pos.toNat s.opb.toNat s.sfl = .seq ∧ t = seqPut s) ∨
     (fieldOut s.pos.toNat s.opb.toNat s.sfl = .csum ∧ t = csumPut s)) := by
  unfold encStep at h
  split at h
  · next hf =>
    obtain ⟨hp, ht⟩ := withStore_next h
    exact ⟨hp, .inl ⟨hf, by simpa [sofPut] using ht.symm⟩⟩
  · next hf =>
    obtain ⟨hp, ht⟩ := putCovered_next h
    exact ⟨hp, .inr (.inl ⟨hf, ht⟩)⟩
  · next hf =>
    obtain ⟨hp, ht⟩ := putCovered_next h
    exact ⟨hp, .inr (.inr (.inl ⟨hf, ht⟩))⟩
  · next hf =>
    obtain ⟨v, hv, h'⟩ := withByte_next h
    obtain ⟨hp, ht⟩ := putCovered_next h'
    exact ⟨hp, .inr (.inr (.inr (.inl ⟨hf, v, hv, ht⟩)))⟩
  · next hf =>
    obtain ⟨hp, ht⟩ := withStore_next h
    exact ⟨hp, .inr (.inr (.inr (.inr (.inl ⟨hf, by simpa [seqPut] using ht.symm⟩))))⟩
  · next hf =>
    obtain ⟨hp, ht⟩ := withStore_next h
    exact ⟨hp, .inr (.inr (.inr (.inr (.inr ⟨hf, by simpa [csumPut] using ht.symm⟩))))⟩
  · cases h
  · cases h

/-! ### The transmitter -/

/-- The three things that can happen to a byte on offer. -/
theorem txPut_cases (sig : TxSignals) (b : Byte) (s : State) (onSent : State → State) :
    (writeAnswer sig = .taken ∧ txPut sig b s onSent = onSent (s.emit (.tx b))) ∨
    (writeAnswer sig = .error ∧ txPut sig b s onSent = (s.emit .txerr).finish .xfail) ∨
    (writeAnswer sig = .nothing ∧ txPut sig b s onSent = s) := by
  unfold txPut
  cases writeAnswer sig <;> simp

/-- The state after a byte of the frame has been taken: the frame goes on, or the command ends. -/
theorem frameByteSent_cases (s : State) :
    (s.pos + 1#9 = s.txlen ∧ frameByteSent s = { s with pos := s.pos + 1#9 }.finish .ok) ∨
    (s.pos + 1#9 ≠ s.txlen ∧ frameByteSent s = { s with pos := s.pos + 1#9 }) := by
  unfold frameByteSent
  by_cases h : s.pos + 1#9 = s.txlen <;> simp [h]

/-- The write side's answer, by phase. -/
theorem txAnswer_next {sig : TxSignals} {s t : State} (h : txAnswer sig s c = .next t) :
    (s.phase = .tFrame ∧ ∃ b, s.byte? .txbuf s.pos.toNat c = some b ∧ t = txPut sig b s frameByteSent) ∨
    (s.phase = .tCtrl ∧ t = txPut sig (s.opb.setWidth 8) s controlByteSent) ∨
    (s.phase = .dAck ∧ t = txPut sig c.ackByte s fun s' => s'.finish .ok) ∨
    (s.phase = .dNack ∧ t = txPut sig c.nackByte s fun s' => s'.finish s'.pend) ∨
    (s.phase ≠ .tFrame ∧ s.phase ≠ .tCtrl ∧ s.phase ≠ .dAck ∧ s.phase ≠ .dNack ∧ t = s) := by
  unfold txAnswer at h
  split at h <;> rename_i hp
  · obtain ⟨b, hb, ht⟩ := withByte_next h
    exact .inl ⟨hp, b, hb, by simpa using ht.symm⟩
  · exact .inr (.inl ⟨hp, by simpa [controlAnswer] using h.symm⟩)
  · exact .inr (.inr (.inl ⟨hp, by simpa [ackReplyAnswer] using h.symm⟩))
  · exact .inr (.inr (.inr (.inl ⟨hp, by simpa [nackReplyAnswer] using h.symm⟩)))
  all_goals exact .inr (.inr (.inr (.inr ⟨by simp [hp], by simp [hp], by simp [hp], by simp [hp], by simpa using h.symm⟩)))

/-! ### The deserializer -/

/-- The state after a byte has been taken and stored. -/
def received (s : State) (b : Byte) : State :=
  { s with
    mem := memStore s.mem (Space.rxbuf.base + s.pos.toNat) b
    pos := s.pos + 1#9
    rxcnt := s.rxcnt + 1#9
    events := s.events ++ [.rx b] }

theorem storeReceived_next {s t : State} {b : Byte} {k : State → Result} (h : storeReceived s b k c = .next t) :
    s.pos.toNat < Space.rxbuf.size c ∧ k (received s b) = .next t := withStore_next h

theorem storeReceived_of_lt {s : State} (b : Byte) (k : State → Result) (h : s.pos.toNat < Space.rxbuf.size c) :
    storeReceived s b k c = k (received s b) := withStore_of_lt b _ h

/-- The read side's answers. -/
theorem readAnswer_byte {sig : RxSignals} {stream rest : List Byte} {b : Byte} (h : readAnswer sig stream = .byte b rest) :
    stream = b :: rest ∧ sig.err = false ∧ sig.valid = true := by
  obtain ⟨valid, timeout, err⟩ := sig
  cases err <;> cases valid <;> cases timeout <;> cases stream <;> simp_all [readAnswer]

/-- What the end of the header can lead to. -/
theorem headerComplete_next {s t : State} (h : headerComplete s c = .next t) :
    ∃ first, s.byte? .rxbuf 0 c = some first ∧
      ((first ≠ c.sof ∧ t = s.finish .invalidSof) ∨
       (first = c.sof ∧ s.len = 0#8 ∧ t = { s with pend := .invalidCrc, phase := .dNack }) ∨
       (first = c.sof ∧ s.len ≠ 0#8 ∧ t = { s with phase := .dBody }.arm s.len)) := by
  obtain ⟨first, hf, h'⟩ := withByte_next h
  refine ⟨first, hf, ?_⟩
  split_ifs at h' with h1 h2
  · exact .inl ⟨h1, by simpa using h'.symm⟩
  · exact .inr (.inl ⟨by simpa using h1, h2, by simpa using h'.symm⟩)
  · exact .inr (.inr ⟨by simpa using h1, h2, by simpa using h'.symm⟩)

/-- What a header byte can do. -/
theorem headerByte_next {s t : State} {b : Byte} (h : headerByte b s c = .next t) :
    (s.pos = 0#9 ∧ t = received s b) ∨
    (s.pos = 1#9 ∧ headerComplete { received s b with len := b, acc := s.acc ^^^ b } c = .next t) := by
  unfold headerByte at h
  split_ifs at h with h0 h1
  · exact .inl ⟨h0, by simpa using (storeReceived_next h).2.symm⟩
  · exact .inr ⟨h1, (storeReceived_next h).2⟩

/-- What a body byte can do. -/
theorem bodyByte_next {s t : State} {b : Byte} (h : bodyByte b s c = .next t) :
    s.pos.toNat < Space.rxbuf.size c ∧
    ((s.pos.toNat ≤ s.len.toNat ∧ t = { received s b with acc := s.acc ^^^ b }) ∨
     (s.pos.toNat = s.len.toNat + 1 ∧ s.acc = b ∧ t = { received s b with reslen := s.len - 1#8, phase := .dAck }) ∨
     (s.pos.toNat = s.len.toNat + 1 ∧ s.acc ≠ b ∧ t = { received s b with pend := .invalidCrc, phase := .dNack })) := by
  unfold bodyByte at h
  split_ifs at h with h0 h1
  · obtain ⟨hp, ht⟩ := storeReceived_next h
    exact ⟨hp, .inl ⟨h0, by simpa [received] using ht.symm⟩⟩
  · obtain ⟨hp, ht⟩ := storeReceived_next h
    refine ⟨hp, .inr ?_⟩
    by_cases hb : s.acc = b
    · exact .inl ⟨h1, hb, by simpa [bodyComplete, received, hb] using ht.symm⟩
    · exact .inr ⟨h1, hb, by simpa [bodyComplete, received, hb] using ht.symm⟩

/-- How an open read call can go on. -/
theorem readCall_next {sig : RxSignals} {s t : State} {onByte : Byte → State → Result} {onTimeout : State → State}
    (h : readCall sig s onByte onTimeout = .next t) :
    (∃ b rest, s.rxStream = b :: rest ∧ onByte b { s with rxStream := rest } = .next t) ∨
    t = onTimeout s ∨ t = readFailed s ∨ t = s := by
  unfold readCall at h
  split at h
  · next b rest hr => exact .inl ⟨b, rest, (readAnswer_byte hr).1, h⟩
  · exact .inr (.inl (by simpa using h.symm))
  · exact .inr (.inr (.inl (by simpa using h.symm)))
  · exact .inr (.inr (.inr (by simpa using h.symm)))

/-- The read side's answer, by phase. -/
theorem rxAnswer_next {sig : RxSignals} {s t : State} (h : rxAnswer sig s c = .next t) :
    t = s ∨
    ((s.phase = .dHdr ∨ s.phase = .dBody) ∧ t = readFailed s) ∨
    (s.phase = .dHdr ∧ t = headerTimeout s) ∨
    (s.phase = .dBody ∧ t = bodyTimeout s) ∨
    (s.phase = .dHdr ∧ ∃ b rest, s.rxStream = b :: rest ∧ headerByte b { s with rxStream := rest } c = .next t) ∨
    (s.phase = .dBody ∧ ∃ b rest, s.rxStream = b :: rest ∧ bodyByte b { s with rxStream := rest } c = .next t) := by
  unfold rxAnswer at h
  split at h <;> rename_i hp
  · rcases readCall_next h with hb | ht | hf | hs
    · exact .inr (.inr (.inr (.inr (.inl ⟨hp, hb⟩))))
    · exact .inr (.inr (.inl ⟨hp, ht⟩))
    · exact .inr (.inl ⟨.inl hp, hf⟩)
    · exact .inl hs
  · rcases readCall_next h with hb | ht | hf | hs
    · exact .inr (.inr (.inr (.inr (.inr ⟨hp, hb⟩))))
    · exact .inr (.inr (.inr (.inl ⟨hp, ht⟩)))
    · exact .inr (.inl ⟨.inr hp, hf⟩)
    · exact .inl hs
  all_goals exact .inl (by simpa using h.symm)

/-! ### The host port -/

/-- What a host read can do: it adds one observation. -/
theorem hostRead_next {a : HostAddr} {s t : State} (h : hostRead a s c = .next t) : ∃ o, t = s.observe o := by
  unfold hostRead at h
  split at h
  · split_ifs at h
    exact ⟨_, by simpa using h.symm⟩
  · split_ifs at h
    obtain ⟨b, _, hb⟩ := withByte_next h
    exact ⟨_, by simpa using hb.symm⟩
  · exact ⟨_, by simpa using h.symm⟩

/-- What a host write can do: a byte of `PAY` while idle, or an observation alone. -/
theorem hostWrite_next {a : HostAddr} {d : HostData} {s t : State} (h : hostWrite a d s c = .next t) :
    (∃ j, byteAt a.toNat c = some (.pay, j) ∧ j < Space.pay.size c ∧ s.status.busy = false ∧
      t = { s with mem := memStore s.mem (Space.pay.base + j) (d.setWidth 8) }.observe (.wrote a)) ∨
    t = s.observe (.accessErr a) := by
  unfold hostWrite at h
  split at h
  · next j hj =>
    split_ifs at h with hb
    · exact .inr (by simpa using h.symm)
    · obtain ⟨hi, ht⟩ := withStore_next h
      exact .inl ⟨j, hj, hi, by simpa using hb, by simpa using ht.symm⟩
  all_goals exact .inr (by simpa using h.symm)

/-- What an ACK wait can do: it may take one byte, and may end. -/
theorem awaitAck_next {sig : RxSignals} {s t : State} (h : awaitAck sig s c = .next t) :
    s.status.busy = false ∧
    ((∃ b rest, s.rxStream = b :: rest ∧ t = { s with rxStream := rest }.observe (.ackWait (ackOutcome b c))) ∨
     t = s.observe (.ackWait .noack) ∨ t = s.observe (.ackWait .xfail) ∨ t = s) := by
  unfold awaitAck at h
  split_ifs at h with hb
  refine ⟨by simpa using hb, ?_⟩
  split at h
  · next b rest hr => exact .inl ⟨b, rest, (readAnswer_byte hr).1, by simpa using h.symm⟩
  · exact .inr (.inl (by simpa using h.symm))
  · exact .inr (.inr (.inl (by simpa using h.symm)))
  · exact .inr (.inr (.inr (by simpa using h.symm)))

end Sys2Proof.Machine
end

