-- ==== Sys2Proof/Laws/Run.lean ====
section
/-! SUPPORT. What one transition, the run of a command, an instruction and a step can do, said once, and the induction along a run. -/

namespace Sys2Proof.Machine

/-- Going on from a result. -/
theorem andThen_next {r : Result} {k : State → Result} {t : State} (h : andThen r k = .next t) :
    ∃ s, r = .next s ∧ k s = .next t := by
  cases r with
  | next s => exact ⟨s, rfl, h⟩
  | fault f => cases h
  | refused e => cases h

@[simp] theorem andThen_of_next (s : State) (k : State → Result) : andThen (.next s) k = k s := rfl

variable {c : Params}

/-- The block's own step. -/
theorem selfStep_next {s t : State} (h : selfStep s c = .next t) :
    (s.phase = .cRun ∧ csumStep s c = .next t) ∨ (s.phase = .eRun ∧ encStep s c = .next t) ∨
    (s.internal = false ∧ t = s) := by
  unfold selfStep at h
  split at h <;> rename_i hp
  · exact .inl ⟨hp, h⟩
  · exact .inr (.inl ⟨hp, h⟩)
  all_goals exact .inr (.inr ⟨by simp [State.internal, hp], by simpa using h.symm⟩)

/-- What one transition of the step level does to `s`, the moves aside: a byte step, an answer of the transport, an arrival, or
nothing. -/
def Transition (c : Params) (s t : State) : Prop :=
  (s.phase = .cRun ∧ ∃ env, csumStep { s with env := env } c = .next t) ∨
  (s.phase = .eRun ∧ ∃ env, encStep { s with env := env } c = .next t) ∨
  (∃ env, t = { s with env := env }) ∨
  (∃ sig env, txAnswer sig { s with env := env } c = .next t) ∨
  (∃ sig env, rxAnswer sig { s with env := env } c = .next t) ∨
  (∃ bytes env, t = { s with env := env }.arrive bytes)

theorem selfStep_transition {s t : State} {env : List Move} (h : selfStep { s with env := env } c = .next t) :
    Transition c s t := by
  rcases selfStep_next h with ⟨hp, hc⟩ | ⟨hp, hc⟩ | ⟨_, ht⟩
  · exact .inl ⟨hp, env, hc⟩
  · exact .inr (.inl ⟨hp, env, hc⟩)
  · exact .inr (.inr (.inl ⟨env, ht⟩))

theorem otherMove_transition {m : Move} {s t : State} {env : List Move} (h : otherMove m { s with env := env } c = .next t) :
    Transition c s t := by
  cases m with
  | run => exact selfStep_transition h
  | tx sig => exact .inr (.inr (.inr (.inl ⟨sig, env, h⟩)))
  | rx sig => exact .inr (.inr (.inr (.inr (.inl ⟨sig, env, h⟩))))
  | wire bytes => exact .inr (.inr (.inr (.inr (.inr ⟨bytes, env, (Host.Outcome.next.inj h).symm⟩))))
  | wait => exact .inr (.inr (.inl ⟨env, (Host.Outcome.next.inj h).symm⟩))
  | present w => exact .inr (.inr (.inl ⟨env, (Host.Outcome.next.inj h).symm⟩))
  | hread a => exact .inr (.inr (.inl ⟨env, (Host.Outcome.next.inj h).symm⟩))
  | hwrite a d => exact .inr (.inr (.inl ⟨env, (Host.Outcome.next.inj h).symm⟩))
  | ackWait sig => exact .inr (.inr (.inl ⟨env, (Host.Outcome.next.inj h).symm⟩))
  | reset => exact .inr (.inr (.inl ⟨env, (Host.Outcome.next.inj h).symm⟩))

theorem waitMove_transition {rest : List Move} {s t : State} (h : waitMove rest s c = .next t) : Transition c s t := by
  unfold waitMove at h
  split_ifs at h
  · exact .inr (.inr (.inl ⟨rest, (Host.Outcome.next.inj h).symm⟩))
  · split at h
    · exact .inr (.inr (.inl ⟨s.env, (Host.Outcome.next.inj h).symm⟩))
    · split_ifs at h
      · exact .inr (.inr (.inl ⟨s.env, (Host.Outcome.next.inj h).symm⟩))
      · exact otherMove_transition h

/-- One transition, whatever the move. -/
theorem tick_next {s t : State} (h : tick s c = .next t) : Transition c s t := by
  unfold tick at h
  split_ifs at h
  · exact selfStep_transition (env := s.env) h
  · split at h
    · exact .inr (.inr (.inl ⟨s.env, (Host.Outcome.next.inj h).symm⟩))
    · exact waitMove_transition h
    · split_ifs at h
      · exact .inr (.inr (.inl ⟨s.env, (Host.Outcome.next.inj h).symm⟩))
      · exact otherMove_transition h

/-! ### `WAIT` (44_host_access.md R248) -/

/-- `WAIT` ends when `DONE` is 1, with no effect on the block. -/
theorem waitMove_of_done {rest : List Move} {s : State} (h : s.status.done = true) :
    waitMove rest s c = .next { s with env := rest } := by
  simp [waitMove, h]

/-- While `DONE` is 0 the host's next action is held back. -/
theorem waitMove_holds_host {m : Move} {later : List Move} {s : State} (h : s.status.done = false) (hm : m.isHost = true) :
    waitMove (m :: later) s c = .next s := by
  simp [waitMove, h, hm]

/-- While `DONE` is 0 every other move is made, and the host waits on. -/
theorem waitMove_of_other {m : Move} {later : List Move} {s : State} (h : s.status.done = false) (hm : m.isHost = false) :
    waitMove (m :: later) s c = otherMove m { s with env := .wait :: later } c := by
  simp [waitMove, h, hm]

/-- What every transition keeps, the run of a command keeps. -/
theorem drive_keeps {P : State → Prop} (hP : ∀ s t, P s → s.phase ≠ .idle → tick s c = .next t → P t) :
    ∀ (fuel : Nat) {s t : State}, P s → drive fuel s c = .next t → P t
  | 0, s, t, hs, h => by
    have : s = t := by simpa [drive] using h
    exact this ▸ hs
  | fuel + 1, s, t, hs, h => by
    unfold drive at h
    split_ifs at h with hg
    · obtain ⟨u, hu, ht⟩ := andThen_next h
      have hp : s.phase ≠ .idle := by
        intro hi
        simp [State.goesOn, hi] at hg
      exact drive_keeps hP fuel (hP s u hs hp hu) ht
    · have : s = t := by simpa using h
      exact this ▸ hs

/-- What a command word can do: it is not taken, it is refused, or it is accepted and runs. -/
theorem command_next {w : CmdWord} {legal : State → Bool} {start : State → State} {s t : State}
    (h : command w legal start s c = .next t) :
    (s.status.busy = true ∧ t = s) ∨
    (s.status.busy = false ∧ legal s = false ∧ t = s.refuse w) ∨
    (s.status.busy = false ∧ legal s = true ∧ runCommand (start (s.accept w)) c = .next t) := by
  unfold command at h
  split_ifs at h with hb hl
  · exact .inl ⟨hb, by simpa using h.symm⟩
  · exact .inr (.inr ⟨by simpa using hb, hl, h⟩)
  · exact .inr (.inl ⟨by simpa using hb, by simpa using hl, by simpa using h.symm⟩)

/-- The run of a command keeps what its start has and every transition keeps. -/
theorem command_keeps {P : State → Prop} (hP : ∀ s t, P s → s.phase ≠ .idle → tick s c = .next t → P t)
    {w : CmdWord} {legal : State → Bool} {start : State → State} {s t : State}
    (hstart : legal s = true → s.status.busy = false → P (start (s.accept w)))
    (hrefuse : P (s.refuse w)) (hs : P s)
    (h : command w legal start s c = .next t) : P t := by
  rcases command_next h with ⟨_, rfl⟩ | ⟨_, _, rfl⟩ | ⟨hb, hl, hr⟩
  · exact hs
  · exact hrefuse
  · exact drive_keeps hP _ (hstart hl hb) hr

/-! ### Each command as the shared shape -/

variable (c) (s : State)

theorem execCsumTx_command (off cnt : Nine) : execCsumTx off cnt s c =
    command (commandWord 1#4 false Space.txbuf.select off cnt) (fun _ => rangeFits .txbuf off cnt c) (fun s' => s'.startCsum c) s c := rfl

theorem execCsumRx_command (off cnt : Nine) : execCsumRx off cnt s c =
    command (commandWord 1#4 false Space.rxbuf.select off cnt) (fun _ => rangeFits .rxbuf off cnt c) (fun s' => s'.startCsum c) s c := rfl

theorem execCsumPay_command (off cnt : Nine) : execCsumPay off cnt s c =
    command (commandWord 1#4 false Space.pay.select off cnt) (fun _ => rangeFits .pay off cnt c) (fun s' => s'.startCsum c) s c := rfl

theorem execEnc_command (n : Nine) : execEnc n s c =
    command (commandWord 2#4 false 0#2 0#9 n) (fun _ => payloadFits n c) (fun s' => s'.startEnc c) s c := rfl

theorem execEncS_command (n : Nine) : execEncS n s c =
    command (commandWord 2#4 true 0#2 0#9 n) (fun _ => payloadFits n c) (fun s' => s'.startEnc c) s c := rfl

theorem execSend_command : execSend s c =
    command (commandWord 3#4 false 0#2 0#9 0#9) frameBuilt State.startSend s c := rfl

theorem execDec_command : execDec s c =
    command (commandWord 4#4 false 0#2 0#9 0#9) (fun _ => true) (fun s' => s'.startDec c) s c := rfl

theorem execAck_command : execAck s c =
    command (commandWord 5#4 false 0#2 0#9 0#9) (fun _ => true) (fun s' => s'.startControl c.ackByte) s c := rfl

theorem execNack_command : execNack s c =
    command (commandWord 6#4 false 0#2 0#9 0#9) (fun _ => true) (fun s' => s'.startControl c.nackByte) s c := rfl

variable {c} {s}

/-- `exec` is the parametric meaning at this hardware's parameters. -/
theorem exec_eq_execWith (i : Instr) (s : State) : exec i s = execWith Config.hw i s := by cases i <;> rfl

/-- `step` is the parametric step at this hardware's parameters. -/
theorem step_eq_stepWith (s : State) : step s = stepWith Config.hw s := by
  have : exec = execWith Config.hw := by
    funext i s
    exact exec_eq_execWith i s
  rw [step, stepWith, this]

@[simp] theorem exec_wireFrame (body : List Byte) (s : State) :
    exec (.wireFrame body) s = .next (s.arrive (frameBytes body)) := rfl

@[simp] theorem exec_wireAck (s : State) : exec .wireAck s = .next (s.arrive [Config.hw.ackByte]) := rfl

@[simp] theorem exec_wireNack (s : State) : exec .wireNack s = .next (s.arrive [Config.hw.nackByte]) := rfl

/-- An instruction keeps what each command's start, a refusal, an arrival and every transition keep. -/
theorem execWith_keeps {P : State → Prop} (hP : ∀ s t, P s → s.phase ≠ .idle → tick s c = .next t → P t)
    (hrefuse : ∀ s w, P s → P (s.refuse w)) (harrive : ∀ s bytes, P s → P (s.arrive bytes))
    (hs : P s)
    (hcsum : ∀ sp off cnt, s.status.busy = false → rangeFits sp off cnt c = true →
      P ((s.accept (commandWord 1#4 false sp.select off cnt)).startCsum c))
    (henc : ∀ seq n, s.status.busy = false → payloadFits n c = true →
      P ((s.accept (commandWord 2#4 seq 0#2 0#9 n)).startEnc c))
    (hsend : s.status.busy = false → frameBuilt s = true → P (s.accept (commandWord 3#4 false 0#2 0#9 0#9)).startSend)
    (hdec : s.status.busy = false → P ((s.accept (commandWord 4#4 false 0#2 0#9 0#9)).startDec c))
    (hctrl : ∀ op b, s.status.busy = false → P ((s.accept (commandWord op false 0#2 0#9 0#9)).startControl b))
    {i : Instr} {t : State} (h : execWith c i s = .next t) : P t := by
  have hr : ∀ w, P (s.refuse w) := fun w => hrefuse s w hs
  have arrived : ∀ bytes, Host.Outcome.next (s.arrive bytes) = (.next t : Result) → P t :=
    fun bytes h => Host.Outcome.next.inj h ▸ harrive s bytes hs
  cases i with
  | csumTx off cnt =>
    replace h := (execCsumTx_command c s off cnt).symm.trans h
    exact command_keeps hP (fun hl hb => hcsum .txbuf off cnt hb hl) (hr _) hs h
  | csumRx off cnt =>
    replace h := (execCsumRx_command c s off cnt).symm.trans h
    exact command_keeps hP (fun hl hb => hcsum .rxbuf off cnt hb hl) (hr _) hs h
  | csumPay off cnt =>
    replace h := (execCsumPay_command c s off cnt).symm.trans h
    exact command_keeps hP (fun hl hb => hcsum .pay off cnt hb hl) (hr _) hs h
  | enc n =>
    replace h := (execEnc_command c s n).symm.trans h
    exact command_keeps hP (fun hl hb => henc false n hb hl) (hr _) hs h
  | encS n =>
    replace h := (execEncS_command c s n).symm.trans h
    exact command_keeps hP (fun hl hb => henc true n hb hl) (hr _) hs h
  | send =>
    replace h := (execSend_command c s).symm.trans h
    exact command_keeps hP (fun hl hb => hsend hb hl) (hr _) hs h
  | dec =>
    replace h := (execDec_command c s).symm.trans h
    exact command_keeps hP (fun _ hb => hdec hb) (hr _) hs h
  | ack =>
    replace h := (execAck_command c s).symm.trans h
    exact command_keeps hP (fun _ hb => hctrl 5#4 c.ackByte hb) (hr _) hs h
  | nack =>
    replace h := (execNack_command c s).symm.trans h
    exact command_keeps hP (fun _ hb => hctrl 6#4 c.nackByte hb) (hr _) hs h
  | wireFrame body => exact arrived _ h
  | wireAck => exact arrived _ h
  | wireNack => exact arrived _ h

/-- `execWith_keeps` for this hardware's `exec`. -/
theorem exec_keeps {P : State → Prop} (hP : ∀ s t, P s → s.phase ≠ .idle → tick s = .next t → P t)
    (hrefuse : ∀ s w, P s → P (s.refuse w)) (harrive : ∀ s bytes, P s → P (s.arrive bytes))
    (hs : P s)
    (hcsum : ∀ sp off cnt, s.status.busy = false → rangeFits sp off cnt = true →
      P (s.accept (commandWord 1#4 false sp.select off cnt)).startCsum)
    (henc : ∀ seq n, s.status.busy = false → payloadFits n = true →
      P (s.accept (commandWord 2#4 seq 0#2 0#9 n)).startEnc)
    (hsend : s.status.busy = false → frameBuilt s = true → P (s.accept (commandWord 3#4 false 0#2 0#9 0#9)).startSend)
    (hdec : s.status.busy = false → P (s.accept (commandWord 4#4 false 0#2 0#9 0#9)).startDec)
    (hctrl : ∀ op b, s.status.busy = false → P ((s.accept (commandWord op false 0#2 0#9 0#9)).startControl b))
    {i : Instr} {t : State} (h : exec i s = .next t) : P t :=
  execWith_keeps hP hrefuse harrive hs hcsum henc hsend hdec hctrl (exec_eq_execWith i s ▸ h)

/-- What a presented word can do. -/
theorem presentWord_next {run : Instr → State → Result} {w : CmdWord} {s t : State} (h : presentWord run w s = .next t) :
    (s.status.busy = true ∧ t = s) ∨
    (s.status.busy = false ∧ ∃ i, decodeCommand w = .ok i ∧ run i s = .next t) ∨
    (s.status.busy = false ∧ (∃ e, decodeCommand w = .error e) ∧ t = s.refuse w) := by
  unfold presentWord at h
  split_ifs at h with hb
  · exact .inl ⟨hb, by simpa using h.symm⟩
  · split at h
    · next i hi => exact .inr (.inl ⟨by simpa using hb, i, hi, h⟩)
    · next e he => exact .inr (.inr ⟨by simpa using hb, ⟨e, he⟩, by simpa using h.symm⟩)

/-- What bytes on the wire can do. -/
theorem wireStep_next {run : Instr → State → Result} {bytes : List Byte} {rest : List Move} {s t : State}
    (h : wireStep run bytes rest s c = .next t) :
    (bytes = [] ∧ t = { s with env := rest }) ∨
    (∃ i left, decodeWire bytes c = .ok (i, left) ∧ run i { s with env := wireLeft left rest } = .next t) ∨
    (∃ b bs e, bytes = b :: bs ∧ decodeWire bytes c = .error e ∧ t = { s with env := wireLeft bs rest }.arrive [b]) := by
  unfold wireStep at h
  split at h
  · exact .inl ⟨rfl, by simpa using h.symm⟩
  · next b bs =>
    split at h
    · next i left hd => exact .inr (.inl ⟨i, left, hd, h⟩)
    · next e he => exact .inr (.inr ⟨b, bs, e, rfl, he, by simpa using h.symm⟩)

/-- What one step can do. -/
theorem stepVia_next {run : Instr → State → Result} {s t : State} (h : stepVia run c s = .next t) :
    (∃ w env, presentWord run w { s with env := env } = .next t) ∨
    (∃ a env, hostRead a { s with env := env } c = .next t) ∨
    (∃ a d env, hostWrite a d { s with env := env } c = .next t) ∨
    (∃ sig env, awaitAck sig { s with env := env } c = .next t) ∨
    (∃ rest, s.env = .reset :: rest ∧ t = { s with env := rest }.resetBlock c) ∨
    (∃ bytes rest, wireStep run bytes rest s c = .next t) ∨
    tick s c = .next t := by
  unfold stepVia at h
  split at h
  · next w rest _ => exact .inl ⟨w, rest, h⟩
  · next a rest _ => exact .inr (.inl ⟨a, rest, h⟩)
  · next a d rest _ => exact .inr (.inr (.inl ⟨a, d, rest, h⟩))
  · next sig rest _ => exact .inr (.inr (.inr (.inl ⟨sig, rest, h⟩)))
  · next rest he => exact .inr (.inr (.inr (.inr (.inl ⟨rest, he, by simpa using h.symm⟩))))
  · next bytes rest _ => exact .inr (.inr (.inr (.inr (.inr (.inl ⟨bytes, rest, h⟩)))))
  all_goals exact .inr (.inr (.inr (.inr (.inr (.inr h)))))

/-- What one step of this hardware can do. -/
theorem step_next {s t : State} (h : step s = .next t) :
    (∃ w env, presentWord exec w { s with env := env } = .next t) ∨
    (∃ a env, hostRead a { s with env := env } = .next t) ∨
    (∃ a d env, hostWrite a d { s with env := env } = .next t) ∨
    (∃ sig env, awaitAck sig { s with env := env } = .next t) ∨
    (∃ rest, s.env = .reset :: rest ∧ t = { s with env := rest }.resetBlock) ∨
    (∃ bytes rest, wireStep exec bytes rest s = .next t) ∨
    tick s = .next t := stepVia_next h

end Sys2Proof.Machine
end

