-- ==== Sys2Proof/Laws/HostCalls.lean ====
section
/-! SUPPORT. What each part of a host call can do, said once. -/

namespace Sys2Proof.Machine

variable {c : Params}

/-- Going on with a call. -/
theorem callThen_next {r : Result} {k : State → CallResult} {p : State × CallReturn} (h : callThen r k = .next p) :
    ∃ s, r = .next s ∧ k s = .next p := by
  cases r with
  | next s => exact ⟨s, rfl, h⟩
  | fault f => cases h
  | refused e => cases h

/-- `WAIT` inside a call: it goes on when `DONE` is 1, and waits when it is 0. -/
theorem whenDone_next {r : Result} {k : State → CallResult} {p : State × CallReturn} (h : whenDone r k = .next p) :
    ∃ s, r = .next s ∧ ((s.status.done = true ∧ k s = .next p) ∨ (s.status.done = false ∧ p = (s, .waiting))) := by
  obtain ⟨s, hs, hk⟩ := callThen_next h
  refine ⟨s, hs, ?_⟩
  split_ifs at hk with hd
  · exact .inl ⟨hd, hk⟩
  · exact .inr ⟨by simpa using hd, (Host.Outcome.next.inj hk).symm⟩

/-- A command that has ended lets the call go on. -/
theorem whenDone_of_done {s : State} {k : State → CallResult} (h : s.status.done = true) :
    whenDone (.next s) k = k s := by
  simp [whenDone, callThen, h]

/-- A command that was refused, or that waits, before any command has ended leaves the call in `WAIT`. -/
theorem whenDone_of_not_done {s : State} {k : State → CallResult} (h : s.status.done = false) :
    whenDone (.next s) k = .next (s, .waiting) := by
  simp [whenDone, callThen, h]

/-- The ACK wait inside a call: it waits, it goes on after an ACK, or it ends the call with `NOACK`. -/
theorem whenAcked_next {s : State} {k : State → CallResult} {p : State × CallReturn} (h : whenAcked s k c = .next p) :
    (ackWaitIn s.env s c = none ∧ p = (s, .waiting)) ∨
    (∃ t, ackWaitIn s.env s c = some (.ok, t) ∧ k t = .next p) ∨
    (∃ code t, ackWaitIn s.env s c = some (code, t) ∧ code ≠ .ok ∧ p = (t, .returned [] .noack)) := by
  unfold whenAcked at h
  split at h
  · next he => exact .inl ⟨he, (Host.Outcome.next.inj h).symm⟩
  · next t he => exact .inr (.inl ⟨t, he, h⟩)
  · next code t hne he => exact .inr (.inr ⟨code, t, he, hne, (Host.Outcome.next.inj h).symm⟩)

end Sys2Proof.Machine
end

