-- ==== Sys2Proof/Laws/PerInstr.lean ====
section
/-! SUPPORT. The families of statements made once per instruction. -/

namespace Sys2Proof.Laws

/-- The two kinds of encoding never mix: a wire unit is encoded as bytes, every other instruction as a command word whose `ZERO` bits
are 0 (30_encoding.md R90, R96, R102). -/
def EncodingKind.Statement (i : Instr) : Prop :=
  match encode i with
  | .command w => i.isWire = false ∧ zeroField w = 0#7
  | .wire bytes => i.isWire = true ∧ bytes ≠ []

theorem EncodingKind.csumTx (off cnt : Nine) : EncodingKind.Statement (.csumTx off cnt) := ⟨rfl, zeroField_commandWord ..⟩
theorem EncodingKind.csumRx (off cnt : Nine) : EncodingKind.Statement (.csumRx off cnt) := ⟨rfl, zeroField_commandWord ..⟩
theorem EncodingKind.csumPay (off cnt : Nine) : EncodingKind.Statement (.csumPay off cnt) := ⟨rfl, zeroField_commandWord ..⟩
theorem EncodingKind.enc (n : Nine) : EncodingKind.Statement (.enc n) := ⟨rfl, zeroField_commandWord ..⟩
theorem EncodingKind.encS (n : Nine) : EncodingKind.Statement (.encS n) := ⟨rfl, zeroField_commandWord ..⟩
theorem EncodingKind.send : EncodingKind.Statement .send := ⟨rfl, zeroField_commandWord ..⟩
theorem EncodingKind.dec : EncodingKind.Statement .dec := ⟨rfl, zeroField_commandWord ..⟩
theorem EncodingKind.ack : EncodingKind.Statement .ack := ⟨rfl, zeroField_commandWord ..⟩
theorem EncodingKind.nack : EncodingKind.Statement .nack := ⟨rfl, zeroField_commandWord ..⟩
theorem EncodingKind.wireFrame (body : List Byte) : EncodingKind.Statement (.wireFrame body) := ⟨rfl, List.cons_ne_nil _ _⟩
theorem EncodingKind.wireAck : EncodingKind.Statement .wireAck := ⟨rfl, List.cons_ne_nil _ _⟩
theorem EncodingKind.wireNack : EncodingKind.Statement .wireNack := ⟨rfl, List.cons_ne_nil _ _⟩

end Sys2Proof.Laws
end

