-- ==== Sys2Proof/Tests/Slice0.lean ====
section
/-! SUPPORT. The model's own tests, expected values from spec/95_test_vectors.md, and a witness for the hypotheses of every statement. -/

namespace Sys2Proof.Machine.Tests

/-! ### Helpers -/

/-- The next state, if there is one. -/
def after (r : Result) : Option State :=
  match r with
  | .next s => some s
  | .fault _ => none
  | .refused _ => none

/-- The fault, if there is one. -/
def stop (r : Result) : Option Fault :=
  match r with
  | .next _ => none
  | .fault f => some f
  | .refused _ => none

/-- The refusal, if there is one. -/
def refusal (r : Result) : Option Refusal :=
  match r with
  | .next _ => none
  | .fault _ => none
  | .refused e => some e

/-- An idle block with the environment's moves `env`. -/
def idle (env : List Move) : State := { State.reset with env := env }

/-- Bytes at consecutive addresses. -/
def cells : Nat → List Byte → Memory
  | _, [] => []
  | a, b :: bs => (a, b) :: cells (a + 1) bs

/-- An idle block whose host has written `PAY`. -/
def withPay (bs : List Byte) : State := { State.reset with mem := cells 0x100 bs }

/-- An idle block with the frame of V15 built, and the moves `env` (95_test_vectors.md V15). -/
def built (env : List Move) : State :=
  { State.reset with
    acc := 0xEA#8
    len := 0x04#8
    pos := 6#9
    txlen := 6#9
    status := ⟨false, true, false, false⟩
    mem := cells 0x100 [0xAA#8, 0xBB#8] ++ cells 0x200 [0x01#8, 0x04#8, 0x00#8, 0xAA#8, 0xBB#8, 0xEA#8]
    env := env }

/-- The answers of a read side that gives `n` bytes and then makes the moves `last`. -/
def given (n : Nat) (last : List Move) : List Move := List.replicate n Move.byteComes ++ last

/-- An idle block, a stream, and the moves. -/
def listening (stream : List Byte) (env : List Move) : State := { State.reset with rxStream := stream, env := env }

/-- A block in the middle of a command. -/
def busyIn (p : Phase) (env : List Move) : State :=
  { State.reset with phase := p, status := ⟨true, false, false, false⟩, env := env }

/-- What `DEC` leaves. -/
structure DecView where
  result : ResultCode
  rxcnt : Nine
  len : Byte
  acc : Byte
  pos : Nine
  reslen : Byte
  flags : BitVec 4
  deriving DecidableEq, Repr

def decView (t : State) : DecView := ⟨t.result, t.rxcnt, t.len, t.acc, t.pos, t.reslen, t.status.word⟩

/-- What `ENC` leaves: `TXBUF[0..TXLEN-1]` and the registers. -/
structure EncView where
  frame : Option (List Byte)
  txlen : Nine
  len : Byte
  acc : Byte
  pos : Nine
  seq : Byte
  flags : BitVec 4
  deriving DecidableEq, Repr

def encView (t : State) : EncView :=
  ⟨t.bytes? .txbuf 0 t.txlen.toNat, t.txlen, t.len, t.acc, t.pos, t.seq, t.status.word⟩

/-- A result that is a next state is some next state. -/
theorem completes {r : Result} (h : (after r).isSome = true) : ∃ t, r = .next t := by
  cases r with
  | next t => exact ⟨t, rfl⟩
  | fault f => cases h
  | refused e => cases h

/-! ### Well-formedness (30_encoding.md R90, R93) -/

theorem test_wellFormed_refuses_long_body : (Instr.wireFrame (List.replicate 256 0x00#8)).wellFormed = false := by decide +kernel

theorem test_wellFormed_admits_longest_body : (Instr.wireFrame (List.replicate 255 0x00#8)).wellFormed = true := by decide +kernel

/-! ### Decoding: words and bytes written out from 30_encoding.md R90, R96, R102, R103 -/

theorem test_decode_csumTx : decodeTableWord 32 0b00010000000000000000001000000100 = some (.csumTx 1#9 4#9) := by decide
theorem test_decode_csumRx : decodeTableWord 32 0b00010010000000000000001000000100 = some (.csumRx 1#9 4#9) := by decide
theorem test_decode_csumPay : decodeTableWord 32 0b00010100000000011111010000000000 = some (.csumPay 250#9 0#9) := by decide
theorem test_decode_enc : decodeTableWord 32 0b00100000000000000000000000000010 = some (.enc 2#9) := by decide
theorem test_decode_encS : decodeTableWord 32 0b00101000000000000000000011111010 = some (.encS 250#9) := by decide
theorem test_decode_send : decodeTableWord 32 0b00110000000000000000000000000000 = some .send := by decide
theorem test_decode_dec : decodeTableWord 32 0b01000000000000000000000000000000 = some .dec := by decide
theorem test_decode_ack : decodeTableWord 32 0b01010000000000000000000000000000 = some .ack := by decide
theorem test_decode_nack : decodeTableWord 32 0b01100000000000000000000000000000 = some .nack := by decide
theorem test_decode_wireFrame :
    decode (.wire [0x01#8, 0x02#8, 0x13#8, 0xEE#8]) = .ok (.wireFrame [0x13#8, 0xEE#8]) := rfl
theorem test_decode_wireAck : decode (.wire [0x06#8]) = .ok .wireAck := rfl
theorem test_decode_wireNack : decode (.wire [0x15#8]) = .ok .wireNack := rfl

/-- V70 to V78: the illegal words, rejected by name. -/
theorem test_illegal_words :
    [0x00000000#32, 0x70000000#32, 0xF0000000#32, 0x16000000#32, 0x18000000#32, 0x38000000#32, 0x42000000#32, 0x20040000#32,
      0x20000200#32, 0x50000001#32].map illegalReason? =
      [some .opcode, some .opcode, some .opcode, some .memorySelect, some .seqFlag, some .seqFlag, some .memorySelectUnused,
        some .zeroBits, some .operandA, some .operandB] ∧
    [0x00000000#32, 0x70000000#32, 0xF0000000#32, 0x16000000#32, 0x18000000#32, 0x38000000#32, 0x42000000#32, 0x20040000#32,
      0x20000200#32, 0x50000001#32].all (fun w => (decodeCommand w).toOption == none) = true := by decide

/-- A frame with a byte missing is no wire unit, and a byte that starts none is rejected. -/
theorem test_wire_rejects :
    decodeWire [0x01#8, 0x02#8, 0x13#8] = .error .wireTruncated ∧ decodeWire [0x55#8] = .error .wireByte ∧
    decodeWire [] = .error .wireEmpty := ⟨rfl, rfl, rfl⟩

/-! ### The checksum and the field maps (V1, V6, V7, V86, V89, V90 to V92) -/

theorem test_checksum : checksum [] = 0xFF#8 ∧ checksum [0x04#8, 0x00#8, 0xAA#8, 0xBB#8] = 0xEA#8 ∧
    checksum [0x04#8, 0x00#8, 0xAA#8, 0xBB#8, 0xEA#8] = 0x00#8 := by decide

theorem test_fieldOut :
    (List.range 7).map (fun p => fieldOut p 2 false) = [.sof, .len, .type, .pay, .pay, .csum, .none] ∧
    (List.range 9).map (fun p => fieldOut p 3 true) = [.sof, .len, .type, .pay, .pay, .pay, .seq, .csum, .none] := by decide

theorem test_fieldIn :
    (List.range 6).map (fun p => fieldIn p 4) = [.sof, .len, .body, .body, .body, .csum] ∧
    (List.range 4).map (fun p => fieldIn p 1) = [.sof, .len, .csum, .none] ∧
    (List.range 3).map (fun p => fieldIn p 0) = [.sof, .len, .none] := by decide

/-! ### The commands -/

/-- V9. -/
theorem test_csumTx : (after (exec (.csumTx 1#9 4#9) (built []))).map (fun t => (t.acc, t.pos, t.result, t.status.word)) =
    some (0xEA#8, 5#9, .ok, 0b0010#4) := by decide

/-- V13, and the range one more (V80b). -/
theorem test_csumTx_edge : (after (exec (.csumTx 257#9 0#9) State.reset)).map (fun t => (t.acc, t.pos, t.status.word)) =
      some (0xFF#8, 257#9, 0b0010#4) ∧
    (after (exec (.csumTx 256#9 2#9) State.reset)).map (fun t => (t.acc, t.events, t.status.word)) =
      some (0xFF#8, [.cmderr 0x10020002#32], 0b0100#4) := by decide

/-- V14. -/
theorem test_csumRx : (after (exec (.csumRx 1#9 6#9)
      { State.reset with mem := cells 0x400 [0x01#8, 0x05#8, 0x01#8, 0x07#8, 0x05#8, 0x00#8, 0xF9#8] })).map
      (fun t => (t.acc, t.pos)) = some (0x00#8, 7#9) := by decide

/-- The text after V14: a byte never written faults the command. -/
theorem test_csum_unwritten : stop (exec (.csumTx 0#9 7#9) (built [])) = some .unwrittenByte := by decide

/-- V12. -/
theorem test_csumPay : (after (exec (.csumPay 0#9 2#9) (built []))).map (fun t => (t.acc, t.pos)) = some (0xEE#8, 2#9) := by decide

/-- V15. -/
theorem test_enc : (after (exec (.enc 2#9) (withPay [0xAA#8, 0xBB#8]))).map encView =
    some ⟨some [0x01#8, 0x04#8, 0x00#8, 0xAA#8, 0xBB#8, 0xEA#8], 6#9, 0x04#8, 0xEA#8, 6#9, 0x00#8, 0b0010#4⟩ := by decide

/-- V79: one more than the largest payload. -/
theorem test_enc_refused : (after (exec (.enc 251#9) State.reset)).map (fun t => (t.events, t.status.word, t.txlen)) =
    some ([.cmderr 0x200000FB#32], 0b0100#4, 0#9) := by decide

/-- V16. -/
theorem test_encS : (after (exec (.encS 0#9) { State.reset with seq := 0x05#8 })).map encView =
    some ⟨some [0x01#8, 0x03#8, 0x00#8, 0x05#8, 0xF9#8], 5#9, 0x03#8, 0xF9#8, 5#9, 0x06#8, 0b0010#4⟩ := by decide

/-- V19: the counter wraps. -/
theorem test_encS_wraps : (after (exec (.encS 1#9) { withPay [0xFF#8] with seq := 0xFF#8 })).map encView =
    some ⟨some [0x01#8, 0x04#8, 0x00#8, 0xFF#8, 0xFF#8, 0xFB#8], 6#9, 0x04#8, 0xFB#8, 6#9, 0x00#8, 0b0010#4⟩ := by decide

/-- V25. -/
theorem test_send : (after (exec .send (built (List.replicate 6 Move.taken)))).map (fun t => (t.events, t.pos, t.status.word)) =
    some ([.cmd 0x30000000#32, .tx 0x01#8, .tx 0x04#8, .tx 0x00#8, .tx 0xAA#8, .tx 0xBB#8, .tx 0xEA#8, .done .ok], 6#9, 0b0010#4) := by
  decide

/-- V27. -/
theorem test_send_fails : (after (exec .send (built (List.replicate 3 Move.taken ++ [Move.writeFails])))).map
      (fun t => (t.events, t.pos, t.result.byte, t.status.word)) =
    some ([.cmd 0x30000000#32, .tx 0x01#8, .tx 0x04#8, .tx 0x00#8, .txerr, .done .xfail], 3#9, 0xFF#8, 0b1010#4) := by decide

/-- V28. -/
theorem test_ack : (after (exec .ack (idle [Move.taken]))).map (fun t => (t.events, t.pos, t.status.word)) =
    some ([.cmd 0x50000000#32, .tx 0x06#8, .done .ok], 1#9, 0b0010#4) := by decide

/-- V29. -/
theorem test_nack : (after (exec .nack (idle [Move.taken]))).map (fun t => (t.events, t.pos, t.status.word)) =
    some ([.cmd 0x60000000#32, .tx 0x15#8, .done .ok], 1#9, 0b0010#4) := by decide

/-- V30. -/
theorem test_nack_fails : (after (exec .nack (idle [Move.writeFails]))).map (fun t => (t.txStream, t.pos, t.status.word)) =
    some ([], 0#9, 0b1010#4) := by decide

/-- V31 and V45: a frame accepted, and a body that stays away. -/
theorem test_dec :
    (after (exec .dec (listening [0x01#8, 0x04#8, 0x00#8, 0xAA#8, 0xBB#8, 0xEA#8] (given 6 [Move.taken])))).map
      (fun t => (decView t, (List.range 4).map t.rspByte, t.txStream)) =
      some (⟨.ok, 6#9, 0x04#8, 0xEA#8, 6#9, 0x03#8, 0b0010#4⟩, [some 0x00#8, some 0xAA#8, some 0xBB#8, none], [0x06#8]) ∧
    (after (exec .dec (listening [0x01#8, 0x04#8] (given 2 [Move.deadline, Move.taken])))).map (fun t => (decView t, t.events)) =
      some (⟨.invalidDatalen, 2#9, 0x04#8, 0xFB#8, 2#9, 0x00#8, 0b0010#4⟩,
        [.cmd 0x40000000#32, .arm 2#8, .rx 0x01#8, .rx 0x04#8, .arm 4#8, .timeout, .tx 0x15#8, .done .invalidDatalen]) := by decide

/-- V36, V37, V44, V47, V48, V53: the corner cases. -/
theorem test_dec_corners :
    (after (exec .dec (listening [0x01#8, 0x01#8, 0x00#8] (given 3 [Move.taken])))).map decView =
      some ⟨.invalidCrc, 3#9, 0x01#8, 0xFE#8, 3#9, 0x00#8, 0b0010#4⟩ ∧
    (after (exec .dec (listening [0x01#8, 0x00#8] (given 2 [Move.taken])))).map decView =
      some ⟨.invalidCrc, 2#9, 0x00#8, 0xFF#8, 2#9, 0x00#8, 0b0010#4⟩ ∧
    (after (exec .dec (listening [0x55#8] (given 1 [Move.deadline])))).map decView =
      some ⟨.invalidSofSize, 1#9, 0x00#8, 0xFF#8, 1#9, 0x00#8, 0b0010#4⟩ ∧
    (after (exec .dec (listening [0x01#8, 0x02#8, 0x00#8, 0xFD#8, 0x10#8] (given 4 [Move.taken])))).map
      (fun t => (decView t, t.rxStream)) = some (⟨.ok, 4#9, 0x02#8, 0xFD#8, 4#9, 0x01#8, 0b0010#4⟩, [0x10#8]) ∧
    (after (exec .dec (listening [0x02#8, 0x04#8, 0x00#8] (given 2 [])))).map (fun t => (decView t, t.txStream)) =
      some (⟨.invalidSof, 2#9, 0x04#8, 0xFB#8, 2#9, 0x00#8, 0b0010#4⟩, []) ∧
    (after (exec .dec (listening [0x01#8, 0x04#8, 0x00#8, 0xAA#8, 0xBB#8, 0xEA#8] (given 6 [Move.writeFails])))).map
      (fun t => (decView t, t.rspByte 0)) = some (⟨.xfail, 6#9, 0x04#8, 0xEA#8, 6#9, 0x03#8, 0b1010#4⟩, none) := by decide

/-! ### The wire units -/

theorem test_wireFrame : (after (step (State.reset.withFetchWord 16 0x0201))).map (fun t => t.rxStream.take 4) =
    some [0x01#8, 0x02#8, 0x00#8, 0x00#8] := by decide +kernel

theorem test_wireAck : (after (exec .wireAck (listening [0x15#8] []))).map (fun t => t.rxStream) = some [0x15#8, 0x06#8] := by decide

theorem test_wireNack : (after (exec .wireNack (busyIn .dHdr []))).map (fun t => (t.rxStream, t.status.busy)) =
    some ([0x15#8], true) := by decide

/-! ### The host port and the whole machine -/

/-- V56, V58, V60, V65, V66, V69. -/
theorem test_hostRead :
    [0x000#12, 0x003#12, 0x205#12, 0x009#12].map (fun a => (after (step (built [.hread a]))).map (fun t => t.hostLog)) =
      [some [.readData 0x000#12 0x0002#16], some [.readData 0x003#12 0x00EA#16], some [.readData 0x205#12 0x00EA#16],
        some [.accessErr 0x009#12]] ∧
    stop (step (built [.hread 0x206#12])) = some .unwrittenByte ∧
    (after (step (busyIn .tFrame [.hread 0x000#12]))).map (fun t => t.hostLog) = some [.readData 0x000#12 0x0001#16] ∧
    refusal (step (busyIn .tFrame [.hread 0x003#12])) = some .busyHostRead := by decide

/-- V62, V64, V68. -/
theorem test_hostWrite :
    (after (step (built [.hwrite 0x101#12 0x12CC#16]))).map (fun t => t.byte? .pay 1) = some (some 0xCC#8) ∧
    (after (step (built [.hwrite 0x200#12 0x0000#16]))).map (fun t => (t.byte? .txbuf 0, t.hostLog)) =
      some (some 0x01#8, [.accessErr 0x200#12]) ∧
    (after (step { built [.hwrite 0x100#12 0x0055#16] with status := ⟨true, false, false, false⟩, phase := .tFrame })).map
      (fun t => t.byte? .pay 0) = some (some 0xAA#8) := by decide

/-- The first step after reset runs the word it is given: the command port takes `NACK`. -/
theorem test_withFetchWord : (after (step (State.reset.withFetchWord 32 0x60000000))).map (fun t => (t.phase, t.opb, t.events)) =
    some (.tCtrl, 0x015#9, [.cmd 0x60000000#32]) := by decide

/-- G6, steps 1, 2, 3: the refusals leave every register as it was. -/
theorem test_refusals :
    [0x30000000#32, 0x200000FB#32, 0x00000000#32].map (fun w => after (step (idle [.present w]))) =
      [0x30000000#32, 0x200000FB#32, 0x00000000#32].map (fun w => some { State.reset with
        status := ⟨false, false, true, false⟩, events := [.cmderr w] }) := by decide

/-- `WAIT` holds the host's next action back while `DONE` is 0, lets the transport go on, and ends at `DONE` (R248). -/
theorem test_wait :
    after (step (busyIn .tCtrl [.wait, .hread 0x001#12])) = some (busyIn .tCtrl [.wait, .hread 0x001#12]) ∧
    (after (step (busyIn .tCtrl [.wait, Move.taken, .hread 0x001#12]))).map (fun t => (t.phase, t.env)) =
      some (.idle, [.wait, .hread 0x001#12]) ∧
    (after (step (built [.wait, .hread 0x001#12]))).map (fun t => t.env) = some [.hread 0x001#12] := by decide

/-- From reset a refused word leaves `DONE` at 0, so `WAIT` does not end (R248, R305). -/
theorem test_wait_after_refusal : (after (step (idle [.present 0x200000FB#32, .wait, .hread 0x000#12]))).bind (fun t => after (step t)) =
    some { State.reset with
      status := ⟨false, false, true, false⟩, events := [.cmderr 0x200000FB#32], env := [.wait, .hread 0x000#12] } := by decide

/-- Other values of the OPEN parameters (00_scope.md R7). -/
def other : Params := { Config.hw with sof := 0x7E#8, seqInit := 0x80#8, maxPayload := 252, maxPayload_le := by decide }

/-- The parameters are where the spec has them: the marker, the counter after reset, the largest payload, the end of `PAY`. -/
theorem test_parameters :
    (after (execEncS 0#9 (State.resetWith other) other)).map (fun t => (t.bytes? .txbuf 0 5 other, t.seq)) =
      some (some [0x7E#8, 0x03#8, 0x00#8, 0x80#8, 0x7C#8], 0x81#8) ∧
    payloadFits 252#9 other = true ∧ payloadFits 253#9 other = false ∧
    byteAt 0x1FB other = some (.pay, 251) ∧ byteAt 0x1FC other = none ∧ byteAt 0x1FA = none := by decide

/-! ### Every statement's hypotheses can be met: encodings and acceptance -/

theorem witness_DecodeEncodeRoundTrip :
    (Instr.csumPay 511#9 511#9).wellFormed = true ∧ (Instr.wireFrame (List.replicate 255 0x01#8)).wellFormed = true := by decide +kernel

theorem witness_EncodeDecodeRoundTrip :
    decodeCommand 0x1403FFFF#32 = .ok (.csumPay 511#9 511#9) ∧ decodeCommand 0x280001FF#32 = .ok (.encS 511#9) := ⟨rfl, rfl⟩

theorem witness_LegalWordsMatchOneRow : ∃ r ∈ cmdRows, 0x200001FF#32 &&& r.mask = r.pattern :=
  ⟨_, List.mem_of_getElem? (i := 3) rfl, rfl⟩

theorem witness_IllegalWordsAreRefused : ∃ (s : State) (w : CmdWord), (∃ e, decodeCommand w = .error e) ∧ s.status.busy = false ∧
    s.env = .present w :: [.run] := ⟨idle [.present 0x70000000#32, .run], 0x70000000#32, ⟨.opcode, rfl⟩, rfl, rfl⟩

theorem witness_WireUnitsParse : (Instr.wireFrame []).wellFormed = true ∧ encode (.wireFrame []) = .wire [0x01#8, 0x00#8] ∧
    Instr.wireAck.wellFormed = true ∧ encode .wireAck = .wire [0x06#8] := by decide

theorem witness_StepRunsThePresentedCommand :
    (idle [.present 0x20000002#32]).env = .present 0x20000002#32 :: [] ∧ (idle []).status.busy = false ∧
    decodeCommand 0x20000002#32 = .ok (.enc 2#9) := ⟨rfl, rfl, rfl⟩

theorem witness_StepRunsTheArrivingUnit :
    (idle [.wire [0x06#8]]).env = .wire [0x06#8] :: [] ∧ decodeWire [0x06#8] = .ok (.wireAck, []) ∧
    (idle [.wire [0x15#8, 0x01#8]]).env = .wire [0x15#8, 0x01#8] :: [] ∧
    decodeWire [0x15#8, 0x01#8] = .ok (.wireNack, [0x01#8]) := ⟨rfl, rfl, rfl, rfl⟩

theorem witness_BusyWordsAreNotTaken :
    (busyIn .dHdr [.present 0x00000000#32]).env = .present 0x00000000#32 :: [] ∧ (busyIn .dHdr []).status.busy = true ∧
    encode .send = .command 0x30000000#32 := by decide

/-- One witness for each of the four refusals, each one past the largest value that is taken. -/
theorem witness_CommandsRefusedByValue :
    State.reset.status.busy = false ∧
    (encode (encOf true 251#9) = .command 0x280000FB#32 ∧ 250 < (251#9).toNat) ∧
    (encode (.csumTx 257#9 1#9) = .command 0x10020201#32 ∧ 257 < (257#9).toNat + (1#9).toNat) ∧
    (encode (.csumPay 250#9 1#9) = .command 0x1401F401#32 ∧ 250 < (250#9).toNat + (1#9).toNat) ∧
    (encode .send = .command 0x30000000#32 ∧ State.reset.txlen = 0#9) := by decide

theorem witness_CommandsEndOrWait : encode .nack = .command 0x60000000#32 ∧ (idle []).phase = .idle ∧
    ∃ t, exec .nack (idle []) = .next t := ⟨by decide, rfl, completes (by decide)⟩

/-- A command that ends, and one that waits. -/
theorem witness_CommandsEndOnce : encode .ack = .command 0x50000000#32 ∧ State.reset.status.busy = false ∧
    (∃ t, exec .ack (idle [Move.taken]) = .next t) ∧ ∃ t, exec .ack (idle []) = .next t :=
  ⟨by decide, rfl, completes (by decide), completes (by decide)⟩

theorem witness_ChecksumLaws : [0x04#8, 0x00#8].Perm [0x00#8, 0x04#8] ∧ 7 < 8 := ⟨by decide, by decide⟩

/-! ### Every statement's hypotheses can be met: CSUM and ENC -/

theorem witness_CsumCompletes :
    (built []).status.busy = false ∧ yieldsToBlock (built []).env = true ∧ (1#9).toNat + (5#9).toNat ≤ Space.txbuf.size ∧
    (built []).bytes? .txbuf 1 5 = some [0x04#8, 0x00#8, 0xAA#8, 0xBB#8, 0xEA#8] ∧
    encode (csumOf .txbuf 1#9 5#9) = .command 0x10000205#32 := by decide

/-- The end of each memory: the largest offset, no bytes. -/
theorem witness_CsumCompletes_edge :
    (257#9).toNat + (0#9).toNat ≤ Space.rxbuf.size ∧ State.reset.bytes? .rxbuf 257 0 = some [] ∧
    (250#9).toNat + (0#9).toNat ≤ Space.pay.size ∧ State.reset.bytes? .pay 250 0 = some [] := by decide

theorem witness_CsumFaultsOnUnwrittenBytes :
    (built []).status.busy = false ∧ yieldsToBlock (built []).env = true ∧ (0#9).toNat + (257#9).toNat ≤ Space.txbuf.size ∧
    ∃ k, k < (257#9).toNat ∧ (built []).byte? .txbuf ((0#9).toNat + k) = none :=
  ⟨by decide, by decide, by decide, 6, by decide, by decide⟩

theorem witness_CsumFrame : ∃ t, exec (csumOf .pay 0#9 2#9) (built [.run, .reset]) = .next t := completes (by decide)

theorem witness_OutboundFrameLayout : (List.replicate 250 0x55#8).length ≤ Config.hw.maxPayload ∧
    (List.replicate 252 0x55#8).length ≤ other.maxPayload := by decide +kernel

theorem witness_EncCompletes :
    (withPay [0xAA#8, 0xBB#8]).status.busy = false ∧ yieldsToBlock (withPay []).env = true ∧ (2#9).toNat ≤ 250 ∧
    (withPay [0xAA#8, 0xBB#8]).bytes? .pay 0 2 = some [0xAA#8, 0xBB#8] ∧ encode (.enc 2#9) = .command 0x20000002#32 := by decide

/-- The largest payload. -/
theorem witness_EncCompletes_edge : (250#9).toNat ≤ 250 ∧
    (withPay (List.replicate 250 0x55#8)).bytes? .pay 0 250 = some (List.replicate 250 0x55#8) := by decide +kernel

theorem witness_EncSCompletes :
    State.reset.status.busy = false ∧ yieldsToBlock State.reset.env = true ∧ (0#9).toNat ≤ 250 ∧
    State.reset.bytes? .pay 0 0 = some [] ∧ encode (.encS 0#9) = .command 0x28000000#32 := by decide

theorem witness_EncFaultsOnUnwrittenPayload :
    State.reset.status.busy = false ∧ yieldsToBlock State.reset.env = true ∧ (1#9).toNat ≤ 250 ∧
    ∃ k, k < (1#9).toNat ∧ State.reset.byte? .pay k = none := ⟨rfl, rfl, by decide, 0, by decide, by decide⟩

theorem witness_EncFrame : (∃ t, exec (encOf false 1#9) (withPay [0x00#8]) = .next t) ∧
    ∃ t, exec (encOf true 1#9) { withPay [0x00#8] with env := [.run, .reset] } = .next t :=
  ⟨completes (by decide), completes (by decide)⟩

theorem witness_OnlyEncSWritesSeq : (∀ n, Instr.enc 1#9 ≠ .encS n) ∧ ∃ t, exec (.enc 1#9) (withPay [0x00#8]) = .next t :=
  ⟨by simp, completes (by decide)⟩

theorem witness_SequenceNumbersCycle :
    State.reset.status.busy = false ∧ yieldsToBlock State.reset.env = true ∧ (0#9).toNat ≤ 250 ∧
    (State.reset.bytes? .pay 0 0).isSome = true := by decide

/-! ### Every statement's hypotheses can be met: SEND, ACK, NACK -/

theorem witness_SendCompletes :
    (built []).status.busy = false ∧ (built []).txlen ≠ 0#9 ∧
    (built []).bytes? .txbuf 0 6 = some [0x01#8, 0x04#8, 0x00#8, 0xAA#8, 0xBB#8, 0xEA#8] ∧
    (built (List.replicate 6 Move.taken ++ [.reset])).env = List.replicate 6 Move.taken ++ [.reset] ∧
    encode .send = .command 0x30000000#32 := by decide

/-- The first byte and the last. -/
theorem witness_SendEndsAtAWriteFailure :
    (built []).status.busy = false ∧ (built []).bytes? .txbuf 0 6 = some [0x01#8, 0x04#8, 0x00#8, 0xAA#8, 0xBB#8, 0xEA#8] ∧
    (0 < (built []).txlen.toNat ∧ (built [Move.writeFails]).env = List.replicate 0 Move.taken ++ Move.writeFails :: []) ∧
    (5 < (built []).txlen.toNat ∧
      (built (List.replicate 5 Move.taken ++ [Move.writeFails])).env = List.replicate 5 Move.taken ++ Move.writeFails :: []) ∧
    encode .send = .command 0x30000000#32 := by decide

theorem witness_ControlCommandsComplete :
    State.reset.status.busy = false ∧ encode .ack = .command 0x50000000#32 ∧ encode .nack = .command 0x60000000#32 ∧
    (idle [Move.taken]).env = Move.taken :: [] ∧ (idle [Move.writeFails]).env = Move.writeFails :: [] := by decide

theorem witness_TransmitFrame : (∃ t, exec .send (built [Move.taken]) = .next t) ∧ (∃ t, exec .ack (idle [.wire [0x06#8]]) = .next t) ∧
    ∃ t, exec .nack (idle [Move.writeFails]) = .next t :=
  ⟨completes (by decide), completes (by decide), completes (by decide)⟩

theorem witness_CommandsCanWaitForEver : (built []).status.busy = false ∧ (built []).env = [] ∧ (built []).txlen ≠ 0#9 := by decide

/-! ### Every statement's hypotheses can be met: DEC -/

theorem witness_DecAcceptsValidFrames :
    State.reset.status.busy = false ∧ [0x00#8, 0x05#8].length + 1 ≤ 255 ∧
    [0x00#8, 0x05#8, 0xF9#8] = [0x00#8, 0x05#8] ++ [checksum (BitVec.ofNat 8 (2 + 1) :: [0x00#8, 0x05#8])] ∧
    (listening [0x01#8, 0x03#8, 0x00#8, 0x05#8, 0xF9#8] (given 5 [Move.taken])).rxStream = frameBytes [0x00#8, 0x05#8, 0xF9#8] ++ [] ∧
    (listening [] (given 5 [Move.taken])).env = List.replicate (3 + 2) Move.byteComes ++ Move.taken :: [] ∧
    encode .dec = .command 0x40000000#32 := by decide

/-- The shortest body, and the longest. -/
theorem witness_DecAcceptsValidFrames_edge :
    [0xFE#8] = [] ++ [checksum (BitVec.ofNat 8 (0 + 1) :: ([] : List Byte))] ∧ ([] : List Byte).length + 1 ≤ 255 ∧
    (List.replicate 254 0x00#8).length + 1 ≤ 255 := by decide +kernel

theorem witness_DecRejectsBadChecksums :
    State.reset.status.busy = false ∧ 0x00#8 ≠ checksum (BitVec.ofNat 8 (0 + 1) :: ([] : List Byte)) ∧
    (listening [0x01#8, 0x01#8, 0x00#8] (given 3 [Move.taken])).rxStream = frameBytes ([] ++ [0x00#8]) ++ [] ∧
    (listening [] (given 3 [Move.taken])).env = List.replicate (1 + 2) Move.byteComes ++ Move.taken :: [] := by decide

theorem witness_DecRejectsLengthZero :
    State.reset.status.busy = false ∧ (listening [0x01#8, 0x00#8, 0x07#8] []).rxStream = 0x01#8 :: 0x00#8 :: [0x07#8] ∧
    (listening [] (given 2 [Move.taken])).env = Move.byteComes :: Move.byteComes :: Move.taken :: [] ∧
    encode .dec = .command 0x40000000#32 := by decide

/-- No byte, and one byte. -/
theorem witness_DecEndsOnAShortHeader :
    State.reset.status.busy = false ∧
    ((listening [] [Move.deadline]).rxStream = [] ++ [] ∧
      (listening [] [Move.deadline]).env = List.replicate 0 Move.byteComes ++ Move.deadline :: []) ∧
    ((listening [0x55#8] []).rxStream = [0x55#8] ++ [] ∧ [0x55#8].length ≤ 1 ∧
      (listening [] (given 1 [Move.deadline])).env = List.replicate 1 Move.byteComes ++ Move.deadline :: []) ∧
    encode .dec = .command 0x40000000#32 := by decide

theorem witness_DecRejectsWrongMarkers :
    State.reset.status.busy = false ∧ 0x06#8 ≠ 0x01#8 ∧ (listening [0x06#8, 0x01#8, 0x02#8] []).rxStream = 0x06#8 :: 0x01#8 :: [0x02#8] ∧
    (listening [] (given 2 [])).env = Move.byteComes :: Move.byteComes :: [] ∧ encode .dec = .command 0x40000000#32 := by decide

/-- No body byte, and all but one. -/
theorem witness_DecEndsOnAShortBody :
    State.reset.status.busy = false ∧
    (([] : List Byte).length < (0x01#8).toNat ∧ (listening [0x01#8, 0x01#8] []).rxStream = 0x01#8 :: 0x01#8 :: ([] ++ []) ∧
      (listening [] (given 2 [Move.deadline, Move.taken])).env =
        List.replicate (0 + 2) Move.byteComes ++ Move.deadline :: Move.taken :: []) ∧
    ([0x00#8].length < (0x02#8).toNat ∧ (listening [0x01#8, 0x02#8, 0x00#8] []).rxStream = 0x01#8 :: 0x02#8 :: ([0x00#8] ++ [])) ∧
    encode .dec = .command 0x40000000#32 := by decide

theorem witness_DecEndsOnAReadFailure :
    State.reset.status.busy = false ∧
    ((listening [0x01#8] []).rxStream = [0x01#8] ++ [] ∧ [0x01#8].length ≤ 1 ∧
      (listening [] (given 1 [Move.readFails])).env = List.replicate 1 Move.byteComes ++ Move.readFails :: []) ∧
    ([0x00#8].length < (0x04#8).toNat ∧ (listening [0x01#8, 0x04#8, 0x00#8] []).rxStream = 0x01#8 :: 0x04#8 :: ([0x00#8] ++ []) ∧
      (listening [] (given 3 [Move.readFails])).env = List.replicate (1 + 2) Move.byteComes ++ Move.readFails :: []) := by decide

theorem witness_DecFrame : ∃ t, exec .dec (listening [0x01#8, 0x00#8] (given 2 [Move.taken])) = .next t := completes (by decide)

theorem witness_DecTakesBytesInOrder :
    (∀ m ∈ (listening [0x01#8] (given 1 [])).env, ∀ bytes, m ≠ Move.wire bytes) ∧
    ∃ t, exec .dec (listening [0x01#8] (given 1 [])) = .next t :=
  ⟨by simp [listening, given, Move.byteComes], completes (by decide)⟩

theorem witness_DecodeRecoversWhatEncodeBuilt :
    [0xAA#8, 0xBB#8].length ≤ 250 ∧ State.reset.status.busy = false ∧
    (listening [0x01#8, 0x05#8, 0x00#8, 0xAA#8, 0xBB#8, 0x07#8, 0xEC#8, 0x55#8] []).rxStream =
      outboundFrame [0xAA#8, 0xBB#8] true 0x07#8 ++ [0x55#8] ∧
    (listening [] (given 7 [Move.taken])).env = List.replicate (2 + 4 + true.toNat) Move.byteComes ++ Move.taken :: [] := by decide

/-- A bit of the type byte, and a bit of the checksum byte (V41, V39). -/
theorem witness_SingleBitFlipsAreCaught :
    State.reset.status.busy = false ∧ [0x00#8, 0xAA#8, 0xBB#8].length + 1 ≤ 255 ∧
    [0x00#8, 0xAA#8, 0xBB#8, 0xEA#8] = [0x00#8, 0xAA#8, 0xBB#8] ++ [checksum (BitVec.ofNat 8 (3 + 1) :: [0x00#8, 0xAA#8, 0xBB#8])] ∧
    [0x80#8, 0xAA#8, 0xBB#8, 0xEA#8] = [0x00#8, 0xAA#8, 0xBB#8, 0xEA#8].set 0 (0x00#8 ^^^ (1#8 <<< 7)) ∧
    [0x00#8, 0xAA#8, 0xBB#8, 0xEB#8] = [0x00#8, 0xAA#8, 0xBB#8, 0xEA#8].set 3 (0xEA#8 ^^^ (1#8 <<< 0)) ∧
    (listening [0x01#8, 0x04#8, 0x80#8, 0xAA#8, 0xBB#8, 0xEA#8] []).rxStream =
      frameBytes [0x80#8, 0xAA#8, 0xBB#8, 0xEA#8] ++ [] ∧
    (listening [] (given 6 [Move.taken])).env = List.replicate (4 + 2) Move.byteComes ++ Move.taken :: [] := by decide

/-- A block in a read call, at `pos`, with a length field, one more byte in the stream, and one byte in `RXBUF[0]`. -/
def inCall (p : Phase) (pos : Nine) (len acc first : Byte) (env : List Move) : State :=
  { busyIn p env with pos := pos, rxcnt := pos, len := len, acc := acc, rxStream := [0x00#8], mem := cells 0x400 [first] }

/-- One witness for each row of the table. -/
theorem witness_DecTransitionTable :
    ((idle [.present 0x40000000#32]).phase = .idle ∧ (idle []).status.busy = false) ∧
    ((inCall .dHdr 0#9 0#8 0xFF#8 0x00#8 []).rxcnt = 0#9 ∧ (inCall .dHdr 1#9 0#8 0xFF#8 0x01#8 []).rxcnt = 1#9 ∧
      (inCall .dHdr 1#9 0#8 0xFF#8 0x02#8 []).byte? .rxbuf 0 = some 0x02#8 ∧
      (inCall .dHdr 1#9 0#8 0xFF#8 0x01#8 []).byte? .rxbuf 0 = some 0x01#8 ∧
      (inCall .dHdr 1#9 0#8 0xFF#8 0x01#8 [Move.byteComes]).env = Move.byteComes :: []) ∧
    ((inCall .dBody 255#9 0xFF#8 0x00#8 0x01#8 []).pos.toNat ≤ (0xFF#8).toNat ∧
      (inCall .dBody 256#9 0xFF#8 0x00#8 0x01#8 []).pos.toNat = (0xFF#8).toNat + 1 ∧
      (inCall .dBody 256#9 0xFF#8 0x00#8 0x01#8 []).acc = 0x00#8 ∧ (inCall .dBody 256#9 0xFF#8 0x01#8 0x01#8 []).acc ≠ 0x00#8) ∧
    ((busyIn .dHdr [Move.deadline]).env = Move.deadline :: [] ∧ (busyIn .dBody [Move.readFails]).env = Move.readFails :: [] ∧
      (busyIn .dAck [Move.taken]).env = Move.taken :: [] ∧ (busyIn .dNack [Move.writeFails]).env = Move.writeFails :: [] ∧
      (busyIn .dAck [.rx ⟨true, true, true⟩]).env = .rx ⟨true, true, true⟩ :: [] ∧
      (busyIn .dBody [.tx ⟨true, true⟩]).env = .tx ⟨true, true⟩ :: []) := by decide

/-! ### Every statement's hypotheses can be met: the wire, the host, reset -/

theorem witness_WireUnitsJoinTheStream : encode (.wireFrame [0x13#8, 0xEE#8]) = .wire [0x01#8, 0x02#8, 0x13#8, 0xEE#8] ∧
    encode .wireAck = .wire [0x06#8] ∧ encode .wireNack = .wire [0x15#8] := by decide

/-- The first address and the last. -/
theorem witness_HostReadsRegisters :
    (built [.hread 0x000#12]).status.busy = false ∧ (built [.hread 0x000#12]).env = .hread 0x000#12 :: [] ∧ (0x000#12).toNat = 0 ∧
    0x0002#16 = 0#12 ++ BitVec.ofBool (built []).status.xerr ++ BitVec.ofBool (built []).status.cmderr ++
      BitVec.ofBool (built []).status.done ++ BitVec.ofBool (built []).status.busy ∧
    (0x008#12).toNat = 8 ∧ 0x0000#16 = 0#7 ++ (built []).rxcnt := by decide

/-- The last byte of each memory. -/
theorem witness_HostReadsBytes :
    (built []).status.busy = false ∧ (built [.hread 0x205#12]).env = .hread 0x205#12 :: [] ∧
    (249 < Space.pay.size ∧ (0x1F9#12).toNat = Space.pay.base + 249) ∧
    (256 < Space.txbuf.size ∧ (0x300#12).toNat = Space.txbuf.base + 256) ∧
    (256 < Space.rxbuf.size ∧ (0x500#12).toNat = Space.rxbuf.base + 256) := by decide

theorem witness_HostWritesPayload :
    (built [.hwrite 0x1F9#12 0x12CC#16]).status.busy = false ∧
    (built [.hwrite 0x1F9#12 0x12CC#16]).env = .hwrite 0x1F9#12 0x12CC#16 :: [] ∧ (0x1F9#12).toNat = 0x100 + 249 ∧
    (0x100#12).toNat = 0x100 + 0 := by decide

/-- The edges of every range that is refused. -/
theorem witness_RefusedHostAccesses :
    ((busyIn .tFrame [.hwrite 0x1F9#12 0#16]).env = .hwrite 0x1F9#12 0#16 :: [] ∧ (busyIn .tFrame []).status.busy = true ∧
      0x100 ≤ (0x1F9#12).toNat ∧ (0x1F9#12).toNat ≤ 0x1F9) ∧
    ((idle [.hwrite 0x0FF#12 0#16]).env = .hwrite 0x0FF#12 0#16 :: [] ∧ (0x0FF#12).toNat < 0x100 ∧ 0x1F9 < (0x1FA#12).toNat) ∧
    ((idle [.hread 0x009#12]).env = .hread 0x009#12 :: [] ∧ 8 < (0x009#12).toNat ∧ (0x009#12).toNat < 0x100 ∧
      0x1F9 < (0x1FA#12).toNat ∧ (0x1FA#12).toNat < 0x200 ∧ 0x300 < (0x301#12).toNat ∧ (0x301#12).toNat < 0x400 ∧
      0x500 < (0x501#12).toNat) := by decide

theorem witness_BusyHostReads :
    (busyIn .dHdr [.hread 0x001#12]).status.busy = true ∧ (busyIn .dHdr [.hread 0x001#12]).env = .hread 0x001#12 :: [] ∧
    (2 ≤ (0x002#12).toNat ∧ (0x002#12).toNat ≤ 8) ∧ (0x100 ≤ (0x1F9#12).toNat ∧ (0x1F9#12).toNat ≤ 0x1F9) ∧
    (0x200 ≤ (0x300#12).toNat ∧ (0x300#12).toNat ≤ 0x300) ∧ (0x400 ≤ (0x500#12).toNat ∧ (0x500#12).toNat ≤ 0x500) := by decide

theorem witness_AckWaitOutcomes :
    State.reset.status.busy = false ∧ (listening [0x15#8, 0x01#8] []).rxStream = 0x15#8 :: [0x01#8] ∧
    (idle [.ackWait ⟨true, false, false⟩]).env = .ackWait ⟨true, false, false⟩ :: [] ∧
    (idle [.ackWait ⟨false, true, false⟩]).env = .ackWait ⟨false, true, false⟩ :: [] ∧
    (idle [.ackWait ⟨false, false, true⟩]).env = .ackWait ⟨false, false, true⟩ :: [] := by decide

/-- What a call returns, and the two streams after it. -/
def returned (r : CallResult) : Option (CallReturn × List Byte × List Byte) :=
  match r with
  | .next (t, c) => some (c, t.txStream, t.rxStream)
  | .fault _ => none
  | .refused _ => none

theorem returned_next {r : CallResult} {c : CallReturn} {xs ys : List Byte} (h : returned r = some (c, xs, ys)) :
    ∃ t, r = .next (t, c) := by
  cases r with
  | next p =>
    obtain ⟨t, c'⟩ := p
    simp only [returned, Option.some.injEq, Prod.mk.injEq] at h
    exact ⟨t, by rw [h.1]⟩
  | fault f => cases h
  | refused e => cases h

/-- G1: one command with a response. -/
theorem test_call_with_response :
    returned (sendCommandAwaitResponse [0xAA#8, 0xBB#8] false
      (listening [0x06#8, 0x01#8, 0x05#8, 0x01#8, 0x07#8, 0x05#8, 0x00#8, 0xF9#8]
        (List.replicate 6 Move.taken ++ .ackWait ⟨true, false, false⟩ :: given 7 [Move.taken]))) =
      some (.returned [0x01#8, 0x07#8, 0x05#8, 0x00#8] .ok,
        [0x01#8, 0x04#8, 0x00#8, 0xAA#8, 0xBB#8, 0xEA#8, 0x06#8], []) := by decide

/-- G4: the peer answers NACK, and no response is decoded. -/
theorem test_call_with_nack :
    returned (sendCommandAwaitResponse [0x10#8] true
      (listening [0x15#8, 0x01#8, 0x03#8, 0x01#8, 0x77#8, 0x8A#8]
        (List.replicate 6 Move.taken ++ [.ackWait ⟨true, false, false⟩]))) =
      some (.returned [] .noack, [0x01#8, 0x04#8, 0x00#8, 0x10#8, 0x00#8, 0xEB#8],
        [0x01#8, 0x03#8, 0x01#8, 0x77#8, 0x8A#8]) := by decide

/-- R273, R272: after a failed `SEND` the call with a response goes on to its ACK wait, the call without one ends. -/
theorem test_call_after_failed_send :
    returned (sendCommandAwaitResponse [0x10#8] false (listening [0x15#8] [Move.writeFails, .ackWait ⟨true, false, false⟩])) =
      some (.returned [] .noack, [], []) ∧
    returned (sendCommandNoResponse [0x10#8] (listening [0x15#8] [Move.writeFails, .ackWait ⟨true, false, false⟩])) =
      some (.returned [] .xfail, [], [0x15#8]) := by decide

/-- R248: a call whose `ENC` is refused right after reset stays in `WAIT`. -/
theorem test_call_waits_after_refusal : returned (whenDone (execEnc 251#9 State.reset) receiveNextPushedFrame) =
    some (.waiting, [], []) := by decide

theorem witness_NoDecodeAfterNoack : ∃ s t, sendCommandAwaitResponse [0x10#8] true s = .next (t, .returned [] .noack) :=
  ⟨_, returned_next test_call_with_nack⟩

theorem witness_AwaitResponseReturnsTheResponse :
    State.reset.status.busy = false ∧ [0xAA#8] ≠ [] ∧ [0xAA#8].length ≤ 250 ∧
    [0x01#8, 0x77#8, 0x8A#8] = [0x01#8, 0x77#8] ++ [checksum (BitVec.ofNat 8 (2 + 1) :: [0x01#8, 0x77#8])] ∧
    (listening [0x06#8, 0x01#8, 0x03#8, 0x01#8, 0x77#8, 0x8A#8] []).rxStream =
      0x06#8 :: (frameBytes [0x01#8, 0x77#8, 0x8A#8] ++ []) ∧
    (listening [] (List.replicate 5 Move.taken ++ .ackWait ⟨true, false, false⟩ :: given 5 [Move.taken])).env =
      List.replicate (1 + 4 + false.toNat) Move.taken ++ .ackWait ⟨true, false, false⟩ ::
        (List.replicate (3 + 2) Move.byteComes ++ Move.taken :: []) := by decide

theorem witness_ResetTakesTheResetState : (busyIn .dBody [.reset]).env = .reset :: [] := by decide

/-! ### Every statement's hypotheses can be met: the invariants -/

theorem witness_StepsKeepTheFlags : (busyIn .dHdr [Move.deadline]).flagsOk = true ∧
    ∃ t, step (busyIn .dHdr [Move.deadline]) = .next t := ⟨by decide, completes (by decide)⟩

theorem witness_StepsKeepTheCodes : (busyIn .dHdr [Move.deadline]).codesOk = true ∧
    ∃ t, step (busyIn .dHdr [Move.deadline]) = .next t := ⟨by decide, completes (by decide)⟩

theorem witness_StepsKeepTheMemoryCanonical : Memory.wf (built []).mem = true ∧
    ∃ t, step (built [.hwrite 0x1F9#12 0x12CC#16]) = .next t := ⟨by decide, completes (by decide)⟩

theorem witness_StepsKeepTheTracker : (built [.present 0x30000000#32]).trackerOk = true ∧
    ∃ t, step (built [.present 0x30000000#32]) = .next t := ⟨by decide, completes (by decide)⟩

theorem witness_StepsKeepTheFrameValid : (built [.present 0x28000000#32]).txbufOk ∧
    ∃ t, step (built [.present 0x28000000#32]) = .next t := by
  refine ⟨⟨by decide, fun _ => ⟨0x04#8, [0x04#8, 0x00#8, 0xAA#8, 0xBB#8], ?_⟩, fun h => ?_⟩, completes (by decide)⟩
  · decide
  · exact absurd h (by decide)

theorem witness_NoStepLeavesTheFieldMap : (inCall .dBody 256#9 0xFF#8 0x00#8 0x01#8 [Move.byteComes]).trackerOk = true := by decide

theorem witness_ErrorBitsAreSticky :
    (∀ rest, (idle [Move.taken]).env ≠ .reset :: rest) ∧ (∃ t, step (idle [Move.taken]) = .next t) ∧
    ({ State.reset with status := ⟨false, true, true, true⟩ } : State).status.cmderr = true :=
  ⟨by simp [idle, Move.taken], completes (by decide), rfl⟩

theorem witness_EventsOnlyGrow : ∃ t, step (built [.present 0x10000204#32]) = .next t := completes (by decide)

theorem witness_HostCannotDisturbABusyBlock :
    (busyIn .tFrame [.hwrite 0x100#12 0x0055#16]).status.busy = true ∧
    (Move.hwrite 0x100#12 0x0055#16).isHost = true ∧ Move.hwrite 0x100#12 0x0055#16 ≠ .reset ∧
    ∃ t, step (busyIn .tFrame [.hwrite 0x100#12 0x0055#16]) = .next t :=
  ⟨by decide, by decide, by decide, completes (by decide)⟩

end Sys2Proof.Machine.Tests
end

section
/-! PROOFS. What an instruction and a step can do, as named cases, and the induction over the steps built on them. -/

namespace Sys2Proof.Machine

variable {c : Params}

/-! ### What happens outside the block -/

/-- The host's accesses, the peer's arrivals and the moves still to come: of the block's state they change at most `PAY`. -/
inductive Outside (c : Params) (s : State) : State → Prop
  | mk (mem : Memory) (stream : List Byte) (log : List HostObs) (env : List Move)
      (hbytes : ∀ sp i, sp ≠ .pay → State.byte? { s with mem := mem } sp i c = s.byte? sp i c) :
      Outside c s { s with mem := mem, rxStream := stream, hostLog := log, env := env }

theorem Outside.setEnv (s : State) (env : List Move) : Outside c s { s with env := env } :=
  .mk s.mem s.rxStream s.hostLog env fun _ _ _ => rfl

theorem Outside.arrived (s : State) (env : List Move) (bytes : List Byte) :
    Outside c s ({ s with env := env }.arrive bytes) :=
  .mk s.mem _ s.hostLog env fun _ _ _ => rfl

theorem Outside.observed (s : State) (env : List Move) (o : HostObs) :
    Outside c s ({ s with env := env }.observe o) :=
  .mk s.mem s.rxStream _ env fun _ _ _ => rfl

theorem Outside.of_hostRead {a : HostAddr} {s t : State} {env : List Move}
    (h : hostRead a { s with env := env } c = .next t) : Outside c s t := by
  obtain ⟨o, rfl⟩ := hostRead_next h
  exact .observed s env o

theorem Outside.of_hostWrite {a : HostAddr} {d : HostData} {s t : State} {env : List Move}
    (h : hostWrite a d { s with env := env } c = .next t) : Outside c s t := by
  rcases hostWrite_next h with ⟨j, _, hj, _, rfl⟩ | rfl
  · refine .mk _ s.rxStream _ env fun sp i hsp => ?_
    rw [byte?_memStore s .pay sp j i _ hj, if_neg fun e => hsp e.1]
  · exact .observed s env _

theorem Outside.of_awaitAck {sig : RxSignals} {s t : State} {env : List Move}
    (h : awaitAck sig { s with env := env } c = .next t) : Outside c s t := by
  obtain ⟨_, ⟨b, rest, _, rfl⟩ | rfl | rfl | rfl⟩ := awaitAck_next h
  · exact .mk s.mem rest _ env fun _ _ _ => rfl
  · exact .observed s env _
  · exact .observed s env _
  · exact .setEnv s env

/-! ### What an instruction can do -/

/-- A command accepted on `s`, with its word, its checks, and the state its first-step effects leave. -/
inductive Started (c : Params) (s : State) : Instr → CmdWord → State → Prop
  | csum (sp : Space) (off cnt : Nine) (hfits : rangeFits sp off cnt c = true) :
      Started c s (csumOf sp off cnt) (commandWord 1#4 false sp.select off cnt)
        ((s.accept (commandWord 1#4 false sp.select off cnt)).startCsum c)
  | enc (seq : Bool) (n : Nine) (hfits : payloadFits n c = true) :
      Started c s (encOf seq n) (commandWord 2#4 seq 0#2 0#9 n)
        ((s.accept (commandWord 2#4 seq 0#2 0#9 n)).startEnc c)
  | send (hbuilt : frameBuilt s = true) :
      Started c s .send (commandWord 3#4 false 0#2 0#9 0#9) (s.accept (commandWord 3#4 false 0#2 0#9 0#9)).startSend
  | dec :
      Started c s .dec (commandWord 4#4 false 0#2 0#9 0#9) ((s.accept (commandWord 4#4 false 0#2 0#9 0#9)).startDec c)
  | ack :
      Started c s .ack (commandWord 5#4 false 0#2 0#9 0#9)
        ((s.accept (commandWord 5#4 false 0#2 0#9 0#9)).startControl c.ackByte)
  | nack :
      Started c s .nack (commandWord 6#4 false 0#2 0#9 0#9)
        ((s.accept (commandWord 6#4 false 0#2 0#9 0#9)).startControl c.nackByte)

/-- An instruction is an arrival of its bytes, or the shared shape of a command with its word, check and start. -/
theorem execWith_shape (c : Params) (i : Instr) (s : State) :
    (∃ bytes, encode i c = .wire bytes ∧ execWith c i s = .next (s.arrive bytes)) ∨
    ∃ w legal start, encode i c = .command w ∧ execWith c i s = command w legal start s c ∧
      (legal s = true → Started c s i w (start (s.accept w))) := by
  cases i with
  | csumTx off cnt => exact .inr ⟨_, _, _, rfl, execCsumTx_command c s off cnt, .csum .txbuf off cnt⟩
  | csumRx off cnt => exact .inr ⟨_, _, _, rfl, execCsumRx_command c s off cnt, .csum .rxbuf off cnt⟩
  | csumPay off cnt => exact .inr ⟨_, _, _, rfl, execCsumPay_command c s off cnt, .csum .pay off cnt⟩
  | enc n => exact .inr ⟨_, _, _, rfl, execEnc_command c s n, .enc false n⟩
  | encS n => exact .inr ⟨_, _, _, rfl, execEncS_command c s n, .enc true n⟩
  | send => exact .inr ⟨_, _, _, rfl, execSend_command c s, .send⟩
  | dec => exact .inr ⟨_, _, _, rfl, execDec_command c s, fun _ => .dec⟩
  | ack => exact .inr ⟨_, _, _, rfl, execAck_command c s, fun _ => .ack⟩
  | nack => exact .inr ⟨_, _, _, rfl, execNack_command c s, fun _ => .nack⟩
  | wireFrame body => exact .inl ⟨_, rfl, rfl⟩
  | wireAck => exact .inl ⟨_, rfl, rfl⟩
  | wireNack => exact .inl ⟨_, rfl, rfl⟩

/-- What an instruction can do. -/
inductive Executed (c : Params) (s : State) (i : Instr) (t : State) : Prop
  | arrived (bytes : List Byte) (hwire : encode i c = .wire bytes) (ht : t = s.arrive bytes)
  | notTaken (hbusy : s.status.busy = true) (ht : t = s)
  | refused (w : CmdWord) (hcmd : encode i c = .command w) (hidle : s.status.busy = false) (ht : t = s.refuse w)
  | ran (w : CmdWord) (u : State) (hcmd : encode i c = .command w) (hidle : s.status.busy = false)
      (hstart : Started c s i w u) (hrun : runCommand u c = .next t)

theorem execWith_next {i : Instr} {s t : State} (h : execWith c i s = .next t) : Executed c s i t := by
  rcases execWith_shape c i s with ⟨bytes, hwire, he⟩ | ⟨w, legal, start, hcmd, he, hstart⟩ <;> rw [he] at h
  · exact .arrived bytes hwire (Host.Outcome.next.inj h).symm
  · rcases command_next h with ⟨hb, ht⟩ | ⟨hb, _, ht⟩ | ⟨hb, hl, hr⟩
    · exact .notTaken hb ht
    · exact .refused w hcmd hb ht
    · exact .ran w _ hcmd hb (hstart hl) hr

/-- What an instruction of this hardware can do. -/
theorem exec_next {i : Instr} {s t : State} (h : exec i s = .next t) : Executed Config.hw s i t :=
  execWith_next (exec_eq_execWith i s ▸ h)

/-! ### What a step can do -/

/-- What one step can do: the block is left alone, a word is refused, a command runs, the block makes a transition, or it is
reset. -/
inductive Stepped (c : Params) (s t : State) : Prop
  | outside (h : Outside c s t)
  | refused (env : List Move) (w : CmdWord) (hidle : s.status.busy = false) (ht : t = { s with env := env }.refuse w)
  | ran (env : List Move) (i : Instr) (w : CmdWord) (u : State) (hidle : s.status.busy = false)
      (hstart : Started c { s with env := env } i w u) (hrun : runCommand u c = .next t)
  | ticked (h : tick s c = .next t)
  | reset (rest : List Move) (henv : s.env = .reset :: rest) (ht : t = { s with env := rest }.resetBlock c)

theorem Stepped.of_executed {i : Instr} {s t : State} {env : List Move} (h : Executed c { s with env := env } i t) :
    Stepped c s t := by
  cases h with
  | arrived bytes _ ht => exact .outside (ht ▸ .arrived s env bytes)
  | notTaken _ ht => exact .outside (ht ▸ .setEnv s env)
  | refused w _ hidle ht => exact .refused env w hidle ht
  | ran w u _ hidle hstart hrun => exact .ran env i w u hidle hstart hrun

theorem stepWith_next {s t : State} (h : stepWith c s = .next t) : Stepped c s t := by
  rcases stepVia_next h with ⟨w, env, h⟩ | ⟨a, env, h⟩ | ⟨a, d, env, h⟩ | ⟨sig, env, h⟩ | ⟨rest, he, ht⟩ |
    ⟨bytes, rest, h⟩ | h
  · rcases presentWord_next h with ⟨_, rfl⟩ | ⟨_, i, _, hi⟩ | ⟨hb, _, ht⟩
    · exact .outside (.setEnv s env)
    · exact .of_executed (execWith_next hi)
    · exact .refused env w hb ht
  · exact .outside (.of_hostRead h)
  · exact .outside (.of_hostWrite h)
  · exact .outside (.of_awaitAck h)
  · exact .reset rest he ht
  · rcases wireStep_next h with ⟨_, rfl⟩ | ⟨i, left, _, hi⟩ | ⟨b, bs, _, _, _, rfl⟩
    · exact .outside (.setEnv s rest)
    · exact .of_executed (execWith_next hi)
    · exact .outside (.arrived s _ [b])
  · exact .ticked h

/-! ### The induction over the transitions of a command, and over the steps -/

/-- `P` is kept by what happens outside the block and by every transition. -/
structure KeptByTransitions (c : Params) (P : State → Prop) : Prop where
  outside : ∀ {s t : State}, P s → Outside c s t → P t
  tick : ∀ {s t : State}, P s → tick s c = .next t → P t

/-- `P` is kept by every part of a step but a reset. -/
structure KeptBySteps (c : Params) (P : State → Prop) : Prop extends KeptByTransitions c P where
  start : ∀ {s u : State} {i : Instr} {w : CmdWord}, P s → s.status.busy = false → Started c s i w u → P u
  refuse : ∀ {s : State} {w : CmdWord}, P s → P (s.refuse w)

/-- A transition is a byte step, an answer of the transport, or outside the block. -/
theorem KeptByTransitions.of_parts {P : State → Prop}
    (outside : ∀ {s t : State}, P s → Outside c s t → P t)
    (csum : ∀ {s t : State}, P s → s.phase = .cRun → csumStep s c = .next t → P t)
    (enc : ∀ {s t : State}, P s → s.phase = .eRun → encStep s c = .next t → P t)
    (tx : ∀ {sig : TxSignals} {s t : State}, P s → txAnswer sig s c = .next t → P t)
    (rx : ∀ {sig : RxSignals} {s t : State}, P s → rxAnswer sig s c = .next t → P t) : KeptByTransitions c P where
  outside := outside
  tick {s t} hs h := by
    have hsched (env : List Move) : P { s with env := env } := outside hs (.setEnv s env)
    rcases tick_next h with ⟨hp, env, h⟩ | ⟨hp, env, h⟩ | ⟨env, rfl⟩ | ⟨sig, env, h⟩ | ⟨sig, env, h⟩ | ⟨bytes, env, rfl⟩
    · exact csum (hsched env) hp h
    · exact enc (hsched env) hp h
    · exact hsched env
    · exact tx (hsched env) h
    · exact rx (hsched env) h
    · exact outside hs (.arrived s env bytes)

namespace KeptByTransitions

variable {P : State → Prop} (hP : KeptByTransitions c P)

include hP

theorem setEnv {s : State} (hs : P s) (env : List Move) : P { s with env := env } := hP.outside hs (.setEnv s env)

theorem run {s t : State} (hs : P s) (h : runCommand s c = .next t) : P t :=
  drive_keeps (fun _ _ hs _ h => hP.tick hs h) _ hs h

end KeptByTransitions

theorem KeptBySteps.step {P : State → Prop} (hP : KeptBySteps c P) {s t : State} (hs : P s)
    (hreset : ∀ rest, s.env = .reset :: rest → P ({ s with env := rest }.resetBlock c))
    (h : stepWith c s = .next t) : P t := by
  cases stepWith_next h with
  | outside h => exact hP.outside hs h
  | refused env w _ ht => exact ht ▸ hP.refuse (hP.setEnv hs env)
  | ran env i w u hidle hstart hrun => exact hP.run (hP.start (hP.setEnv hs env) hidle hstart) hrun
  | ticked h => exact hP.tick hs h
  | reset rest henv ht => exact ht ▸ hreset rest henv

end Sys2Proof.Machine
end

section
/-! PROOFS. The registers a host can see of a command in progress: `STATUS`, `RESULT` and the events. A transition either goes
on or ends the command; from that follow R28, R29, R38, R49, R308 and R311. -/

namespace Sys2Proof.Machine

variable {c : Params}

/-! ### Going on, and ending -/

/-- The transition leaves the flags and `RESULT`, starts and ends no command, and adds no `done`. -/
structure GoesOn (s t : State) : Prop where
  status : t.status = s.status
  result : t.result = s.result
  phase : t.phase = .idle ↔ s.phase = .idle
  pend : t.pend = s.pend ∨ t.pend.ofBlock = true
  events : ∃ mid, (∀ e ∈ mid, e.isDone = false) ∧ t.events = s.events ++ mid

/-- The transition ends the command in progress with the code it leaves in `RESULT`: the last event is its `done`. -/
structure Ends (s t : State) : Prop where
  busyPhase : s.phase ≠ .idle
  phase : t.phase = .idle
  status : t.status = s.status.finished t.result
  result : t.result = s.pend ∨ t.result.ofBlock = true
  pend : t.pend = s.pend
  events : ∃ mid, (∀ e ∈ mid, e.isDone = false) ∧ t.events = s.events ++ (mid ++ [.done t.result])

/-- What a transition can do to the registers a host sees. -/
def Progress (s t : State) : Prop := GoesOn s t ∨ Ends s t

theorem GoesOn.of_same {s t : State} (hstatus : t.status = s.status) (hresult : t.result = s.result)
    (hphase : t.phase = .idle ↔ s.phase = .idle) (hpend : t.pend = s.pend) (hevents : t.events = s.events) : GoesOn s t :=
  ⟨hstatus, hresult, hphase, .inl hpend, [], by simp, by simp [hevents]⟩

theorem GoesOn.refl (s : State) : GoesOn s s := .of_same rfl rfl .rfl rfl rfl

theorem GoesOn.emit (s : State) {e : Event} (he : e.isDone = false) : GoesOn s (s.emit e) :=
  ⟨rfl, rfl, .rfl, .inl rfl, [e], by simp [he], rfl⟩

theorem GoesOn.received (s : State) (b : Byte) : GoesOn s (received s b) :=
  ⟨rfl, rfl, .rfl, .inl rfl, [.rx b], by simp [Event.isDone], rfl⟩

theorem GoesOn.of_outside {s t : State} (h : Outside c s t) : GoesOn s t := by
  cases h with
  | mk => exact .of_same rfl rfl .rfl rfl rfl

/-- A command whose first transition goes on goes on, or ends, with what follows. -/
theorem GoesOn.trans {s u t : State} (hsu : GoesOn s u) (hut : GoesOn u t) : GoesOn s t where
  status := hut.status.trans hsu.status
  result := hut.result.trans hsu.result
  phase := hut.phase.trans hsu.phase
  pend := by
    rcases hut.pend with h | h
    · exact h ▸ hsu.pend
    · exact .inr h
  events := by
    obtain ⟨mid, hmid, hu⟩ := hsu.events
    obtain ⟨mid', hmid', ht⟩ := hut.events
    exact ⟨mid ++ mid', List.forall_mem_append.mpr ⟨hmid, hmid'⟩, by rw [ht, hu, List.append_assoc]⟩

/-- `finish` ends a command (60_exceptions.md R308), after whatever the transition did before it. -/
theorem Ends.of_finish {s u : State} {code : ResultCode} (hphase : s.phase ≠ .idle) (hsu : GoesOn s u) (hpend : u.pend = s.pend)
    (hcode : code = s.pend ∨ code.ofBlock = true) : Ends s (u.finish code) where
  busyPhase := hphase
  phase := rfl
  status := congrArg (Status.finished · code) hsu.status
  result := hcode
  pend := hpend
  events := by
    obtain ⟨mid, hmid, hu⟩ := hsu.events
    exact ⟨mid, hmid, by simp [hu]⟩

/-- Progress after a part that goes on with the same code pending. -/
theorem Progress.after {s u t : State} (hut : Progress u t) (hsu : GoesOn s u) (hpend : u.pend = s.pend) : Progress s t := by
  rcases hut with h | h
  · exact .inl (hsu.trans h)
  · refine .inr ⟨mt hsu.phase.mpr h.busyPhase, h.phase, hsu.status ▸ h.status, hpend ▸ h.result, h.pend.trans hpend, ?_⟩
    obtain ⟨mid, hmid, hu⟩ := hsu.events
    obtain ⟨mid', hmid', ht⟩ := h.events
    exact ⟨mid ++ mid', List.forall_mem_append.mpr ⟨hmid, hmid'⟩, by simp [ht, hu]⟩

/-! ### Each part of a transition goes on or ends -/

theorem csumStep_progress {s t : State} (hp : s.phase = .cRun) (h : csumStep s c = .next t) : Progress s t := by
  rcases csumStep_next h with ⟨_, b, _, _, _, rfl⟩ | ⟨_, rfl⟩
  · exact .inl (.of_same rfl rfl .rfl rfl rfl)
  · exact .inr (.of_finish (by simp [hp]) (.refl s) rfl (.inr rfl))

theorem encStep_progress {s t : State} (hp : s.phase = .eRun) (h : encStep s c = .next t) : Progress s t := by
  obtain ⟨_, ⟨_, rfl⟩ | ⟨_, rfl⟩ | ⟨_, rfl⟩ | ⟨_, v, _, rfl⟩ | ⟨_, rfl⟩ | ⟨_, rfl⟩⟩ := encStep_next h
  case inr.inr.inr.inr.inr =>
    exact .inr (.of_finish (by simp [hp]) (.of_same rfl rfl .rfl rfl rfl) rfl (.inr rfl))
  all_goals exact .inl (.of_same rfl rfl .rfl rfl rfl)

/-- The byte on offer is sent and the command goes on or ends, the transport fails, or nothing happens. -/
theorem txPut_progress {sig : TxSignals} {b : Byte} {s : State} {onSent : State → State} (hp : s.phase ≠ .idle)
    (hsent : Progress s (onSent (s.emit (.tx b)))) : Progress s (txPut sig b s onSent) := by
  rcases txPut_cases sig b s onSent with ⟨_, he⟩ | ⟨_, he⟩ | ⟨_, he⟩ <;> rw [he]
  · exact hsent
  · exact .inr (.of_finish hp (.emit s rfl) rfl (.inr rfl))
  · exact .inl (.refl s)

theorem txAnswer_progress {sig : TxSignals} {s t : State} (h : txAnswer sig s c = .next t) : Progress s t := by
  have moved (b : Byte) (p : Nine) : GoesOn s { s.emit (.tx b) with pos := p } :=
    (GoesOn.emit s rfl).trans (.of_same rfl rfl .rfl rfl rfl)
  rcases txAnswer_next h with ⟨hp, b, _, rfl⟩ | ⟨hp, rfl⟩ | ⟨hp, rfl⟩ | ⟨hp, rfl⟩ | ⟨_, _, _, _, rfl⟩
  · refine txPut_progress (by simp [hp]) ?_
    rcases frameByteSent_cases (s.emit (.tx b)) with ⟨_, he⟩ | ⟨_, he⟩ <;> rw [he]
    · exact .inr (.of_finish (by simp [hp]) (moved b _) rfl (.inr rfl))
    · exact .inl (moved b _)
  · exact txPut_progress (by simp [hp]) (.inr (.of_finish (by simp [hp]) (moved _ _) rfl (.inr rfl)))
  · exact txPut_progress (by simp [hp]) (.inr (.of_finish (by simp [hp]) (.emit s rfl) rfl (.inr rfl)))
  · exact txPut_progress (by simp [hp]) (.inr (.of_finish (by simp [hp]) (.emit s rfl) rfl (.inl rfl)))
  · exact .inl (.refl _)

theorem headerByte_progress {b : Byte} {s t : State} (hp : s.phase = .dHdr) (h : headerByte b s c = .next t) :
    Progress s t := by
  rcases headerByte_next h with ⟨_, rfl⟩ | ⟨_, h⟩
  · exact .inl (.received s b)
  · have taken : GoesOn s { received s b with len := b, acc := s.acc ^^^ b } :=
      (GoesOn.received s b).trans (.of_same rfl rfl .rfl rfl rfl)
    obtain ⟨first, _, ⟨_, rfl⟩ | ⟨_, _, rfl⟩ | ⟨_, _, rfl⟩⟩ := headerComplete_next h
    · exact .inr (.of_finish (by simp [hp]) taken rfl (.inr rfl))
    · exact .inl (taken.trans ⟨rfl, rfl, by simp [received, hp], .inr rfl, [], by simp, by simp⟩)
    · exact .inl (taken.trans ⟨rfl, rfl, by simp [received, hp], .inl rfl, [.arm b], by simp [Event.isDone], rfl⟩)

theorem bodyByte_progress {b : Byte} {s t : State} (hp : s.phase = .dBody) (h : bodyByte b s c = .next t) :
    Progress s t := by
  obtain ⟨_, ⟨_, rfl⟩ | ⟨_, _, rfl⟩ | ⟨_, _, rfl⟩⟩ := bodyByte_next h
  · exact .inl ((GoesOn.received s b).trans (.of_same rfl rfl .rfl rfl rfl))
  · exact .inl ((GoesOn.received s b).trans (.of_same rfl rfl (by simp [received, hp]) rfl rfl))
  · exact .inl ((GoesOn.received s b).trans ⟨rfl, rfl, by simp [received, hp], .inr rfl, [], by simp, by simp⟩)

theorem rxAnswer_progress {sig : RxSignals} {s t : State} (h : rxAnswer sig s c = .next t) : Progress s t := by
  have taken (rest : List Byte) : GoesOn s { s with rxStream := rest } := .of_same rfl rfl .rfl rfl rfl
  rcases rxAnswer_next h with rfl | ⟨hp, rfl⟩ | ⟨hp, rfl⟩ | ⟨hp, rfl⟩ | ⟨hp, b, rest, _, h⟩ | ⟨hp, b, rest, _, h⟩
  · exact .inl (.refl _)
  · exact .inr (.of_finish (by rcases hp with hp | hp <;> simp [hp]) (.emit s rfl) rfl (.inr rfl))
  · exact .inr (.of_finish (by simp [hp]) (.emit s rfl) rfl (.inr rfl))
  · exact .inl ⟨rfl, rfl, by simp [bodyTimeout, hp], .inr rfl, [.timeout], by simp [Event.isDone], rfl⟩
  · exact (headerByte_progress (s := { s with rxStream := rest }) hp h).after (taken rest) rfl
  · exact (bodyByte_progress (s := { s with rxStream := rest }) hp h).after (taken rest) rfl

/-- Every transition goes on or ends. -/
theorem tick_progress {s t : State} (h : tick s c = .next t) : Progress s t := by
  have hsched (env : List Move) : GoesOn s { s with env := env } := .of_outside (c := c) (.setEnv s env)
  rcases tick_next h with ⟨hp, env, h⟩ | ⟨hp, env, h⟩ | ⟨env, rfl⟩ | ⟨sig, env, h⟩ | ⟨sig, env, h⟩ | ⟨bytes, env, rfl⟩
  · exact (csumStep_progress (s := { s with env := env }) hp h).after (hsched env) rfl
  · exact (encStep_progress (s := { s with env := env }) hp h).after (hsched env) rfl
  · exact .inl (hsched env)
  · exact (txAnswer_progress h).after (hsched env) rfl
  · exact (rxAnswer_progress h).after (hsched env) rfl
  · exact .inl (.of_outside (c := c) (.arrived s env bytes))

/-- What going on and ending keep, every transition keeps. -/
theorem KeptByTransitions.of_progress {P : State → Prop} (hP : ∀ {s t : State}, P s → Progress s t → P t) :
    KeptByTransitions c P where
  outside hs h := hP hs (.inl (.of_outside h))
  tick hs h := hP hs (tick_progress h)

/-! ### Acceptance -/

/-- The first-step effects of a command: `BUSY`, a phase, and the event `cmd(w)`; `RESULT` stays. -/
structure Begins (s : State) (w : CmdWord) (u : State) : Prop where
  status : u.status = s.status.accepted
  result : u.result = s.result
  phase : u.phase ≠ .idle
  pend : u.pend = s.pend ∨ u.pend.ofBlock = true
  events : ∃ mid, (∀ e ∈ mid, e.isDone = false) ∧ u.events = s.events ++ .cmd w :: mid

theorem Started.begins {s u : State} {i : Instr} {w : CmdWord} (h : Started c s i w u) : Begins s w u := by
  cases h with
  | dec => exact ⟨rfl, rfl, by simp, .inr rfl, [.arm 2#8], by simp [Event.isDone], by simp⟩
  | csum | enc | send | ack | nack => exact ⟨rfl, rfl, by simp, .inl rfl, [], by simp, rfl⟩

/-! ### The flags (10_state.md R29, R49) -/

theorem flagsOk_iff {s : State} :
    s.flagsOk = true ↔ (s.status.busy = true ↔ s.phase ≠ .idle) ∧ ¬ (s.status.busy = true ∧ s.status.done = true) := by
  cases hb : s.status.busy <;> simp [State.flagsOk, hb]

theorem flagsOk_progress {s t : State} (hs : s.flagsOk = true) (h : Progress s t) : t.flagsOk = true := by
  rw [flagsOk_iff] at hs ⊢
  rcases h with h | h
  · simpa [h.status, h.phase] using hs
  · simp [h.status, h.phase]

theorem flagsOk_kept : KeptBySteps c fun s => s.flagsOk = true where
  toKeptByTransitions := .of_progress flagsOk_progress
  start _ _ h := flagsOk_iff.mpr (by simp [h.begins.status, h.begins.phase])
  refuse hs := flagsOk_iff.mpr (by simpa using flagsOk_iff.mp hs)

/-- Settles O52: a transition of a command keeps the flags or ends with them as `finish` leaves them. -/
theorem stepsKeepTheFlags : Obligations.StepsKeepTheFlags := by
  intro s t hs h
  exact flagsOk_kept.step hs (fun _ _ => rfl) (step_eq_stepWith s ▸ h)

/-! ### The codes (10_state.md R28) -/

theorem codesOk_iff {s : State} : s.codesOk = true ↔ s.result.ofBlock = true ∧ s.pend.ofBlock = true := by
  simp [State.codesOk]

theorem codesOk_progress {s t : State} (hs : s.codesOk = true) (h : Progress s t) : t.codesOk = true := by
  obtain ⟨hresult, hpend⟩ := codesOk_iff.mp hs
  rw [codesOk_iff]
  rcases h with h | h
  · exact ⟨h.result ▸ hresult, h.pend.elim (· ▸ hpend) id⟩
  · exact ⟨h.result.elim (· ▸ hpend) id, h.pend ▸ hpend⟩

theorem codesOk_kept : KeptBySteps c fun s => s.codesOk = true where
  toKeptByTransitions := .of_progress codesOk_progress
  start hs _ h := by
    obtain ⟨hresult, hpend⟩ := codesOk_iff.mp hs
    exact codesOk_iff.mpr ⟨h.begins.result ▸ hresult, h.begins.pend.elim (· ▸ hpend) id⟩
  refuse hs := hs

/-- Settles O53: `finish` is given the code pending or a code of the block, and the code pending is one itself. -/
theorem stepsKeepTheCodes : Obligations.StepsKeepTheCodes := by
  intro s t hs h
  exact codesOk_kept.step hs (fun _ _ => rfl) (step_eq_stepWith s ▸ h)

/-! ### The sticky bits (10_state.md R29; 70_reset_and_hazards.md R342) -/

/-- The error bits set in `st` are set in `s`. -/
def ErrorBitsFrom (st : Status) (s : State) : Prop :=
  (st.cmderr = true → s.status.cmderr = true) ∧ (st.xerr = true → s.status.xerr = true)

theorem errorBits_progress {st : Status} {s t : State} (hs : ErrorBitsFrom st s) (h : Progress s t) : ErrorBitsFrom st t := by
  obtain ⟨hcmd, hx⟩ := hs
  rcases h with h | h
  · exact ⟨h.status ▸ hcmd, h.status ▸ hx⟩
  · exact ⟨fun e => by simp [h.status, hcmd e], fun e => by simp [h.status, hx e]⟩

theorem errorBits_kept (st : Status) : KeptBySteps c (ErrorBitsFrom st) where
  toKeptByTransitions := .of_progress errorBits_progress
  start hs _ h := by
    unfold ErrorBitsFrom
    rw [h.begins.status]
    exact hs
  refuse hs := ⟨fun _ => rfl, hs.2⟩

/-- Settles O58: only a reset clears an error bit. -/
theorem errorBitsAreSticky : Obligations.ErrorBitsAreSticky := by
  intro s t hnoreset h
  exact (errorBits_kept s.status).step ⟨id, id⟩ (fun rest he => absurd he (hnoreset rest)) (step_eq_stepWith s ▸ h)

/-! ### The events (10_state.md R38; 20_memory.md R65) -/

theorem events_progress {before : List Event} {s t : State} (hs : before <+: s.events) (h : Progress s t) :
    before <+: t.events := by
  rcases h with h | h <;> obtain ⟨mid, _, he⟩ := h.events <;> rw [he] <;> exact hs.trans (List.prefix_append _ _)

theorem events_kept (before : List Event) : KeptBySteps c fun s => before <+: s.events where
  toKeptByTransitions := .of_progress events_progress
  start hs _ h := by
    obtain ⟨mid, _, he⟩ := h.begins.events
    exact he ▸ hs.trans (List.prefix_append _ _)
  refuse hs := hs.trans (List.prefix_append _ _)

/-- Settles O59: every part of a step appends to the events. -/
theorem eventsOnlyGrow : Obligations.EventsOnlyGrow := by
  intro s t h
  exact (events_kept s.events).step List.prefix_rfl (fun _ _ => List.prefix_append _ _) (step_eq_stepWith s ▸ h)

/-! ### One result, at the end (10_state.md R28; 60_exceptions.md R308, R311) -/

/-- `t` is in the run of the command `w` accepted on `s`: still busy with no result, or ended with one. -/
def InRun (s : State) (w : CmdWord) (t : State) : Prop :=
  ∃ mid, (∀ e ∈ mid, e.isDone = false) ∧
    ((t.phase ≠ .idle ∧ t.status.busy = true ∧ t.result = s.result ∧ t.events = s.events ++ .cmd w :: mid) ∨
     (t.phase = .idle ∧ t.status.busy = false ∧ t.status.done = true ∧
       t.events = s.events ++ .cmd w :: (mid ++ [.done t.result])))

theorem Begins.inRun {s u : State} {w : CmdWord} (h : Begins s w u) : InRun s w u := by
  obtain ⟨mid, hmid, he⟩ := h.events
  exact ⟨mid, hmid, .inl ⟨h.phase, by simp [h.status], h.result, he⟩⟩

/-- While the command is in progress it goes on with no result, or ends with its one result. -/
theorem InRun.progress {s u t : State} {w : CmdWord} (hu : InRun s w u) (hp : u.phase ≠ .idle) (h : Progress u t) :
    InRun s w t := by
  obtain ⟨mid, hmid, ⟨_, hbusy, hresult, hu⟩ | ⟨hidle, _⟩⟩ := hu
  · rcases h with h | h <;> obtain ⟨mid', hmid', ht⟩ := h.events <;>
      refine ⟨mid ++ mid', List.forall_mem_append.mpr ⟨hmid, hmid'⟩, ?_⟩
    · exact .inl ⟨mt h.phase.mp hp, h.status ▸ hbusy, h.result.trans hresult, by simp [ht, hu]⟩
    · exact .inr ⟨h.phase, by simp [h.status], by simp [h.status], by simp [ht, hu]⟩
  · exact absurd hidle hp

/-- Settles O12: along the run of the command its transitions go on until one ends it. -/
theorem commandsEndOnce : Obligations.CommandsEndOnce := by
  intro s t i w hcmd hidle h
  cases exec_next h with
  | arrived bytes hwire => simp [hcmd] at hwire
  | notTaken hbusy => simp [hidle] at hbusy
  | refused w' hcmd' _ ht =>
    obtain rfl : w = w' := by simpa [hcmd] using hcmd'
    exact .inl (by simp [ht])
  | ran w' u hcmd' _ hstart hrun =>
    obtain rfl : w = w' := by simpa [hcmd] using hcmd'
    obtain ⟨mid, hmid, ⟨_, h⟩ | ⟨_, h⟩⟩ :=
      drive_keeps (fun _ _ hu hp h => hu.progress hp (tick_progress h)) _ hstart.begins.inRun hrun
    · exact .inr ⟨mid, hmid, .inl h⟩
    · exact .inr ⟨mid, hmid, .inr h⟩

end Sys2Proof.Machine
end

section
/-! PROOFS. The field-position tracker: its condition phase by phase, and that every step keeps it (10_state.md R24, R25, R43). -/

namespace Sys2Proof.Machine

variable {c : Params}

/-! ### The condition, phase by phase -/

/-- What the tracker keeps in every phase (10_state.md R24 to R26). -/
structure Bounds (c : Params) (s : State) : Prop where
  txlen : s.txlen.toNat = 0 ∨ (4 ≤ s.txlen.toNat ∧ s.txlen.toNat ≤ c.maxPayload + 5)
  pos : s.pos.toNat ≤ 257
  rxcnt : s.rxcnt.toNat ≤ 257

section
variable {s : State}

theorem bounds_iff : Bounds c s ↔ s.txlenOk c = true ∧ s.pos.toNat ≤ 257 ∧ s.rxcnt.toNat ≤ 257 :=
  ⟨fun ⟨htx, hpos, hrx⟩ => ⟨by simpa [State.txlenOk] using htx, hpos, hrx⟩,
   fun ⟨htx, hpos, hrx⟩ => ⟨by simpa [State.txlenOk] using htx, hpos, hrx⟩⟩

theorem bounds_of_trackerOk (h : s.trackerOk c = true) : Bounds c s := by
  simp only [State.trackerOk, Bool.and_eq_true, decide_eq_true_eq] at h
  obtain ⟨⟨⟨htx, hpos⟩, hrx⟩, _⟩ := h
  exact bounds_iff.mpr ⟨htx, hpos, hrx⟩

theorem trackerOk_idle_iff (hp : s.phase = .idle) : s.trackerOk c = true ↔ Bounds c s := by
  simp [State.trackerOk, hp, bounds_iff, and_assoc]

theorem trackerOk_cRun_iff (hp : s.phase = .cRun) : s.trackerOk c = true ↔ Bounds c s ∧
    ∃ sp, selected s.bsl = some sp ∧ s.opa.toNat + s.opb.toNat ≤ sp.size c ∧ s.pos.toNat ≤ s.opa.toNat + s.opb.toNat := by
  cases hsel : selected s.bsl <;> simp [State.trackerOk, hp, bounds_iff, and_assoc, hsel]

theorem trackerOk_eRun_iff (hp : s.phase = .eRun) : s.trackerOk c = true ↔ Bounds c s ∧
    s.opb.toNat ≤ c.maxPayload ∧ s.len.toNat = lengthField s.opb.toNat s.sfl ∧ s.pos.toNat ≤ s.len.toNat + 1 ∧
    s.txlen = 0#9 := by
  simp [State.trackerOk, hp, bounds_iff, and_assoc]

theorem trackerOk_tFrame_iff (hp : s.phase = .tFrame) :
    s.trackerOk c = true ↔ Bounds c s ∧ s.pos.toNat < s.txlen.toNat := by
  simp [State.trackerOk, hp, bounds_iff, and_assoc]

theorem trackerOk_tCtrl_iff (hp : s.phase = .tCtrl) : s.trackerOk c = true ↔ Bounds c s ∧ s.pos = 0#9 := by
  simp [State.trackerOk, hp, bounds_iff, and_assoc]

theorem trackerOk_dHdr_iff (hp : s.phase = .dHdr) :
    s.trackerOk c = true ↔ Bounds c s ∧ s.pos.toNat ≤ 1 ∧ s.rxcnt = s.pos := by
  simp [State.trackerOk, hp, bounds_iff, and_assoc]

theorem trackerOk_dBody_iff (hp : s.phase = .dBody) : s.trackerOk c = true ↔ Bounds c s ∧
    1 ≤ s.len.toNat ∧ 2 ≤ s.pos.toNat ∧ s.pos.toNat ≤ s.len.toNat + 1 ∧ s.rxcnt = s.pos := by
  simp [State.trackerOk, hp, bounds_iff, and_assoc]

theorem trackerOk_dAck_iff (hp : s.phase = .dAck) : s.trackerOk c = true ↔ Bounds c s ∧
    1 ≤ s.len.toNat ∧ s.pos.toNat = s.len.toNat + 2 ∧ s.rxcnt = s.pos ∧ s.reslen = s.len - 1#8 := by
  simp [State.trackerOk, hp, bounds_iff, and_assoc]

theorem trackerOk_dNack_iff (hp : s.phase = .dNack) : s.trackerOk c = true ↔ Bounds c s ∧
    2 ≤ s.pos.toNat ∧ s.pos.toNat ≤ s.len.toNat + 2 ∧ s.rxcnt = s.pos := by
  simp [State.trackerOk, hp, bounds_iff, and_assoc]

/-- The end of a command needs the bounds alone. -/
theorem trackerOk_finish (code : ResultCode) (h : Bounds c s) : (s.finish code).trackerOk c = true :=
  (trackerOk_idle_iff rfl).mpr ⟨h.txlen, h.pos, h.rxcnt⟩

end

/-! ### Positions and sizes -/

/-- A position moved on inside a buffer does not wrap. -/
theorem toNat_succ_of_le {p : Nine} (h : p.toNat ≤ 257) : (p + 1#9).toNat = p.toNat + 1 := by
  rw [BitVec.toNat_add, BitVec.toNat_one (by decide), Nat.mod_eq_of_lt (by omega)]

theorem Space.size_le (sp : Space) : sp.size c ≤ 257 := by
  have := c.maxPayload_le
  cases sp <;> simp only [Space.size_pay, Space.size_txbuf, Space.size_rxbuf] <;> omega

@[simp] theorem selected_select (sp : Space) : selected sp.select = some sp := by cases sp <;> rfl

section
variable {p n : Nat} {seq : Bool}

theorem fieldOut_eq_sof_iff : fieldOut p n seq = .sof ↔ p = 0 := by
  unfold fieldOut
  split_ifs <;> simp <;> omega

theorem fieldOut_eq_len_iff : fieldOut p n seq = .len ↔ p = 1 := by
  unfold fieldOut
  split_ifs <;> simp <;> omega

theorem fieldOut_eq_type_iff : fieldOut p n seq = .type ↔ p = 2 := by
  unfold fieldOut
  split_ifs <;> simp <;> omega

theorem fieldOut_eq_pay_iff : fieldOut p n seq = .pay ↔ 3 ≤ p ∧ p < 3 + n := by
  unfold fieldOut
  split_ifs <;> simp <;> omega

theorem fieldOut_eq_seq_iff : fieldOut p n seq = .seq ↔ p = 3 + n ∧ seq = true := by
  cases seq <;> grind [fieldOut, lengthField]

/-- The checksum is the last byte of the frame (10_state.md R41). -/
theorem fieldOut_eq_csum_iff : fieldOut p n seq = .csum ↔ p = lengthField n seq + 1 := by
  cases seq <;> grind [fieldOut, lengthField]

/-- Past the checksum an offset has no field, and only there (10_state.md R41). -/
theorem fieldOut_eq_none_iff : fieldOut p n seq = .none ↔ lengthField n seq + 1 < p := by
  cases seq <;> grind [fieldOut, lengthField]

theorem fieldOut_ne_body : fieldOut p n seq ≠ .body := by
  unfold fieldOut
  split_ifs <;> simp

end

/-! ### Each part of a step keeps the tracker -/

theorem trackerOk_outside {s t : State} (hs : s.trackerOk c = true) (h : Outside c s t) : t.trackerOk c = true := by
  cases h with
  | mk => exact hs

theorem csumStep_trackerOk {s t : State} (hs : s.trackerOk c = true) (hp : s.phase = .cRun) (h : csumStep s c = .next t) :
    t.trackerOk c = true := by
  obtain ⟨hb, sp, hsel, hsize, _⟩ := (trackerOk_cRun_iff hp).mp hs
  rcases csumStep_next h with ⟨_, b, hlt, _, _, rfl⟩ | ⟨_, rfl⟩
  · have hpos := toNat_succ_of_le hb.pos
    have := sp.size_le (c := c)
    exact (trackerOk_cRun_iff (by exact hp)).mpr
      ⟨⟨hb.txlen, by simp only [hpos]; omega, hb.rxcnt⟩, sp, hsel, hsize, by simp only [hpos]; omega⟩
  · exact trackerOk_finish _ hb

theorem encStep_trackerOk {s t : State} (hs : s.trackerOk c = true) (hp : s.phase = .eRun) (h : encStep s c = .next t) :
    t.trackerOk c = true := by
  obtain ⟨hb, hn, hlen, hle, htx⟩ := (trackerOk_eRun_iff hp).mp hs
  have hpos := toNat_succ_of_le hb.pos
  have hmax := c.maxPayload_le
  have moved {u : State} (hu : u.phase = .eRun ∧ u.txlen = s.txlen ∧ u.rxcnt = s.rxcnt ∧ u.opb = s.opb ∧ u.len = s.len ∧
      u.sfl = s.sfl ∧ u.pos = s.pos + 1#9) (hf : fieldOut s.pos.toNat s.opb.toNat s.sfl ≠ .csum) : u.trackerOk c = true := by
    obtain ⟨hup, hutx, hurx, huopb, hulen, husfl, hupos⟩ := hu
    have hne := mt fieldOut_eq_csum_iff.mpr hf
    refine (trackerOk_eRun_iff hup).mpr ⟨⟨hutx ▸ hb.txlen, ?_, hurx ▸ hb.rxcnt⟩, huopb ▸ hn, ?_, ?_, hutx.trans htx⟩
    · rw [hupos, hpos]
      have := s.len.isLt
      omega
    · rw [hulen, huopb, husfl, hlen]
    · rw [hupos, hpos, hulen]
      omega
  obtain ⟨_, ⟨hf, rfl⟩ | ⟨hf, rfl⟩ | ⟨hf, rfl⟩ | ⟨hf, v, _, rfl⟩ | ⟨hf, rfl⟩ | ⟨hf, rfl⟩⟩ := encStep_next h
  case inr.inr.inr.inr.inr =>
    have hsize : (BitVec.ofNat 9 (s.len.toNat + 2)).toNat = s.len.toNat + 2 := by
      have := s.len.isLt
      rw [BitVec.toNat_ofNat, Nat.mod_eq_of_lt (by omega)]
    have hL : 2 ≤ s.len.toNat ∧ s.len.toNat ≤ c.maxPayload + 3 := by
      have := s.sfl.toNat_le
      rw [hlen, lengthField]
      omega
    exact trackerOk_finish _ ⟨.inr (by simp only [hsize]; omega), by simp only [hsize]; omega, hb.rxcnt⟩
  all_goals exact moved ⟨hp, rfl, rfl, rfl, rfl, rfl, rfl⟩ (by simp [hf])

/-- An offer of a byte keeps the tracker if what follows the byte does; a failure ends the command. -/
theorem txPut_trackerOk {sig : TxSignals} {b : Byte} {s : State} {onSent : State → State} (hs : s.trackerOk c = true)
    (hsent : (onSent (s.emit (.tx b))).trackerOk c = true) : (txPut sig b s onSent).trackerOk c = true := by
  rcases txPut_cases sig b s onSent with ⟨_, he⟩ | ⟨_, he⟩ | ⟨_, he⟩ <;> rw [he]
  · exact hsent
  · exact trackerOk_finish (s := s.emit .txerr) _ (bounds_of_trackerOk (s := s.emit .txerr) hs)
  · exact hs

theorem frameByteSent_trackerOk {s : State} (hs : s.trackerOk c = true) (hp : s.phase = .tFrame) :
    (frameByteSent s).trackerOk c = true := by
  obtain ⟨hb, hlt⟩ := (trackerOk_tFrame_iff hp).mp hs
  have hpos := toNat_succ_of_le hb.pos
  have hmax := c.maxPayload_le
  have htx := hb.txlen
  have moved : Bounds c { s with pos := s.pos + 1#9 } := ⟨htx, by simp only [hpos]; omega, hb.rxcnt⟩
  rcases frameByteSent_cases s with ⟨_, he⟩ | ⟨hne, he⟩ <;> rw [he]
  · exact trackerOk_finish _ moved
  · refine (trackerOk_tFrame_iff (by exact hp)).mpr ⟨moved, ?_⟩
    have : (s.pos + 1#9).toNat ≠ s.txlen.toNat := mt BitVec.eq_of_toNat_eq hne
    simp only
    omega

theorem txAnswer_trackerOk {sig : TxSignals} {s t : State} (hs : s.trackerOk c = true) (h : txAnswer sig s c = .next t) :
    t.trackerOk c = true := by
  have hb := bounds_of_trackerOk hs
  rcases txAnswer_next h with ⟨hp, b, _, rfl⟩ | ⟨hp, rfl⟩ | ⟨hp, rfl⟩ | ⟨hp, rfl⟩ | ⟨_, _, _, _, rfl⟩
  · exact txPut_trackerOk hs (frameByteSent_trackerOk (s := s.emit _) hs hp)
  · exact txPut_trackerOk hs (trackerOk_finish _ ⟨hb.txlen, by simp, hb.rxcnt⟩)
  · exact txPut_trackerOk hs (trackerOk_finish _ ⟨hb.txlen, hb.pos, hb.rxcnt⟩)
  · exact txPut_trackerOk hs (trackerOk_finish _ ⟨hb.txlen, hb.pos, hb.rxcnt⟩)
  · exact hs

/-- A byte taken moves both counters on. -/
theorem received_counters {s : State} {b : Byte} (hpos : s.pos.toNat ≤ 256) (heq : s.rxcnt = s.pos) :
    (received s b).pos.toNat = s.pos.toNat + 1 ∧ (received s b).rxcnt = (received s b).pos :=
  ⟨toNat_succ_of_le (by omega), by simp [received, heq]⟩

theorem headerByte_trackerOk {b : Byte} {s t : State} (hs : s.trackerOk c = true) (hp : s.phase = .dHdr)
    (h : headerByte b s c = .next t) : t.trackerOk c = true := by
  obtain ⟨hb, hle, heq⟩ := (trackerOk_dHdr_iff hp).mp hs
  obtain ⟨hpos, hrx⟩ := received_counters (b := b) (by omega) heq
  have moved : Bounds c (received s b) := ⟨hb.txlen, by omega, by rw [hrx]; omega⟩
  rcases headerByte_next h with ⟨h0, rfl⟩ | ⟨h1, h⟩
  · exact (trackerOk_dHdr_iff (by exact hp)).mpr ⟨moved, by rw [hpos, h0]; decide, hrx⟩
  · have hpos2 : (received s b).pos.toNat = 2 := by rw [hpos, h1]; rfl
    obtain ⟨first, _, ⟨_, rfl⟩ | ⟨_, hzero, rfl⟩ | ⟨_, hne, rfl⟩⟩ := headerComplete_next h
    · exact trackerOk_finish _ ⟨moved.txlen, moved.pos, moved.rxcnt⟩
    · exact (trackerOk_dNack_iff rfl).mpr ⟨⟨moved.txlen, moved.pos, moved.rxcnt⟩, hpos2.ge, hpos2.trans_le (by simp), hrx⟩
    · have hlen : 1 ≤ b.toNat := Nat.one_le_iff_ne_zero.mpr fun e => hne (BitVec.eq_of_toNat_eq e)
      exact (trackerOk_dBody_iff rfl).mpr
        ⟨⟨moved.txlen, moved.pos, moved.rxcnt⟩, hlen, hpos2.ge, hpos2.trans_le (by simpa using hlen), hrx⟩

theorem bodyByte_trackerOk {b : Byte} {s t : State} (hs : s.trackerOk c = true) (hp : s.phase = .dBody)
    (h : bodyByte b s c = .next t) : t.trackerOk c = true := by
  obtain ⟨hb, hlen, hge, hle, heq⟩ := (trackerOk_dBody_iff hp).mp hs
  have hlen' := s.len.isLt
  obtain ⟨hpos, hrx⟩ := received_counters (b := b) (by omega) heq
  have moved : Bounds c (received s b) := ⟨hb.txlen, by omega, by rw [hrx]; omega⟩
  obtain ⟨_, ⟨hin, rfl⟩ | ⟨hlast, _, rfl⟩ | ⟨hlast, _, rfl⟩⟩ := bodyByte_next h
  · exact (trackerOk_dBody_iff (by exact hp)).mpr
      ⟨⟨moved.txlen, moved.pos, moved.rxcnt⟩, hlen, by simp only [hpos]; omega,
        hpos.trans_le (by simpa [received] using hin), hrx⟩
  · exact (trackerOk_dAck_iff rfl).mpr
      ⟨⟨moved.txlen, moved.pos, moved.rxcnt⟩, hlen, hpos.trans (by simp [received, hlast]), hrx, rfl⟩
  · exact (trackerOk_dNack_iff rfl).mpr
      ⟨⟨moved.txlen, moved.pos, moved.rxcnt⟩, by simp only [hpos]; omega, hpos.trans_le (by simp [received, hlast]), hrx⟩

theorem rxAnswer_trackerOk {sig : RxSignals} {s t : State} (hs : s.trackerOk c = true) (h : rxAnswer sig s c = .next t) :
    t.trackerOk c = true := by
  have hb := bounds_of_trackerOk hs
  rcases rxAnswer_next h with rfl | ⟨_, rfl⟩ | ⟨_, rfl⟩ | ⟨hp, rfl⟩ | ⟨hp, b, rest, _, h⟩ | ⟨hp, b, rest, _, h⟩
  · exact hs
  · exact trackerOk_finish _ ⟨hb.txlen, hb.pos, hb.rxcnt⟩
  · exact trackerOk_finish _ ⟨hb.txlen, hb.pos, hb.rxcnt⟩
  · obtain ⟨_, _, hge, hle, heq⟩ := (trackerOk_dBody_iff hp).mp hs
    exact (trackerOk_dNack_iff rfl).mpr ⟨⟨hb.txlen, hb.pos, hb.rxcnt⟩, hge, Nat.le_succ_of_le hle, heq⟩
  · exact headerByte_trackerOk (s := { s with rxStream := rest }) hs hp h
  · exact bodyByte_trackerOk (s := { s with rxStream := rest }) hs hp h

theorem Started.trackerOk {s u : State} {i : Instr} {w : CmdWord} (hs : s.trackerOk c = true) (h : Started c s i w u) :
    u.trackerOk c = true := by
  have hb := bounds_of_trackerOk hs
  cases h with
  | csum sp off cnt hfits =>
    have hrange : off.toNat + cnt.toNat ≤ sp.size c := by simpa [rangeFits] using hfits
    have := sp.size_le (c := c)
    exact (trackerOk_cRun_iff rfl).mpr
      ⟨⟨hb.txlen, by simp; omega, hb.rxcnt⟩, sp, by simp, by simpa using hrange, by simp⟩
  | enc seq n hfits =>
    have hn : n.toNat ≤ c.maxPayload := by simpa [payloadFits] using hfits
    have hmax := c.maxPayload_le
    have hseq := seq.toNat_le
    exact (trackerOk_eRun_iff rfl).mpr
      ⟨⟨.inl rfl, by simp, hb.rxcnt⟩, by simpa using hn, by simp [lengthField]; omega, by simp, rfl⟩
  | send hbuilt =>
    have hne : s.txlen ≠ 0#9 := by simpa [frameBuilt] using hbuilt
    have : 0 < s.txlen.toNat := Nat.pos_of_ne_zero fun e => hne (BitVec.eq_of_toNat_eq e)
    exact (trackerOk_tFrame_iff rfl).mpr ⟨⟨hb.txlen, by simp, hb.rxcnt⟩, by simpa using this⟩
  | dec => exact (trackerOk_dHdr_iff rfl).mpr ⟨⟨hb.txlen, by simp, by simp⟩, by simp, rfl⟩
  | ack | nack => exact (trackerOk_tCtrl_iff rfl).mpr ⟨⟨hb.txlen, by simp, hb.rxcnt⟩, rfl⟩

theorem trackerOk_kept : KeptBySteps c fun s => s.trackerOk c = true where
  toKeptByTransitions :=
    .of_parts trackerOk_outside csumStep_trackerOk encStep_trackerOk txAnswer_trackerOk rxAnswer_trackerOk
  start hs _ h := h.trackerOk hs
  refuse hs := hs

theorem trackerOk_resetBlock (s : State) : (s.resetBlock c).trackerOk c = true :=
  (trackerOk_idle_iff rfl).mpr ⟨.inl rfl, by simp, by simp⟩

/-- Settles O55: each part of a step stays in its command's field map or range. -/
theorem stepsKeepTheTracker : Obligations.StepsKeepTheTracker := by
  intro s t hs h
  exact trackerOk_kept.step hs (fun _ _ => trackerOk_resetBlock _) (step_eq_stepWith s ▸ h)

end Sys2Proof.Machine
end

section
/-! PROOFS. From a state whose tracker is as it must be, no step leaves the field map or touches a byte outside a memory. -/

namespace Sys2Proof.Machine

variable {c : Params}

/-! ### Results that are neither of the two faults -/

/-- The result is neither of the faults no run meets (log entry 20). -/
def Sound (r : Result) : Prop := r ≠ .fault .trackerOffFrame ∧ r ≠ .fault .noSuchByte

theorem sound_next (s : State) : Sound (.next s) := ⟨nofun, nofun⟩

theorem sound_refused (e : Refusal) : Sound (.refused e) := ⟨nofun, nofun⟩

theorem sound_withByte {s : State} {sp : Space} {i : Nat} {k : Byte → Result} (hi : i < sp.size c)
    (hk : ∀ b, s.byte? sp i c = some b → Sound (k b)) : Sound (s.withByte sp i k c) := by
  cases hb : s.byte? sp i c with
  | none => exact withByte_unwritten k hi hb ▸ ⟨nofun, nofun⟩
  | some b => exact withByte_of_byte? k hb ▸ hk b hb

theorem sound_withStore {s : State} {sp : Space} {i : Nat} {b : Byte} {k : State → Result} (hi : i < sp.size c)
    (hk : ∀ s', Sound (k s')) : Sound (s.withStore sp i b k c) :=
  withStore_of_lt b k hi ▸ hk _

theorem sound_andThen {r : Result} {k : State → Result} (hr : Sound r) (hk : ∀ s, r = .next s → Sound (k s)) :
    Sound (andThen r k) := by
  cases r with
  | next s => exact hk s rfl
  | fault f => exact ⟨fun e => hr.1 (by simpa [andThen] using e), fun e => hr.2 (by simpa [andThen] using e)⟩
  | refused e => exact sound_refused e

/-! ### The byte steps and the answers of the transport -/

theorem csumStep_sound {s : State} (hs : s.trackerOk c = true) (hp : s.phase = .cRun) : Sound (csumStep s c) := by
  obtain ⟨_, sp, hsel, hsize, _⟩ := (trackerOk_cRun_iff hp).mp hs
  unfold csumStep
  split_ifs with hlt
  · simp only [hsel]
    exact sound_withByte (by omega) fun _ _ => sound_next _
  · exact sound_next _

theorem encStep_sound {s : State} (hs : s.trackerOk c = true) (hp : s.phase = .eRun) : Sound (encStep s c) := by
  obtain ⟨_, hn, hlen, hle, _⟩ := (trackerOk_eRun_iff hp).mp hs
  have hpos : s.pos.toNat < Space.txbuf.size c := by
    have := s.len.isLt
    simp only [Space.size_txbuf]
    omega
  unfold encStep
  split
  case h_4 hf =>
    have hin := fieldOut_eq_pay_iff.mp hf
    exact sound_withByte (by simp only [Space.size_pay]; omega) fun _ _ => sound_withStore hpos fun _ => sound_next _
  case h_7 hf => exact absurd hf fieldOut_ne_body
  case h_8 hf => exact absurd (fieldOut_eq_none_iff.mp hf) (by omega)
  all_goals exact sound_withStore hpos fun _ => sound_next _

theorem txAnswer_sound (sig : TxSignals) {s : State} (hs : s.trackerOk c = true) : Sound (txAnswer sig s c) := by
  unfold txAnswer
  split
  case h_1 hp =>
    obtain ⟨hb, hlt⟩ := (trackerOk_tFrame_iff hp).mp hs
    have := hb.txlen
    have := c.maxPayload_le
    exact sound_withByte (by simp only [Space.size_txbuf]; omega) fun _ _ => sound_next _
  all_goals exact sound_next _

theorem headerByte_sound (b : Byte) {s : State} (hs : s.trackerOk c = true) (hp : s.phase = .dHdr) :
    Sound (headerByte b s c) := by
  obtain ⟨_, hle, _⟩ := (trackerOk_dHdr_iff hp).mp hs
  have hpos : s.pos.toNat < Space.rxbuf.size c := by simp only [Space.size_rxbuf]; omega
  have hcomplete (u : State) : Sound (headerComplete u c) := by
    refine sound_withByte (by simp) fun first _ => ?_
    split_ifs <;> exact sound_next _
  unfold headerByte
  split_ifs with h0 h1
  · exact sound_withStore hpos fun _ => sound_next _
  · exact sound_withStore hpos fun _ => hcomplete _
  · have hne0 : s.pos.toNat ≠ 0 := fun e => h0 (BitVec.eq_of_toNat_eq e)
    have hne1 : s.pos.toNat ≠ 1 := fun e => h1 (BitVec.eq_of_toNat_eq e)
    omega

theorem bodyByte_sound (b : Byte) {s : State} (hs : s.trackerOk c = true) (hp : s.phase = .dBody) :
    Sound (bodyByte b s c) := by
  obtain ⟨_, _, _, hle, _⟩ := (trackerOk_dBody_iff hp).mp hs
  have hpos : s.pos.toNat < Space.rxbuf.size c := by
    have := s.len.isLt
    simp only [Space.size_rxbuf]
    omega
  unfold bodyByte
  split_ifs with h0 h1
  · exact sound_withStore hpos fun _ => sound_next _
  · exact sound_withStore hpos fun _ => sound_next _
  · omega

theorem readCall_sound {sig : RxSignals} {s : State} {onByte : Byte → State → Result} {onTimeout : State → State}
    (hbyte : ∀ b rest, Sound (onByte b { s with rxStream := rest })) : Sound (readCall sig s onByte onTimeout) := by
  unfold readCall
  split
  case h_1 b rest _ => exact hbyte b rest
  all_goals exact sound_next _

theorem rxAnswer_sound (sig : RxSignals) {s : State} (hs : s.trackerOk c = true) : Sound (rxAnswer sig s c) := by
  unfold rxAnswer
  split
  case h_1 hp => exact readCall_sound fun b rest => headerByte_sound b (s := { s with rxStream := rest }) hs hp
  case h_2 hp => exact readCall_sound fun b rest => bodyByte_sound b (s := { s with rxStream := rest }) hs hp
  all_goals exact sound_next _

/-! ### A transition, a command, a step -/

theorem selfStep_sound {s : State} (hs : s.trackerOk c = true) : Sound (selfStep s c) := by
  unfold selfStep
  split
  case h_1 hp => exact csumStep_sound hs hp
  case h_2 hp => exact encStep_sound hs hp
  all_goals exact sound_next _

theorem otherMove_sound (m : Move) {s : State} (hs : s.trackerOk c = true) : Sound (otherMove m s c) := by
  cases m with
  | run => exact selfStep_sound hs
  | tx sig => exact txAnswer_sound sig hs
  | rx sig => exact rxAnswer_sound sig hs
  | wire | wait | present | hread | hwrite | ackWait | reset => exact sound_next _

theorem waitMove_sound (rest : List Move) {s : State} (hs : s.trackerOk c = true) : Sound (waitMove rest s c) := by
  unfold waitMove
  split_ifs
  · exact sound_next _
  · split
    · exact sound_next _
    · split_ifs
      · exact sound_next _
      · exact otherMove_sound _ hs

theorem tick_sound {s : State} (hs : s.trackerOk c = true) : Sound (tick s c) := by
  unfold tick
  split_ifs
  · exact selfStep_sound hs
  · split
    · exact sound_next _
    · exact waitMove_sound _ hs
    · split_ifs
      · exact sound_next _
      · exact otherMove_sound _ hs

theorem drive_sound (fuel : Nat) {s : State} (hs : s.trackerOk c = true) : Sound (drive fuel s c) := by
  induction fuel generalizing s with
  | zero => exact sound_next s
  | succ fuel ih =>
    unfold drive
    split_ifs
    · exact sound_andThen (tick_sound hs) fun u hu => ih (trackerOk_kept.tick hs hu)
    · exact sound_next s

theorem execWith_sound (i : Instr) {s : State} (hs : s.trackerOk c = true) : Sound (execWith c i s) := by
  rcases execWith_shape c i s with ⟨bytes, _, he⟩ | ⟨w, legal, start, _, he, hstart⟩ <;> rw [he]
  · exact sound_next _
  · unfold command
    split_ifs with hbusy hlegal
    · exact sound_next _
    · exact drive_sound _ ((hstart hlegal).trackerOk hs)
    · exact sound_next _

theorem lt_size_of_byteAt {a i : Nat} {sp : Space} (h : byteAt a c = some (sp, i)) : i < sp.size c := by
  unfold byteAt at h
  split_ifs at h with h1 h2 h3 <;> (obtain ⟨rfl, rfl⟩ := Prod.mk.inj (Option.some.inj h); omega)

theorem hostRead_sound (a : HostAddr) (s : State) : Sound (hostRead a s c) := by
  unfold hostRead
  split
  · split_ifs
    · exact sound_refused _
    · exact sound_next _
  · next sp i _ hbyte =>
    split_ifs
    · exact sound_refused _
    · exact sound_withByte (lt_size_of_byteAt hbyte) fun _ _ => sound_next _
  · exact sound_next _

theorem hostWrite_sound (a : HostAddr) (d : HostData) (s : State) : Sound (hostWrite a d s c) := by
  unfold hostWrite
  split
  · next j hbyte =>
    split_ifs
    · exact sound_next _
    · exact sound_withStore (lt_size_of_byteAt hbyte) fun _ => sound_next _
  all_goals exact sound_next _

theorem awaitAck_sound (sig : RxSignals) (s : State) : Sound (awaitAck sig s c) := by
  unfold awaitAck
  split_ifs
  · exact sound_refused _
  · split <;> exact sound_next _

theorem presentWord_sound (w : CmdWord) {s : State} (hs : s.trackerOk c = true) :
    Sound (presentWord (execWith c) w s) := by
  unfold presentWord
  split_ifs
  · exact sound_next _
  · split
    · exact execWith_sound _ hs
    · exact sound_next _

theorem wireStep_sound (bytes : List Byte) (rest : List Move) {s : State} (hs : s.trackerOk c = true) :
    Sound (wireStep (execWith c) bytes rest s c) := by
  unfold wireStep
  split
  · exact sound_next _
  · split
    · exact execWith_sound _ hs
    · exact sound_next _

theorem stepWith_sound {s : State} (hs : s.trackerOk c = true) : Sound (stepWith c s) := by
  unfold stepWith stepVia
  split
  · exact presentWord_sound _ hs
  · exact hostRead_sound _ _
  · exact hostWrite_sound _ _ _
  · exact awaitAck_sound _ _
  · exact sound_next _
  · exact wireStep_sound _ _ hs
  all_goals exact tick_sound hs

/-- Settles O57: the tracker's condition keeps every position inside its field map and every byte index inside its memory. -/
theorem noStepLeavesTheFieldMap : Obligations.NoStepLeavesTheFieldMap :=
  fun s hs => step_eq_stepWith s ▸ stepWith_sound hs

end Sys2Proof.Machine
end

section
/-! PROOFS. The frame in `TXBUF`: while it is being built its part stands, when it is built it stands whole, and nothing but `ENC`
touches it (10_state.md R47; 41_encode.md R154). -/

namespace Sys2Proof.Machine

variable {c : Params}

/-! ### What leaves the frame alone -/

/-- `TXBUF` and `TXLEN` are as before, and a frame still being built is where it was. -/
structure LeavesFrame (c : Params) (s t : State) : Prop where
  bytes : ∀ i, t.byte? .txbuf i c = s.byte? .txbuf i c
  txlen : t.txlen = s.txlen
  building : t.phase = .eRun → s.phase = .eRun ∧ t.pos = s.pos ∧ t.len = s.len ∧ t.acc = s.acc

section
variable {s u t : State}

theorem LeavesFrame.refl (s : State) : LeavesFrame c s s := ⟨fun _ => rfl, rfl, fun h => ⟨h, rfl, rfl, rfl⟩⟩

/-- A part of a step that does not write memory or `TXLEN` and does not leave the block in `E_RUN`. -/
theorem LeavesFrame.of_same (hmem : t.mem = s.mem) (htx : t.txlen = s.txlen) (hp : t.phase ≠ .eRun) : LeavesFrame c s t :=
  ⟨fun i => byte?_congr hmem .txbuf i, htx, fun h => absurd h hp⟩

theorem LeavesFrame.of_received {b : Byte} (hpos : s.pos.toNat < Space.rxbuf.size c)
    (hmem : t.mem = (received s b).mem) (htx : t.txlen = s.txlen) (hp : t.phase ≠ .eRun) : LeavesFrame c s t := by
  refine ⟨fun i => ?_, htx, fun h => absurd h hp⟩
  calc t.byte? .txbuf i c
      = State.byte? { s with mem := memStore s.mem (Space.rxbuf.base + s.pos.toNat) b } .txbuf i c := byte?_congr hmem .txbuf i
    _ = s.byte? .txbuf i c := by rw [byte?_memStore s .rxbuf .txbuf _ i b hpos, if_neg (by simp)]

theorem LeavesFrame.frameStands (h : LeavesFrame c s t) (hs : s.frameStands c) : t.frameStands c := by
  obtain ⟨l, covered, hlen, hsize, hsof, htype, hcov, hcsum⟩ := hs
  exact ⟨l, covered, by rw [h.bytes, hlen], by rw [h.txlen, hsize], by rw [h.bytes, hsof], by rw [h.bytes, htype],
    by rw [h.txlen, bytes?_congr _ _ _ fun k _ _ => h.bytes k, hcov], by rw [h.txlen, h.bytes, hcsum]⟩

theorem LeavesFrame.buildStands (h : LeavesFrame c s t) (hp : t.phase = .eRun) (hs : s.buildStands c) : t.buildStands c := by
  obtain ⟨_, hpos, hlen, hacc⟩ := h.building hp
  obtain ⟨hsof, hl, htype, covered, hcov, hsum⟩ := hs
  rw [State.buildStands, hpos, hlen, hacc, h.bytes, h.bytes, h.bytes]
  exact ⟨hsof, hl, htype, covered, by rw [bytes?_congr _ _ _ fun k _ _ => h.bytes k, hcov], hsum⟩

theorem LeavesFrame.txbufOk (h : LeavesFrame c s t) (ht : t.trackerOk c = true) (hs : s.txbufOk c) : t.txbufOk c := by
  obtain ⟨_, hframe, hbuild⟩ := hs
  exact ⟨ht, fun hne => h.frameStands (hframe (h.txlen ▸ hne)), fun hp => h.buildStands hp (hbuild (h.building hp).1)⟩

/-! ### Every part of a step but `ENC`'s leaves it alone -/

theorem LeavesFrame.of_outside (h : Outside c s t) : LeavesFrame c s t := by
  cases h with
  | mk mem stream log env hbytes =>
    exact ⟨fun i => (byte?_congr rfl .txbuf i).trans (hbytes .txbuf i (by simp)), rfl, fun h => ⟨h, rfl, rfl, rfl⟩⟩

theorem csumStep_leavesFrame (hp : s.phase = .cRun) (h : csumStep s c = .next t) : LeavesFrame c s t := by
  rcases csumStep_next h with ⟨_, b, _, _, _, rfl⟩ | ⟨_, rfl⟩
  · exact .of_same rfl rfl (by simp [hp])
  · exact .of_same rfl rfl (by simp)

theorem txPut_leavesFrame {sig : TxSignals} {b : Byte} {onSent : State → State}
    (hsent : LeavesFrame c s (onSent (s.emit (.tx b)))) : LeavesFrame c s (txPut sig b s onSent) := by
  rcases txPut_cases sig b s onSent with ⟨_, he⟩ | ⟨_, he⟩ | ⟨_, he⟩ <;> rw [he]
  · exact hsent
  · exact .of_same rfl rfl (by simp)
  · exact .refl s

theorem txAnswer_leavesFrame {sig : TxSignals} (h : txAnswer sig s c = .next t) : LeavesFrame c s t := by
  rcases txAnswer_next h with ⟨hp, b, _, rfl⟩ | ⟨_, rfl⟩ | ⟨_, rfl⟩ | ⟨_, rfl⟩ | ⟨_, _, _, _, rfl⟩
  · refine txPut_leavesFrame ?_
    rcases frameByteSent_cases (s.emit (.tx b)) with ⟨_, he⟩ | ⟨_, he⟩ <;> rw [he]
    · exact .of_same rfl rfl (by simp)
    · exact .of_same rfl rfl (by simp [hp])
  · exact txPut_leavesFrame (.of_same rfl rfl (by simp [controlByteSent]))
  · exact txPut_leavesFrame (.of_same rfl rfl (by simp))
  · exact txPut_leavesFrame (.of_same rfl rfl (by simp))
  · exact .refl _

theorem headerByte_leavesFrame {b : Byte} {rest : List Byte} (hpos : s.pos.toNat < Space.rxbuf.size c) (hp : s.phase = .dHdr)
    (h : headerByte b { s with rxStream := rest } c = .next t) : LeavesFrame c s t := by
  rcases headerByte_next h with ⟨_, rfl⟩ | ⟨_, h⟩
  · exact .of_received hpos rfl rfl (by simp [received, hp])
  · obtain ⟨first, _, ⟨_, rfl⟩ | ⟨_, _, rfl⟩ | ⟨_, _, rfl⟩⟩ := headerComplete_next h
    all_goals exact .of_received hpos rfl rfl (by simp)

theorem bodyByte_leavesFrame {b : Byte} {rest : List Byte} (hp : s.phase = .dBody)
    (h : bodyByte b { s with rxStream := rest } c = .next t) : LeavesFrame c s t := by
  obtain ⟨hpos, ⟨_, rfl⟩ | ⟨_, _, rfl⟩ | ⟨_, _, rfl⟩⟩ := bodyByte_next h
  all_goals exact .of_received hpos rfl rfl (by simp [received, hp])

theorem rxAnswer_leavesFrame {sig : RxSignals} (hs : s.trackerOk c = true) (h : rxAnswer sig s c = .next t) :
    LeavesFrame c s t := by
  rcases rxAnswer_next h with rfl | ⟨_, rfl⟩ | ⟨_, rfl⟩ | ⟨_, rfl⟩ | ⟨hp, b, rest, _, h⟩ | ⟨hp, b, rest, _, h⟩
  · exact .refl _
  · exact .of_same rfl rfl (by simp [readFailed])
  · exact .of_same rfl rfl (by simp [headerTimeout])
  · exact .of_same rfl rfl (by simp [bodyTimeout])
  · obtain ⟨_, hle, _⟩ := (trackerOk_dHdr_iff hp).mp hs
    exact headerByte_leavesFrame (by simp only [Space.size_rxbuf]; omega) hp h
  · exact bodyByte_leavesFrame hp h

/-! ### `ENC` builds it -/

/-- A range of bytes and the byte behind it. -/
theorem bytes?_append_single {sp : Space} {i n : Nat} {bs : List Byte} {b : Byte} (hbs : s.bytes? sp i n c = some bs)
    (hb : s.byte? sp (i + n) c = some b) : s.bytes? sp i (n + 1) c = some (bs ++ [b]) := by
  obtain ⟨hlen, hall⟩ := bytes?_eq_some_iff.mp hbs
  refine bytes?_eq_some_iff.mpr ⟨by simp [hlen], fun k hk => ?_⟩
  by_cases hlt : k < bs.length
  · rw [List.getElem_append_left hlt, hall k hlt]
  · obtain rfl : k = n := by simp at hk; omega
    simp [hlen, hb]

/-- What a byte step in `E_RUN` writes: the byte at `POS` and no other of `TXBUF`. -/
theorem byte?_put {v : Byte} (hpos : s.pos.toNat < Space.txbuf.size c)
    (hmem : t.mem = memStore s.mem (Space.txbuf.base + s.pos.toNat) v) (i : Nat) :
    t.byte? .txbuf i c = if i = s.pos.toNat then some v else s.byte? .txbuf i c := by
  calc t.byte? .txbuf i c
      = State.byte? { s with mem := memStore s.mem (Space.txbuf.base + s.pos.toNat) v } .txbuf i c := byte?_congr hmem .txbuf i
    _ = _ := by rw [byte?_memStore s .txbuf .txbuf _ i v hpos]; simp only [true_and]

/-- The start marker is put first, outside the checksum. -/
theorem buildStands_sofPut (h0 : s.pos.toNat = 0) (hs : s.buildStands c) : (sofPut s c).buildStands c := by
  have hput := byte?_put (t := sofPut s c) (v := c.sof) (c := c) (by simp [h0]) rfl
  have hpos : (sofPut s c).pos.toNat = 1 := (toNat_succ_of_le (by omega)).trans (by rw [h0])
  obtain ⟨_, _, _, covered, hcov, hsum⟩ := hs
  refine ⟨fun _ => by rw [hput, if_pos h0.symm], fun h => absurd h (by omega), fun h => absurd h (by omega), covered, ?_, hsum⟩
  rw [hpos]
  simpa [h0, State.bytes?] using hcov

/-- A covered byte is put behind the part built, and folded into the accumulator: the length field at offset 1, the type byte at
offset 2, what the step writes at the others. -/
theorem buildStands_put {v : Byte} (hpos : s.pos.toNat < Space.txbuf.size c) (h1 : 1 ≤ s.pos.toNat) (hs : s.buildStands c)
    (hlen : s.pos.toNat = 1 → v = s.len) (htype : s.pos.toNat = 2 → v = c.typeReq)
    (htmem : t.mem = memStore s.mem (Space.txbuf.base + s.pos.toNat) v) (htpos : t.pos = s.pos + 1#9) (htlen : t.len = s.len)
    (htacc : t.acc = s.acc ^^^ v) : t.buildStands c := by
  have hput := byte?_put hpos htmem
  have hmoved : t.pos.toNat = s.pos.toNat + 1 := by
    rw [htpos]
    exact toNat_succ_of_le (by simpa using hpos.le)
  obtain ⟨hsof, hl, hty, covered, hcov, hsum⟩ := hs
  refine ⟨fun _ => ?_, fun _ => ?_, fun _ => ?_, covered ++ [v], ?_, ?_⟩
  · rw [hput, if_neg (by omega), hsof h1]
  · by_cases h : s.pos.toNat = 1
    · rw [hput, if_pos h.symm, htlen, hlen h]
    · rw [hput, if_neg (by omega), htlen, hl (by omega)]
  · by_cases h : s.pos.toNat = 2
    · rw [hput, if_pos h.symm, htype h]
    · rw [hput, if_neg (by omega), hty (by omega)]
  · have hkept : t.bytes? .txbuf 1 (s.pos.toNat - 1) c = some covered := by
      rw [bytes?_congr _ _ _ fun k _ hk => (hput k).trans (if_neg (by omega)), hcov]
    rw [hmoved, show s.pos.toNat + 1 - 1 = s.pos.toNat - 1 + 1 by omega]
    exact bytes?_append_single hkept (by rw [hput, if_pos (by omega)])
  · rw [htacc, hsum, checksum_append_single]

/-- The checksum byte completes the frame: the accumulator is the checksum of what stands at offsets 1 to `LEN`. -/
theorem frameStands_csumPut (hlen : 2 ≤ s.len.toNat) (hpos : s.pos.toNat = s.len.toNat + 1) (hs : s.buildStands c) :
    (csumPut s).frameStands c := by
  have hl := s.len.isLt
  have hput := byte?_put (t := csumPut s) (v := s.acc) (c := c) (by simp only [Space.size_txbuf]; omega) rfl
  have hsize : (csumPut s).txlen.toNat = s.len.toNat + 2 := by
    change (BitVec.ofNat 9 (s.len.toNat + 2)).toNat = _
    rw [BitVec.toNat_ofNat, Nat.mod_eq_of_lt (by omega)]
  obtain ⟨hsof, hl, hty, covered, hcov, hsum⟩ := hs
  refine ⟨s.len, covered, ?_, hsize, ?_, ?_, ?_, ?_⟩
  · rw [hput, if_neg (by omega), hl (by omega)]
  · rw [hput, if_neg (by omega), hsof (by omega)]
  · rw [hput, if_neg (by omega), hty (by omega)]
  · rw [hsize, bytes?_congr _ _ _ fun k _ hk => (hput k).trans (if_neg (by omega)), ← hcov, hpos]
    rfl
  · rw [hsize, hput, if_pos (by omega), hsum]

theorem encStep_txbufOk (hs : s.txbufOk c) (hp : s.phase = .eRun) (h : encStep s c = .next t) : t.txbufOk c := by
  obtain ⟨htr, hframe, hbuild⟩ := hs
  obtain ⟨_, _, hlen, _, htx⟩ := (trackerOk_eRun_iff hp).mp htr
  replace hbuild := hbuild hp
  refine ⟨encStep_trackerOk htr hp h, ?_⟩
  obtain ⟨hpos, ⟨hf, rfl⟩ | ⟨hf, rfl⟩ | ⟨hf, rfl⟩ | ⟨hf, v, _, rfl⟩ | ⟨hf, rfl⟩ | ⟨hf, rfl⟩⟩ := encStep_next h
  · exact ⟨fun hne => absurd htx hne, fun _ => buildStands_sofPut (fieldOut_eq_sof_iff.mp hf) hbuild⟩
  · have h1 := fieldOut_eq_len_iff.mp hf
    exact ⟨fun hne => absurd htx hne, fun _ =>
      buildStands_put hpos (by omega) hbuild (fun _ => rfl) (fun h => absurd h (by omega)) rfl rfl rfl rfl⟩
  · have h2 := fieldOut_eq_type_iff.mp hf
    exact ⟨fun hne => absurd htx hne, fun _ =>
      buildStands_put hpos (by omega) hbuild (fun h => absurd h (by omega)) (fun _ => rfl) rfl rfl rfl rfl⟩
  · have hpay := fieldOut_eq_pay_iff.mp hf
    exact ⟨fun hne => absurd htx hne, fun _ =>
      buildStands_put hpos (by omega) hbuild (fun h => absurd h (by omega)) (fun h => absurd h (by omega)) rfl rfl rfl rfl⟩
  · have hseq := fieldOut_eq_seq_iff.mp hf
    exact ⟨fun hne => absurd htx hne, fun _ =>
      buildStands_put hpos (by omega) hbuild (fun h => absurd h (by omega)) (fun h => absurd h (by omega)) rfl rfl rfl rfl⟩
  · have hcsum := fieldOut_eq_csum_iff.mp hf
    exact ⟨fun _ => frameStands_csumPut (by rw [hlen, lengthField]; omega) (by omega) hbuild,
      fun h => absurd h (by simp [csumPut])⟩

theorem Started.txbufOk {i : Instr} {w : CmdWord} (hs : s.txbufOk c) (h : Started c s i w u) : u.txbufOk c := by
  have htr := h.trackerOk hs.1
  cases h with
  | enc seq n =>
    exact ⟨htr, fun hne => absurd rfl hne, fun _ =>
      ⟨fun h => absurd h (by simp), fun h => absurd h (by simp), fun h => absurd h (by simp), [], by simp [State.bytes?], rfl⟩⟩
  | csum | send | dec | ack | nack => exact LeavesFrame.txbufOk (s := s) (.of_same rfl rfl (by simp)) htr hs

end

theorem txbufOk_kept : KeptBySteps c fun s => s.txbufOk c where
  toKeptByTransitions := .of_parts
    (fun hs h => (LeavesFrame.of_outside h).txbufOk (trackerOk_outside hs.1 h) hs)
    (fun hs hp h => (csumStep_leavesFrame hp h).txbufOk (csumStep_trackerOk hs.1 hp h) hs)
    encStep_txbufOk
    (fun hs h => (txAnswer_leavesFrame h).txbufOk (txAnswer_trackerOk hs.1 h) hs)
    (fun hs h => (rxAnswer_leavesFrame hs.1 h).txbufOk (rxAnswer_trackerOk hs.1 h) hs)
  start hs _ h := h.txbufOk hs
  refuse {s _} hs := LeavesFrame.txbufOk (s := s) ⟨fun _ => rfl, rfl, fun h => ⟨h, rfl, rfl, rfl⟩⟩ hs.1 hs

theorem txbufOk_resetBlock (s : State) : (s.resetBlock c).txbufOk c :=
  ⟨trackerOk_resetBlock s, fun hne => absurd rfl hne, fun h => absurd h (by simp)⟩

/-- Settles O56: `ENC` keeps its part of the frame, its last step completes the frame, and nothing else touches `TXBUF`. -/
theorem stepsKeepTheFrameValid : Obligations.StepsKeepTheFrameValid := by
  intro s t hs h
  exact txbufOk_kept.step hs (fun _ _ => txbufOk_resetBlock _) (step_eq_stepWith s ▸ h)

end Sys2Proof.Machine
end

section
/-! PROOFS. The sequence counter, the outbound field map, arrivals, and reset. -/

namespace Sys2Proof.Machine

variable {c : Params}

/-! ### The sequence counter (10_state.md R21; 41_encode.md R156) -/

/-- The counter is `q`, and the command in progress is not `ENC.S`. -/
def Unsequenced (q : Byte) (s : State) : Prop := s.seq = q ∧ s.sfl = false

section
variable {q : Byte} {s t : State}

theorem encStep_unsequenced (hs : Unsequenced q s) (h : encStep s c = .next t) : Unsequenced q t := by
  obtain ⟨_, ⟨_, rfl⟩ | ⟨_, rfl⟩ | ⟨_, rfl⟩ | ⟨_, v, _, rfl⟩ | ⟨hf, rfl⟩ | ⟨_, rfl⟩⟩ := encStep_next h
  case inr.inr.inr.inr.inl =>
    have hsfl := (fieldOut_eq_seq_iff.mp hf).2
    simp [hs.2] at hsfl
  all_goals exact hs

theorem txPut_unsequenced {sig : TxSignals} {b : Byte} {onSent : State → State} (hs : Unsequenced q s)
    (hsent : Unsequenced q (onSent (s.emit (.tx b)))) : Unsequenced q (txPut sig b s onSent) := by
  rcases txPut_cases sig b s onSent with ⟨_, he⟩ | ⟨_, he⟩ | ⟨_, he⟩ <;> rw [he]
  · exact hsent
  · exact hs
  · exact hs

theorem txAnswer_unsequenced {sig : TxSignals} (hs : Unsequenced q s) (h : txAnswer sig s c = .next t) : Unsequenced q t := by
  rcases txAnswer_next h with ⟨_, b, _, rfl⟩ | ⟨_, rfl⟩ | ⟨_, rfl⟩ | ⟨_, rfl⟩ | ⟨_, _, _, _, rfl⟩
  · refine txPut_unsequenced hs ?_
    rcases frameByteSent_cases (s.emit (.tx b)) with ⟨_, he⟩ | ⟨_, he⟩ <;> rw [he] <;> exact hs
  · exact txPut_unsequenced hs hs
  · exact txPut_unsequenced hs hs
  · exact txPut_unsequenced hs hs
  · exact hs

theorem rxAnswer_unsequenced {sig : RxSignals} (hs : Unsequenced q s) (h : rxAnswer sig s c = .next t) : Unsequenced q t := by
  rcases rxAnswer_next h with rfl | ⟨_, rfl⟩ | ⟨_, rfl⟩ | ⟨_, rfl⟩ | ⟨_, b, rest, _, h⟩ | ⟨_, b, rest, _, h⟩
  case inr.inr.inr.inr.inl =>
    rcases headerByte_next h with ⟨_, rfl⟩ | ⟨_, h⟩
    · exact hs
    · obtain ⟨first, _, ⟨_, rfl⟩ | ⟨_, _, rfl⟩ | ⟨_, _, rfl⟩⟩ := headerComplete_next h <;> exact hs
  case inr.inr.inr.inr.inr =>
    obtain ⟨_, ⟨_, rfl⟩ | ⟨_, _, rfl⟩ | ⟨_, _, rfl⟩⟩ := bodyByte_next h <;> exact hs
  all_goals exact hs

theorem unsequenced_kept : KeptByTransitions c (Unsequenced q) :=
  .of_parts
    (fun hs h => by cases h; exact hs)
    (fun hs _ h => by rcases csumStep_next h with ⟨_, _, _, _, _, rfl⟩ | ⟨_, rfl⟩ <;> exact hs)
    (fun hs _ h => encStep_unsequenced hs h)
    txAnswer_unsequenced
    rxAnswer_unsequenced

end

/-- The word of every command but `ENC.S` has `S = 0`, so its run never reaches a sequence field. -/
theorem Started.unsequenced {s u : State} {i : Instr} {w : CmdWord} (hi : ∀ n, i ≠ .encS n) (h : Started c s i w u) :
    Unsequenced s.seq u := by
  cases h with
  | enc seq n =>
    cases seq with
    | false => exact ⟨rfl, by simp⟩
    | true => exact absurd rfl (hi n)
  | csum | send | dec | ack | nack => exact ⟨rfl, by simp⟩

/-- Settles O22: the counter moves in a sequence step only, and only `ENC.S` has one. -/
theorem onlyEncSWritesSeq : Obligations.OnlyEncSWritesSeq := by
  intro i s t hi h
  cases exec_next h with
  | arrived bytes _ ht => exact ht ▸ rfl
  | notTaken _ ht => exact ht ▸ rfl
  | refused w _ _ ht => exact ht ▸ rfl
  | ran w u _ _ hstart hrun => exact (unsequenced_kept.run (hstart.unsequenced hi) hrun).1

/-! ### The outbound field map (10_state.md R41) -/

section
variable (p : List Byte) (seq : Bool) (q : Byte)

/-- The sequence byte, if there is one. -/
def seqBytes : List Byte := if seq then [q] else []

@[simp] theorem length_seqBytes : (seqBytes seq q).length = seq.toNat := by cases seq <;> rfl

theorem length_coveredBytes : (coveredBytes p seq q c).length = p.length + 2 + seq.toNat := by
  have := length_seqBytes seq q
  simp only [seqBytes] at this
  simp [coveredBytes, this]
  omega

/-- From offset 3 on: the payload, the sequence byte if there is one, the checksum. -/
theorem outboundFrame_getElem?_add_three (j : Nat) :
    (outboundFrame p seq q c)[j + 3]? = (p ++ (seqBytes seq q ++ [checksum (coveredBytes p seq q c) c]))[j]? := by
  simp [outboundFrame, coveredBytes, seqBytes]

/-- The bytes the checksum covers are those at offsets 1 to `L`. -/
theorem take_drop_outboundFrame :
    ((outboundFrame p seq q c).drop 1).take (p.length + 2 + seq.toNat) = coveredBytes p seq q c := by
  rw [← length_coveredBytes (c := c) p seq q]
  exact List.take_left

/-- The byte at every offset of an outbound frame, by its field. -/
theorem outboundFrame_getElem? (k : Nat) : (outboundFrame p seq q c)[k]? =
    match fieldOut k p.length seq with
    | .sof => some c.sof
    | .len => some (BitVec.ofNat 8 (p.length + 2 + seq.toNat))
    | .type => some c.typeReq
    | .pay => p[k - 3]?
    | .seq => some q
    | .csum => some (checksum (coveredBytes p seq q c) c)
    | .body => none
    | .none => none := by
  cases hf : fieldOut k p.length seq with
  | sof => rw [fieldOut_eq_sof_iff.mp hf]; rfl
  | len => rw [fieldOut_eq_len_iff.mp hf]; rfl
  | type => rw [fieldOut_eq_type_iff.mp hf]; rfl
  | pay =>
    obtain ⟨h3, hlt⟩ := fieldOut_eq_pay_iff.mp hf
    obtain ⟨j, rfl⟩ := Nat.exists_eq_add_of_le' h3
    rw [outboundFrame_getElem?_add_three, List.getElem?_append_left (by omega)]
    rfl
  | seq =>
    obtain ⟨hk, rfl⟩ := fieldOut_eq_seq_iff.mp hf
    rw [hk, Nat.add_comm, outboundFrame_getElem?_add_three]
    simp [seqBytes]
  | csum =>
    have hk : k = p.length + seq.toNat + 3 := by
      rw [fieldOut_eq_csum_iff.mp hf, lengthField]
      omega
    rw [hk, outboundFrame_getElem?_add_three, List.getElem?_append_right (by omega), List.getElem?_append_right (by simp)]
    simp
  | body => exact absurd hf fieldOut_ne_body
  | none =>
    have hk := fieldOut_eq_none_iff.mp hf
    refine List.getElem?_eq_none ?_
    simp only [outboundFrame, List.length_cons, List.length_append, length_coveredBytes, List.length_nil]
    rw [lengthField] at hk
    omega

end

/-- Settles O17: the field map is read off its cases, and the frame's bytes off the field map. -/
theorem outboundFrameLayout : Obligations.OutboundFrameLayout := by
  intro c p seq q _
  refine ⟨⟨fieldOut_eq_sof_iff.mpr rfl, fieldOut_eq_len_iff.mpr rfl, fieldOut_eq_type_iff.mpr rfl, fun k hk => ?_, fun hseq => ?_,
    ?_, fun k hk => ?_⟩, fun k => ?_⟩
  · exact fieldOut_eq_pay_iff.mpr (by omega)
  · exact fieldOut_eq_seq_iff.mpr ⟨rfl, hseq⟩
  · exact fieldOut_eq_csum_iff.mpr (by rw [lengthField]; omega)
  · exact fieldOut_eq_none_iff.mpr (by rw [lengthField]; omega)
  · have hbyte := outboundFrame_getElem? (c := c) p seq q k
    rw [← take_drop_outboundFrame (c := c) p seq q] at hbyte
    exact hbyte

/-! ### Arrivals (10_state.md R38) -/

/-- Settles O41: an instruction encoded as bytes is the arrival of those bytes. -/
theorem wireUnitsJoinTheStream : Obligations.WireUnitsJoinTheStream := by
  intro i bytes s hwire
  rcases execWith_shape Config.hw i s with ⟨bytes', hwire', he⟩ | ⟨w, _, _, hcmd, _⟩
  · obtain rfl : bytes = bytes' := by simpa [hwire] using hwire'
    exact (exec_eq_execWith i s).trans he
  · simp [hwire] at hcmd

/-! ### Reset (10_state.md R46; 70_reset_and_hazards.md R340, R341) -/

/-- After a reset no byte has a value (93_implementation_defined.md U1). -/
theorem byte?_of_mem_nil {s : State} (h : s.mem = []) (sp : Space) (i : Nat) : s.byte? sp i c = none := by
  simp [State.byte?, h, memLookup]

theorem txStream_resetBlock (s : State) : (s.resetBlock c).txStream = s.txStream := by
  simp [State.txStream, Event.sent?]

/-- The flags of the reset state read as 0 (10_state.md R46). -/
theorem Status.word_cleared : Status.word ⟨false, false, false, false⟩ = 0#4 := by decide

/-- Settles O50: a step with a reset next is `resetBlock`, whose fields are the reset values. -/
theorem resetTakesTheResetState : Obligations.ResetTakesTheResetState := by
  intro s rest henv
  have hstep : step s = .next ({ s with env := rest }.resetBlock) := by simp [step, stepVia, henv]
  exact ⟨_, hstep, rfl, rfl, rfl, rfl, rfl, rfl, rfl, rfl, Status.word_cleared, rfl, rfl, rfl, rfl, rfl, rfl,
    byte?_of_mem_nil rfl, rfl, txStream_resetBlock _, rfl⟩

/-- Settles O51: the state after reset is idle, with nothing built and no byte listed. -/
theorem resetIsSafe : Obligations.ResetIsSafe := by
  have htracker : State.reset.trackerOk = true := (trackerOk_idle_iff rfl).mpr ⟨.inl rfl, by decide, by decide⟩
  exact ⟨rfl, rfl, htracker, nil_wf, htracker, fun hne => absurd rfl hne, fun h => nomatch h⟩

end Sys2Proof.Machine
end

section
/-! PROOFS. Memory and streams: every step keeps the memory canonical, `DEC` takes bytes in order, and the host cannot disturb a
busy block (20_memory.md R65 to R67, R73, R76). -/

namespace Sys2Proof.Machine

variable {c : Params}

/-! ### What the block's own part of a transition keeps -/

/-- The moves to come are left alone, a canonical memory stays canonical, and bytes only go from the head of the receive stream to
the end of what has been taken. -/
structure Orderly (c : Params) (s t : State) : Prop where
  env : t.env = s.env
  canonical : Memory.wf s.mem c = true → Memory.wf t.mem c = true
  stream : t.rxTaken ++ t.rxStream = s.rxTaken ++ s.rxStream

section
variable {s t u : State}

theorem Orderly.trans (hsu : Orderly c s u) (hut : Orderly c u t) : Orderly c s t :=
  ⟨hut.env.trans hsu.env, hut.canonical ∘ hsu.canonical, hut.stream.trans hsu.stream⟩

/-- Registers alone are written. -/
theorem Orderly.of_same (henv : t.env = s.env) (hmem : t.mem = s.mem) (hstream : t.rxStream = s.rxStream)
    (hevents : t.events = s.events) : Orderly c s t :=
  ⟨henv, hmem ▸ id, by rw [State.rxTaken, State.rxTaken, hstream, hevents]⟩

theorem Orderly.refl (s : State) : Orderly c s s := .of_same rfl rfl rfl rfl

theorem Orderly.emit {e : Event} (h : Orderly c s u) (he : e.taken? = none) : Orderly c s (u.emit e) :=
  ⟨h.env, h.canonical, by simpa [State.rxTaken, he] using h.stream⟩

theorem Orderly.finish (h : Orderly c s u) (code : ResultCode) : Orderly c s (u.finish code) :=
  (h.emit (e := .done code) rfl).trans (.of_same rfl rfl rfl rfl)

/-- A byte of a memory is written, and registers. -/
theorem Orderly.of_stored {sp : Space} {i : Nat} {b : Byte} (hi : i < sp.size c) (hmem : t.mem = memStore s.mem (sp.base + i) b)
    (henv : t.env = s.env) (hstream : t.rxStream = s.rxStream) (hevents : t.events = s.events) : Orderly c s t :=
  ⟨henv, fun hs => hmem ▸ memStore_wf b hi hs, by rw [State.rxTaken, State.rxTaken, hstream, hevents]⟩

/-- The byte at the head of the stream is taken and stored (20_memory.md R76). -/
theorem Orderly.of_received {b : Byte} {rest : List Byte} (hpos : s.pos.toNat < Space.rxbuf.size c) (hhead : s.rxStream = b :: rest) :
    Orderly c s (received { s with rxStream := rest } b) :=
  ⟨rfl, memStore_wf b hpos, by simp [State.rxTaken, received, Event.taken?, hhead]⟩

/-! ### Each part of a transition is orderly -/

theorem csumStep_orderly (h : csumStep s c = .next t) : Orderly c s t := by
  rcases csumStep_next h with ⟨_, b, _, _, _, rfl⟩ | ⟨_, rfl⟩
  · exact .of_same rfl rfl rfl rfl
  · exact .finish (.refl s) .ok

theorem encStep_orderly (h : encStep s c = .next t) : Orderly c s t := by
  obtain ⟨hpos, ⟨_, rfl⟩ | ⟨_, rfl⟩ | ⟨_, rfl⟩ | ⟨_, v, _, rfl⟩ | ⟨_, rfl⟩ | ⟨_, rfl⟩⟩ := encStep_next h
  case inr.inr.inr.inr.inr =>
    refine .finish ?_ .ok
    exact .of_stored hpos rfl rfl rfl rfl
  all_goals exact .of_stored hpos rfl rfl rfl rfl

theorem txPut_orderly {sig : TxSignals} {b : Byte} {onSent : State → State}
    (hsent : Orderly c (s.emit (.tx b)) (onSent (s.emit (.tx b)))) : Orderly c s (txPut sig b s onSent) := by
  rcases txPut_cases sig b s onSent with ⟨_, he⟩ | ⟨_, he⟩ | ⟨_, he⟩ <;> rw [he]
  · exact .trans (.emit (.refl s) rfl) hsent
  · exact .finish (.emit (.refl s) rfl) .xfail
  · exact .refl s

theorem frameByteSent_orderly (s : State) : Orderly c s (frameByteSent s) := by
  have moved : Orderly c s { s with pos := s.pos + 1#9 } := .of_same rfl rfl rfl rfl
  rcases frameByteSent_cases s with ⟨_, he⟩ | ⟨_, he⟩ <;> rw [he]
  · exact moved.finish .ok
  · exact moved

theorem txAnswer_orderly {sig : TxSignals} (h : txAnswer sig s c = .next t) : Orderly c s t := by
  rcases txAnswer_next h with ⟨_, b, _, rfl⟩ | ⟨_, rfl⟩ | ⟨_, rfl⟩ | ⟨_, rfl⟩ | ⟨_, _, _, _, rfl⟩
  · exact txPut_orderly (frameByteSent_orderly _)
  · refine txPut_orderly (.finish ?_ .ok)
    exact .of_same rfl rfl rfl rfl
  · exact txPut_orderly (.finish (.refl _) .ok)
  · exact txPut_orderly (.finish (.refl _) _)
  · exact .refl _

theorem headerByte_orderly {b : Byte} {rest : List Byte} (hhead : s.rxStream = b :: rest)
    (h : headerByte b { s with rxStream := rest } c = .next t) : Orderly c s t := by
  rcases headerByte_next h with ⟨h0, rfl⟩ | ⟨h1, h⟩
  · exact .of_received (by simp [show s.pos = 0#9 from h0]) hhead
  · have taken : Orderly c s
        { received { s with rxStream := rest } b with len := b, acc := s.acc ^^^ b } :=
      .trans (.of_received (by simp [show s.pos = 1#9 from h1]) hhead) (.of_same rfl rfl rfl rfl)
    obtain ⟨first, _, ⟨_, rfl⟩ | ⟨_, _, rfl⟩ | ⟨_, _, rfl⟩⟩ := headerComplete_next h
    · exact taken.finish .invalidSof
    · exact taken.trans (.of_same rfl rfl rfl rfl)
    · exact .emit (taken.trans (.of_same rfl rfl rfl rfl)) rfl

theorem bodyByte_orderly {b : Byte} {rest : List Byte} (hhead : s.rxStream = b :: rest)
    (h : bodyByte b { s with rxStream := rest } c = .next t) : Orderly c s t := by
  obtain ⟨hpos, ⟨_, rfl⟩ | ⟨_, _, rfl⟩ | ⟨_, _, rfl⟩⟩ := bodyByte_next h
  all_goals exact .trans (.of_received hpos hhead) (.of_same rfl rfl rfl rfl)

theorem rxAnswer_orderly {sig : RxSignals} (h : rxAnswer sig s c = .next t) : Orderly c s t := by
  rcases rxAnswer_next h with rfl | ⟨_, rfl⟩ | ⟨_, rfl⟩ | ⟨_, rfl⟩ | ⟨_, b, rest, hhead, h⟩ | ⟨_, b, rest, hhead, h⟩
  · exact .refl _
  · exact .finish (.emit (.refl s) rfl) .xfail
  · exact .finish (.emit (.refl s) rfl) .invalidSofSize
  · exact .trans (.emit (.refl s) (e := .timeout) rfl) (.of_same rfl rfl rfl rfl)
  · exact headerByte_orderly hhead h
  · exact bodyByte_orderly hhead h

theorem selfStep_orderly (h : selfStep s c = .next t) : Orderly c s t := by
  rcases selfStep_next h with ⟨_, h⟩ | ⟨_, h⟩ | ⟨_, rfl⟩
  · exact csumStep_orderly h
  · exact encStep_orderly h
  · exact .refl _

theorem Started.orderly {i : Instr} {w : CmdWord} (h : Started c s i w u) : Orderly c s u := by
  have accepted : Orderly c s (s.accept w) := .trans (.emit (.refl s) (e := .cmd w) rfl) (.of_same rfl rfl rfl rfl)
  cases h with
  | dec => exact (accepted.emit (e := .arm 2#8) rfl).trans (.of_same rfl rfl rfl rfl)
  | csum | enc | send | ack | nack => exact accepted.trans (.of_same rfl rfl rfl rfl)

/-! ### A transition, with the moves it leaves -/

/-- What a transition can do: an orderly part of the block, after which no move is new, or the arrival of bytes that were to come. -/
inductive Ticked (c : Params) (s t : State) : Prop
  | orderly (env : List Move) (hsub : env ⊆ s.env) (h : Orderly c { s with env := env } t)
  | arrived (env : List Move) (bytes : List Byte) (hwire : .wire bytes ∈ s.env) (ht : t = { s with env := env }.arrive bytes)

theorem Ticked.stays : Ticked c s s := .orderly s.env (List.Subset.refl _) (.refl s)

theorem Ticked.of_otherMove {m : Move} {env : List Move} (hm : m ∈ s.env) (hsub : env ⊆ s.env)
    (h : otherMove m { s with env := env } c = .next t) : Ticked c s t := by
  cases m with
  | run => exact .orderly env hsub (selfStep_orderly h)
  | tx sig => exact .orderly env hsub (txAnswer_orderly h)
  | rx sig => exact .orderly env hsub (rxAnswer_orderly h)
  | wire bytes => exact .arrived env bytes hm (Host.Outcome.next.inj h).symm
  | wait | present | hread | hwrite | ackWait | reset => exact .orderly env hsub (Host.Outcome.next.inj h ▸ .refl _)

theorem Ticked.of_waitMove {rest : List Move} (henv : s.env = .wait :: rest) (h : waitMove rest s c = .next t) :
    Ticked c s t := by
  unfold waitMove at h
  split_ifs at h
  · exact .orderly rest (by simp [henv]) (Host.Outcome.next.inj h ▸ .refl _)
  · split at h
    · exact Host.Outcome.next.inj h ▸ .stays
    · split_ifs at h
      · exact Host.Outcome.next.inj h ▸ .stays
      · exact .of_otherMove (by simp [henv]) (by simp [henv]) h

theorem tick_ticked (h : tick s c = .next t) : Ticked c s t := by
  unfold tick at h
  split_ifs at h
  · exact .orderly s.env (List.Subset.refl _) (selfStep_orderly h)
  · split at h
    · exact Host.Outcome.next.inj h ▸ .stays
    · next rest henv => exact .of_waitMove henv h
    · next m rest _ henv =>
      split_ifs at h
      · exact Host.Outcome.next.inj h ▸ .stays
      · exact .of_otherMove (by simp [henv]) (by simp [henv]) h

end

/-! ### The canonical memory (20_memory.md R66, R67) -/

section
variable {s t : State}

theorem tick_canonical (hs : Memory.wf s.mem c = true) (h : tick s c = .next t) : Memory.wf t.mem c = true := by
  cases tick_ticked h with
  | orderly env _ h => exact h.canonical hs
  | arrived env bytes _ ht => exact ht ▸ hs

theorem execWith_canonical {i : Instr} (hs : Memory.wf s.mem c = true) (h : execWith c i s = .next t) :
    Memory.wf t.mem c = true := by
  cases execWith_next h with
  | arrived bytes _ ht => exact ht ▸ hs
  | notTaken _ ht => exact ht ▸ hs
  | refused w _ _ ht => exact ht ▸ hs
  | ran w u _ _ hstart hrun =>
    exact drive_keeps (P := fun s => Memory.wf s.mem c = true) (fun _ _ hs _ h => tick_canonical hs h) _
      (hstart.orderly.canonical hs) hrun

/-- The one byte a host can write is a byte of `PAY` (20_memory.md R67). -/
theorem hostWrite_canonical {a : HostAddr} {d : HostData} (hs : Memory.wf s.mem c = true) (h : hostWrite a d s c = .next t) :
    Memory.wf t.mem c = true := by
  rcases hostWrite_next h with ⟨j, _, hj, _, rfl⟩ | rfl
  · exact memStore_wf (d.setWidth 8) hj hs
  · exact hs

theorem awaitAck_mem {sig : RxSignals} (h : awaitAck sig s c = .next t) : t.mem = s.mem := by
  obtain ⟨_, ⟨b, rest, _, rfl⟩ | rfl | rfl | rfl⟩ := awaitAck_next h <;> rfl

theorem stepWith_canonical (hs : Memory.wf s.mem c = true) (h : stepWith c s = .next t) : Memory.wf t.mem c = true := by
  rcases stepVia_next h with ⟨w, env, h⟩ | ⟨a, env, h⟩ | ⟨a, d, env, h⟩ | ⟨sig, env, h⟩ | ⟨rest, _, rfl⟩ |
    ⟨bytes, rest, h⟩ | h
  · rcases presentWord_next h with ⟨_, rfl⟩ | ⟨_, i, _, h⟩ | ⟨_, _, rfl⟩
    · exact hs
    · exact execWith_canonical (s := { s with env := env }) hs h
    · exact hs
  · obtain ⟨o, rfl⟩ := hostRead_next h
    exact hs
  · exact hostWrite_canonical (s := { s with env := env }) hs h
  · exact awaitAck_mem h ▸ hs
  · exact nil_wf
  · rcases wireStep_next h with ⟨_, rfl⟩ | ⟨i, left, _, h⟩ | ⟨b, bs, _, _, _, rfl⟩
    · exact hs
    · exact execWith_canonical (s := { s with env := wireLeft left rest }) hs h
    · exact hs
  · exact tick_canonical hs h

end

/-- Settles O54: a step writes only bytes of a memory, each in its place, and a reset leaves none. -/
theorem stepsKeepTheMemoryCanonical : Obligations.StepsKeepTheMemoryCanonical :=
  fun s _ hs h => stepWith_canonical hs (step_eq_stepWith s ▸ h)

/-! ### The bytes of the receive stream (20_memory.md R65, R76) -/

section
variable {s t : State}

/-- No bytes are to arrive, and `bytes` are the bytes taken and those still waiting, in order. -/
def Conserves (bytes : List Byte) (s : State) : Prop :=
  (∀ m ∈ s.env, ∀ arriving, m ≠ Move.wire arriving) ∧ s.rxTaken ++ s.rxStream = bytes

theorem Orderly.conserves {bytes : List Byte} (h : Orderly c s t) (hs : Conserves bytes s) : Conserves bytes t :=
  ⟨h.env ▸ hs.1, h.stream.trans hs.2⟩

theorem tick_conserves {bytes : List Byte} (hs : Conserves bytes s) (h : tick s c = .next t) : Conserves bytes t := by
  obtain ⟨hquiet, htotal⟩ := hs
  cases tick_ticked h with
  | orderly env hsub h => exact h.conserves ⟨fun m hm => hquiet m (hsub hm), htotal⟩
  | arrived env arriving hwire _ => exact absurd rfl (hquiet _ hwire arriving)

/-- Every command, not `DEC` alone, takes bytes in order. -/
theorem execWith_conserves {bytes : List Byte} {i : Instr} {w : CmdWord} (hcmd : encode i c = .command w) (hs : Conserves bytes s)
    (h : execWith c i s = .next t) : Conserves bytes t := by
  cases execWith_next h with
  | arrived _ hwire => simp [hcmd] at hwire
  | notTaken _ ht => exact ht ▸ hs
  | refused w' _ _ ht =>
    have hrefuse : Orderly c s (s.refuse w') := .trans (.emit (.refl s) (e := .cmderr w') rfl) (.of_same rfl rfl rfl rfl)
    exact ht ▸ hrefuse.conserves hs
  | ran w' u _ _ hstart hrun =>
    exact drive_keeps (fun _ _ hs _ h => tick_conserves hs h) _ (hstart.orderly.conserves hs) hrun

end

/-- Settles O37: along the run of `DEC` what has been taken and what waits stay together the same bytes. -/
theorem decTakesBytesInOrder : Obligations.DecTakesBytesInOrder := by
  intro s t hquiet h
  obtain ⟨_, htotal⟩ := execWith_conserves rfl ⟨hquiet, rfl⟩ (exec_eq_execWith .dec s ▸ h)
  exact htotal

/-! ### The host and a busy block (20_memory.md R73; 44_host_access.md R244, R245, R247) -/

section
variable {s t : State}

/-- `t` is `s` but for the moves to come and what the host has observed. -/
def SameBlock (s t : State) : Prop := { t with env := s.env, hostLog := s.hostLog } = s

theorem presentWord_sameBlock {run : Instr → State → Result} {w : CmdWord} {env : List Move} (hbusy : s.status.busy = true)
    (h : presentWord run w { s with env := env } = .next t) : SameBlock s t := by
  rcases presentWord_next h with ⟨_, rfl⟩ | ⟨hidle, _⟩ | ⟨hidle, _⟩
  · rfl
  · simp [hbusy] at hidle
  · simp [hbusy] at hidle

theorem hostRead_sameBlock {a : HostAddr} {env : List Move} (h : hostRead a { s with env := env } c = .next t) :
    SameBlock s t := by
  obtain ⟨o, rfl⟩ := hostRead_next h
  rfl

theorem hostWrite_sameBlock {a : HostAddr} {d : HostData} {env : List Move} (hbusy : s.status.busy = true)
    (h : hostWrite a d { s with env := env } c = .next t) : SameBlock s t := by
  rcases hostWrite_next h with ⟨_, _, _, hidle, _⟩ | rfl
  · simp [hbusy] at hidle
  · rfl

/-- An ACK wait while busy has no next state (45_host_exchange.md R270). -/
theorem awaitAck_ne_next {sig : RxSignals} (hbusy : s.status.busy = true) : awaitAck sig s c ≠ .next t := fun h => by
  simpa [hbusy] using (awaitAck_next h).1

end

/-- Settles O60: a word is not taken, an access is observed and no more, and an ACK wait is refused. -/
theorem hostCannotDisturbABusyBlock : Obligations.HostCannotDisturbABusyBlock := by
  intro s t m rest hbusy henv hhost hne h
  rw [step, stepVia, henv] at h
  cases m with
  | present w => exact presentWord_sameBlock hbusy h
  | hread a => exact hostRead_sameBlock h
  | hwrite a d => exact hostWrite_sameBlock hbusy h
  | ackWait sig => exact absurd h (awaitAck_ne_next hbusy)
  | reset => exact absurd rfl hne
  | wait | run | tx | rx | wire => simp [Move.isHost] at hhost

end Sys2Proof.Machine
end

section
/-! PROOFS. The decoder and the encoder: a command word decodes exactly to the instruction it is the encoding of, and the bytes of a
wire unit parse as that unit (30_encoding.md R90, R93, R96, R102 to R105). -/

namespace Sys2Proof

/-! ### Command words by their fields (30_encoding.md R102) -/

section
variable {op : BitVec 4} {seq : Bool} {sel : BitVec 2} {a b : Nine} {w m p : CmdWord}

theorem eq_commandWord_iff : w = commandWord op seq sel a b ↔
    opField w = op ∧ seqField w = seq ∧ selField w = sel ∧ zeroField w = 0#7 ∧ fieldA w = a ∧ fieldB w = b := by
  constructor
  · rintro rfl
    simp
  · rintro ⟨rfl, rfl, rfl, hzero, rfl, rfl⟩
    exact (commandWord_of_fields w hzero).symm

theorem opField_and : opField (w &&& m) = opField w &&& opField m := BitVec.extractLsb'_and

theorem seqField_and : seqField (w &&& m) = (seqField w && seqField m) := BitVec.getLsbD_and

theorem selField_and : selField (w &&& m) = selField w &&& selField m := BitVec.extractLsb'_and

theorem zeroField_and : zeroField (w &&& m) = zeroField w &&& zeroField m := BitVec.extractLsb'_and

theorem fieldA_and : fieldA (w &&& m) = fieldA w &&& fieldA m := BitVec.extractLsb'_and

theorem fieldB_and : fieldB (w &&& m) = fieldB w &&& fieldB m := BitVec.extractLsb'_and

/-! ### The rows of the opcode map (30_encoding.md R103) -/

/-- Every mask of the map keeps `OP`, `S`, `BSEL` and `ZERO`; of the operands it keeps its own bits. -/
theorem and_mask_iff (hop : opField m = .allOnes 4) (hseq : seqField m = true) (hsel : selField m = .allOnes 2)
    (hzero : zeroField m = .allOnes 7) : w &&& m = commandWord op seq sel a b ↔
      opField w = op ∧ seqField w = seq ∧ selField w = sel ∧ zeroField w = 0#7 ∧ fieldA w &&& fieldA m = a ∧
      fieldB w &&& fieldB m = b := by
  rw [eq_commandWord_iff, opField_and, seqField_and, selField_and, zeroField_and, fieldA_and, fieldB_and, hop, hseq, hsel, hzero]
  simp only [BitVec.and_allOnes, Bool.and_true]

/-- The mask of the `CSUM` rows clears both operands. -/
theorem and_csumMask_iff (hp : p = commandWord op seq sel 0#9 0#9) :
    w &&& 0xFFFC0000#32 = p ↔ w = commandWord op seq sel (fieldA w) (fieldB w) := by
  have hA : fieldA 0xFFFC0000#32 = 0#9 := rfl
  have hB : fieldB 0xFFFC0000#32 = 0#9 := rfl
  rw [hp, and_mask_iff rfl rfl rfl rfl, eq_commandWord_iff, hA, hB]
  simp

/-- The mask of the `ENC` rows clears operand `B`. -/
theorem and_encMask_iff (hp : p = commandWord op seq sel a 0#9) :
    w &&& 0xFFFFFE00#32 = p ↔ w = commandWord op seq sel a (fieldB w) := by
  have hA : fieldA 0xFFFFFE00#32 = .allOnes 9 := rfl
  have hB : fieldB 0xFFFFFE00#32 = 0#9 := rfl
  rw [hp, and_mask_iff rfl rfl rfl rfl, eq_commandWord_iff, hA, hB, BitVec.and_allOnes]
  simp

end

variable {w : CmdWord} {r r' : CmdRow} {i : Instr}

/-- A word matches a row exactly if it is the encoding of the instruction the row makes of its operands. -/
theorem matches_iff_encode (hr : r ∈ cmdRows) :
    w &&& r.mask = r.pattern ↔ encode (r.make (fieldA w) (fieldB w)) = .command w := by
  have hexact (p : CmdWord) : w &&& 0xFFFFFFFF#32 = p ↔ w = p := iff_of_eq (congrArg (· = p) BitVec.and_allOnes)
  have hcode (p : CmdWord) : w = p ↔ Code.command p = .command w := by rw [Code.command.injEq, eq_comm]
  simp only [cmdRows, List.mem_cons, List.not_mem_nil, or_false] at hr
  rcases hr with rfl | rfl | rfl | rfl | rfl | rfl | rfl | rfl | rfl <;> refine Iff.trans ?_ (hcode _)
  iterate 3 exact and_csumMask_iff rfl
  iterate 2 exact and_encMask_iff rfl
  iterate 4 exact hexact _

/-- Two rows that one word matches agree on the pattern bits that both masks keep; no two rows of the map do. -/
theorem row_unique (hr : r ∈ cmdRows) (hr' : r' ∈ cmdRows) (h : w &&& r.mask = r.pattern) (h' : w &&& r'.mask = r'.pattern) :
    r = r' := by
  have hagree : r.pattern &&& r'.mask = r'.pattern &&& r.mask := by
    rw [← h, ← h', BitVec.and_assoc, BitVec.and_assoc, BitVec.and_comm r.mask]
  have hdistinct : ∀ r ∈ cmdRows, ∀ r' ∈ cmdRows, r.pattern &&& r'.mask = r'.pattern &&& r.mask →
      r.pattern = r'.pattern := by decide
  have hnodup : (cmdRows.map CmdRow.pattern).Nodup := by decide
  exact List.inj_on_of_nodup_map hnodup hr hr' (hdistinct r hr r' hr' hagree)

/-! ### Decoding a command word -/

/-- The decoder finds the row a word matches. -/
theorem decodeCommand_eq_ok_iff_matches :
    decodeCommand w = .ok i ↔ ∃ r ∈ cmdRows, w &&& r.mask = r.pattern ∧ r.make (fieldA w) (fieldB w) = i := by
  unfold decodeCommand
  split
  next r hfind =>
    have hr : r ∈ cmdRows := List.mem_of_find?_eq_some hfind
    have hmatch : w &&& r.mask = r.pattern := by simpa [CmdRow.admits] using List.find?_some hfind
    rw [Except.ok.injEq]
    refine ⟨fun hi => ⟨r, hr, hmatch, hi⟩, ?_⟩
    rintro ⟨r', hr', hmatch', hi⟩
    exact row_unique hr' hr hmatch' hmatch ▸ hi
  next hfind =>
    refine ⟨nofun, ?_⟩
    rintro ⟨r, hr, hmatch, _⟩
    exact absurd (beq_iff_eq.mpr hmatch) (List.find?_eq_none.mp hfind r hr)

/-- The operands of a command are the fields of its word, and one row makes it of them. -/
theorem exists_row_of_encode (h : encode i = .command w) : ∃ r ∈ cmdRows, r.make (fieldA w) (fieldB w) = i := by
  cases i <;> simp only [encode, Code.command.injEq, reduceCtorEq] at h
  all_goals subst h; simp [cmdRows]

/-- The decoder is the inverse of the encoder on command words. -/
theorem decodeCommand_eq_ok_iff : decodeCommand w = .ok i ↔ encode i = .command w := by
  rw [decodeCommand_eq_ok_iff_matches]
  constructor
  · rintro ⟨r, hr, hmatch, rfl⟩
    exact (matches_iff_encode hr).mp hmatch
  · intro h
    obtain ⟨r, hr, hmake⟩ := exists_row_of_encode h
    exact ⟨r, hr, (matches_iff_encode hr).mpr (hmake ▸ h), hmake⟩

/-- A word is legal exactly if it matches a row. -/
theorem legal_iff_matches : (∃ i, decodeCommand w = .ok i) ↔ ∃ r ∈ cmdRows, w &&& r.mask = r.pattern := by
  simp only [decodeCommand_eq_ok_iff_matches]
  constructor
  · rintro ⟨i, r, hr, hmatch, _⟩
    exact ⟨r, hr, hmatch⟩
  · rintro ⟨r, hr, hmatch⟩
    exact ⟨_, r, hr, hmatch, rfl⟩

/-! ### Parsing wire bytes (30_encoding.md R90, R93, R96) -/

/-- The bytes of a frame parse as that frame, whatever follows them, when the length field holds the length of the body. -/
theorem decodeWire_frameBytes {body : List Byte} (rest : List Byte) (hfits : body.length ≤ 255) :
    decodeWire (frameBytes body ++ rest) = .ok (.wireFrame body, rest) := by
  have hlen : (BitVec.ofNat 8 body.length).toNat = body.length := by
    rw [BitVec.toNat_ofNat]
    exact Nat.mod_eq_of_lt (by omega)
  simp [frameBytes, decodeWire, hlen]

/-! ### The statements -/

/-- Settles O2: the instruction comes from the row the word matches, and encodes as that word. -/
theorem encodeDecodeRoundTrip : Obligations.EncodeDecodeRoundTrip :=
  fun _ _ => decodeCommand_eq_ok_iff.mp

/-- Settles O5: a frame by its length field, a control code by its one byte. -/
theorem wireUnitsParse : Obligations.WireUnitsParse := by
  intro i bytes rest hwf hwire
  cases i with
  | wireFrame body =>
    obtain rfl : frameBytes body = bytes := by simpa [encode] using hwire
    exact decodeWire_frameBytes rest (by simpa [Instr.wellFormed, bodyFits] using hwf)
  | wireAck =>
    obtain rfl : [Config.hw.ackByte] = bytes := by simpa only [encode, Code.wire.injEq] using hwire
    rfl
  | wireNack =>
    obtain rfl : [Config.hw.nackByte] = bytes := by simpa only [encode, Code.wire.injEq] using hwire
    rfl
  | _ => simp [encode] at hwire

/-- Settles O1: a command by its row, a wire unit as the first unit of its own bytes. -/
theorem decodeEncodeRoundTrip : Obligations.DecodeEncodeRoundTrip := by
  intro i hwf
  cases hcode : encode i with
  | command w => exact decodeCommand_eq_ok_iff.mpr hcode
  | wire bytes =>
    have hparse : decodeWire bytes = .ok (i, []) := by simpa using wireUnitsParse i bytes [] hwf hcode
    simp [decode, hparse, Except.map]

/-- Settles O3: the decoder searches the rows, and no word matches two of them. -/
theorem legalWordsMatchOneRow : Obligations.LegalWordsMatchOneRow := by
  refine ⟨fun w => legal_iff_matches, fun w r hr r' hr' h h' => ?_⟩
  obtain rfl := row_unique hr hr' h h'
  exact ⟨rfl, rfl⟩

/-- Settles O6: each word or byte string is the encoding of what it stands for. -/
theorem writtenWordsDecode : Obligations.WrittenWordsDecode := by
  unfold Obligations.WrittenWordsDecode
  simp only [decodeCommand_eq_ok_iff]
  refine ⟨rfl, rfl, rfl, rfl, rfl, rfl, rfl, rfl, rfl, ?_, ?_, ?_⟩
  · exact wireUnitsParse (.wireFrame [0x13#8, 0xEE#8]) _ [] rfl rfl
  · exact wireUnitsParse .wireAck _ [] rfl rfl
  · exact wireUnitsParse .wireNack _ [] rfl rfl

end Sys2Proof
end

section
/-! PROOFS. How an instruction reaches the block: which words are illegal, and what the block does with a presented word and with an
arriving unit (10_state.md R38; 30_encoding.md R101, R105, R107). -/

namespace Sys2Proof.Machine

/-! ### The encodings of the two families with an operand -/

theorem encode_csumOf (sp : Space) (off cnt : Nine) :
    encode (csumOf sp off cnt) = .command (commandWord 1#4 false sp.select off cnt) := by
  cases sp <;> rfl

theorem encode_encOf (seq : Bool) (n : Nine) : encode (encOf seq n) = .command (commandWord 2#4 seq 0#2 0#9 n) := by
  cases seq <;> rfl

theorem exists_select {sel : BitVec 2} (h : sel ≠ 3#2) : ∃ sp : Space, sp.select = sel := by
  have hcases : ∀ sel : BitVec 2, sel = 0#2 ∨ sel = 1#2 ∨ sel = 2#2 ∨ sel = 3#2 := by decide
  rcases hcases sel with rfl | rfl | rfl | rfl
  · exact ⟨.txbuf, rfl⟩
  · exact ⟨.rxbuf, rfl⟩
  · exact ⟨.pay, rfl⟩
  · exact absurd rfl h

/-! ### Illegal words (30_encoding.md R105) -/

section
variable {w : CmdWord}

/-- The conditions that R105 lists. -/
def IllegalFields (w : CmdWord) : Prop :=
  opField w = 0#4 ∨ 7#4 ≤ opField w ∨ (selField w = 3#2 ∧ opField w = 1#4) ∨
  (seqField w = true ∧ opField w ≠ 2#4) ∨ (selField w ≠ 0#2 ∧ opField w ≠ 1#4) ∨ zeroField w ≠ 0#7 ∨
  (fieldA w ≠ 0#9 ∧ opField w ≠ 1#4) ∨ (fieldB w ≠ 0#9 ∧ opField w ≠ 1#4 ∧ opField w ≠ 2#4)

theorem illegal_iff_not_legal : (∃ e, decodeCommand w = .error e) ↔ ¬ ∃ i, decodeCommand w = .ok i := by
  cases decodeCommand w <;> simp

theorem not_illegalFields_of_encode {i : Instr} (h : encode i = .command w) : ¬ IllegalFields w := by
  cases i <;> simp only [encode, Code.command.injEq, reduceCtorEq] at h
  all_goals subst h; simp [IllegalFields]

theorem op_cases (op : BitVec 4) :
    op = 0#4 ∨ op = 1#4 ∨ op = 2#4 ∨ op = 3#4 ∨ op = 4#4 ∨ op = 5#4 ∨ op = 6#4 ∨ 7#4 ≤ op := by
  revert op
  decide

/-- What R105 leaves legal: `CSUM` of a memory, `ENC` with either flag, and the four words that are nothing but an `OP`. -/
theorem exists_encode_of_not_illegalFields (h : ¬ IllegalFields w) : ∃ i, encode i = .command w := by
  simp only [IllegalFields, not_or, not_and, not_not] at h
  obtain ⟨hop0, hop7, hsel3, hseq, hsel, hzero, hA, hB⟩ := h
  replace hseq (hop : opField w ≠ 2#4) : seqField w = false := by simpa using mt hseq hop
  replace hsel : opField w ≠ 1#4 → selField w = 0#2 := not_imp_comm.mp hsel
  replace hA : opField w ≠ 1#4 → fieldA w = 0#9 := not_imp_comm.mp hA
  have hbare (hop1 : opField w ≠ 1#4) (hop2 : opField w ≠ 2#4) : commandWord (opField w) false 0#2 0#9 0#9 = w :=
    have hB0 : fieldB w = 0#9 := by_contra fun hne => hop2 (hB hne hop1)
    (eq_commandWord_iff.mpr ⟨rfl, hseq hop2, hsel hop1, hzero, hA hop1, hB0⟩).symm
  rcases op_cases (opField w) with hop | hop | hop | hop | hop | hop | hop | hop
  · exact absurd hop hop0
  · obtain ⟨sp, hsp⟩ := exists_select fun hs => hsel3 hs hop
    have hw : w = commandWord 1#4 false sp.select (fieldA w) (fieldB w) :=
      eq_commandWord_iff.mpr ⟨hop, hseq (by simp [hop]), hsp.symm, hzero, rfl, rfl⟩
    exact ⟨csumOf sp (fieldA w) (fieldB w), (encode_csumOf ..).trans (congrArg _ hw.symm)⟩
  · have hne1 : opField w ≠ 1#4 := by simp [hop]
    have hw : w = commandWord 2#4 (seqField w) 0#2 0#9 (fieldB w) :=
      eq_commandWord_iff.mpr ⟨hop, rfl, hsel hne1, hzero, hA hne1, rfl⟩
    exact ⟨encOf (seqField w) (fieldB w), (encode_encOf ..).trans (congrArg _ hw.symm)⟩
  · exact ⟨.send, congrArg _ (hop ▸ hbare (by simp [hop]) (by simp [hop]))⟩
  · exact ⟨.dec, congrArg _ (hop ▸ hbare (by simp [hop]) (by simp [hop]))⟩
  · exact ⟨.ack, congrArg _ (hop ▸ hbare (by simp [hop]) (by simp [hop]))⟩
  · exact ⟨.nack, congrArg _ (hop ▸ hbare (by simp [hop]) (by simp [hop]))⟩
  · exact absurd hop hop7

theorem illegal_iff_illegalFields : (∃ e, decodeCommand w = .error e) ↔ IllegalFields w := by
  rw [illegal_iff_not_legal, not_iff_comm]
  simp only [decodeCommand_eq_ok_iff]
  constructor
  · exact exists_encode_of_not_illegalFields
  · rintro ⟨i, hi⟩
    exact not_illegalFields_of_encode hi

end

/-! ### A presented word, and a unit on the wire -/

section
variable {c : Params} {run : Instr → State → Result} {s : State} {w : CmdWord} {rest : List Move}

theorem step_present (henv : s.env = .present w :: rest) : step s = presentWord exec w { s with env := rest } := by
  rw [step, stepVia, henv]

theorem step_wire {bytes : List Byte} (henv : s.env = .wire bytes :: rest) : step s = wireStep exec bytes rest s := by
  rw [step, stepVia, henv]

theorem presentWord_of_busy (hbusy : s.status.busy = true) : presentWord run w s = .next s := by
  simp [presentWord, hbusy]

theorem presentWord_of_legal {i : Instr} (hidle : s.status.busy = false) (hlegal : decodeCommand w = .ok i) :
    presentWord run w s = run i s := by
  simp [presentWord, hidle, hlegal]

theorem presentWord_of_illegal {e : Illegal} (hidle : s.status.busy = false) (hillegal : decodeCommand w = .error e) :
    presentWord run w s = .next (s.refuse w) := by
  simp [presentWord, hidle, hillegal]

theorem wireLeft_eq (bytes : List Byte) (rest : List Move) :
    wireLeft bytes rest = if bytes = [] then rest else .wire bytes :: rest := by
  cases bytes <;> rfl

theorem wireStep_of_unit {bytes left : List Byte} {i : Instr} (hunit : decodeWire bytes c = .ok (i, left)) :
    wireStep run bytes rest s c = run i { s with env := wireLeft left rest } := by
  cases bytes with
  | nil => cases hunit
  | cons b bs => simp [wireStep, hunit]

/-! ### A command that is not taken, and one that is refused by value (30_encoding.md R101, R107) -/

variable {legal : State → Bool} {start : State → State}

theorem command_of_busy (hbusy : s.status.busy = true) : command w legal start s c = .next s := by
  simp [command, hbusy]

theorem command_of_not_legal (hidle : s.status.busy = false) (hvalue : legal s = false) :
    command w legal start s c = .next (s.refuse w) := by
  simp [command, hidle, hvalue]

theorem exec_csumOf (sp : Space) (off cnt : Nine) : exec (csumOf sp off cnt) s =
    command (commandWord 1#4 false sp.select off cnt) (fun _ => rangeFits sp off cnt) (fun s' => s'.startCsum) s := by
  cases sp <;> rfl

theorem exec_encOf (seq : Bool) (n : Nine) : exec (encOf seq n) s =
    command (commandWord 2#4 seq 0#2 0#9 n) (fun _ => payloadFits n) (fun s' => s'.startEnc) s := by
  cases seq <;> rfl

theorem exec_csumOf_refused {sp : Space} {off cnt : Nine} (hidle : s.status.busy = false)
    (hrange : sp.size < off.toNat + cnt.toNat) (hcode : encode (csumOf sp off cnt) = .command w) :
    exec (csumOf sp off cnt) s = .next (s.refuse w) := by
  obtain rfl : commandWord 1#4 false sp.select off cnt = w := by simpa [encode_csumOf] using hcode
  rw [exec_csumOf]
  exact command_of_not_legal hidle (decide_eq_false (Nat.not_le.mpr hrange))

theorem exec_encOf_refused {seq : Bool} {n : Nine} (hidle : s.status.busy = false) (hlong : Config.hw.maxPayload < n.toNat)
    (hcode : encode (encOf seq n) = .command w) : exec (encOf seq n) s = .next (s.refuse w) := by
  obtain rfl : commandWord 2#4 seq 0#2 0#9 n = w := by simpa [encode_encOf] using hcode
  rw [exec_encOf]
  exact command_of_not_legal hidle (decide_eq_false (Nat.not_le.mpr hlong))

theorem exec_send_refused (hidle : s.status.busy = false) (hnone : s.txlen = 0#9) (hcode : encode .send = .command w) :
    exec .send s = .next (s.refuse w) := by
  obtain rfl : commandWord 3#4 false 0#2 0#9 0#9 = w := by simpa [encode] using hcode
  exact command_of_not_legal hidle (by simp [frameBuilt, hnone])

end

/-! ### The statements -/

/-- Settles O4: the rows leave exactly the listed fields illegal, and `refuse` is the whole effect of such a word. -/
theorem illegalWordsAreRefused : Obligations.IllegalWordsAreRefused := by
  intro w
  refine ⟨?_, illegal_iff_illegalFields, ?_⟩
  · rw [illegal_iff_not_legal, legal_iff_matches]
    push Not
    rfl
  · rintro s rest ⟨e, hillegal⟩ hidle henv
    rw [step_present henv]
    exact presentWord_of_illegal hidle hillegal

/-- Settles O10: each check fails at its bound, and the command is refused. -/
theorem commandsRefusedByValue : Obligations.CommandsRefusedByValue := by
  intro s i w hidle hcode hvalue
  rcases hvalue with ⟨seq, n, rfl, hlong⟩ | ⟨off, cnt, rfl | rfl, hrange⟩ | ⟨off, cnt, rfl, hrange⟩ | ⟨rfl, hnone⟩
  · exact exec_encOf_refused hidle hlong hcode
  · exact exec_csumOf_refused (sp := .txbuf) hidle hrange hcode
  · exact exec_csumOf_refused (sp := .rxbuf) hidle hrange hcode
  · exact exec_csumOf_refused (sp := .pay) hidle hrange hcode
  · exact exec_send_refused hidle hnone hcode

/-- Settles O7: the word is taken and decoded, and the instruction runs with the presentation used up. -/
theorem stepRunsThePresentedCommand : Obligations.StepRunsThePresentedCommand := by
  intro s w rest i henv hidle hlegal
  rw [step_present henv]
  exact presentWord_of_legal hidle hlegal

/-- Settles O8: the first unit is parsed off and run, and what is left of the bytes stays scheduled. -/
theorem stepRunsTheArrivingUnit : Obligations.StepRunsTheArrivingUnit := by
  intro s bytes left rest i henv hunit
  rw [step_wire henv, wireStep_of_unit hunit, wireLeft_eq]

/-- Settles O9: neither the command port nor a command's meaning takes a word while busy. -/
theorem busyWordsAreNotTaken : Obligations.BusyWordsAreNotTaken := by
  constructor
  · intro s w rest henv hbusy
    rw [step_present henv]
    exact presentWord_of_busy hbusy
  · intro s i w hcode hbusy
    rw [exec_eq_execWith]
    rcases execWith_shape Config.hw i s with ⟨bytes, hwire, _⟩ | ⟨w', legal, start, _, hexec, _⟩
    · simp [hcode] at hwire
    · rw [hexec]
      exact command_of_busy hbusy

end Sys2Proof.Machine
end

section
/-! PROOFS. The checksum and `CSUM`: the laws of the running XOR, what `CSUM` makes of the bytes of its range, and what it leaves
unchanged (40_checksum.md R132 to R136). -/

namespace Sys2Proof.Machine

variable {c : Params}

/-! ### The running XOR (40_checksum.md R130, R132) -/

theorem foldBytes_perm (acc : Byte) {xs ys : List Byte} (h : xs.Perm ys) : foldBytes acc xs = foldBytes acc ys :=
  h.foldl_eq' (fun x _ y _ acc => by rw [BitVec.xor_assoc, BitVec.xor_comm x y, ← BitVec.xor_assoc]) acc

theorem checksum_perm {xs ys : List Byte} (h : xs.Perm ys) : checksum xs c = checksum ys c := foldBytes_perm _ h

section
variable (xs ys : List Byte) (b : Byte)

/-- Both parts carry the seed, so it is taken out once. -/
theorem checksum_append : checksum (xs ++ ys) c = checksum xs c ^^^ checksum ys c ^^^ c.csumSeed := by
  have hys : foldBytes 0#8 ys = checksum ys c ^^^ c.csumSeed := by
    rw [checksum, foldBytes_start c.csumSeed, BitVec.xor_comm, ← BitVec.xor_assoc, BitVec.xor_self, BitVec.zero_xor]
  calc checksum (xs ++ ys) c
    _ = checksum xs c ^^^ foldBytes 0#8 ys := by rw [checksum, foldBytes_append, foldBytes_start, checksum]
    _ = checksum xs c ^^^ checksum ys c ^^^ c.csumSeed := by rw [hys, BitVec.xor_assoc]

/-- A byte counts the same wherever it stands. -/
theorem checksum_middle : checksum (xs ++ b :: ys) c = checksum (xs ++ ys) c ^^^ b :=
  calc checksum (xs ++ b :: ys) c
    _ = checksum (xs ++ ys ++ [b]) c := checksum_perm (List.perm_middle.trans (List.perm_append_singleton b _).symm)
    _ = checksum (xs ++ ys) c ^^^ b := checksum_append_single _ b

theorem checksum_nil : checksum [] c = c.csumSeed := rfl

end

/-- Settles O13: (a) and (b) are about the fold, (c) to (f) follow since each byte can be taken to the end. -/
theorem checksumLaws : Obligations.ChecksumLaws := by
  refine ⟨fun _ _ => checksum_perm, checksum_append, fun xs => ?_, fun xs ys b k _ => ?_, fun x => ?_, fun xs ys => ?_⟩
  · rw [checksum_append_single, BitVec.xor_self]
  · rw [checksum_middle, checksum_middle, BitVec.xor_assoc]
  · have hpair : checksum [x, x] = checksum [] ^^^ x ^^^ x := by
      rw [← checksum_append_single, ← checksum_append_single, List.nil_append, List.singleton_append]
    rw [hpair, BitVec.xor_assoc, BitVec.xor_self, BitVec.xor_zero, checksum_nil, Config.hw_csumSeed]
  · rw [checksum_middle, BitVec.xor_zero]

/-! ### `CSUM` byte by byte (40_checksum.md R135) -/

/-- `CSUM` over a range of `sp` is in progress, and the next move leaves the block its steps. -/
structure Summing (c : Params) (s : State) (sp : Space) : Prop where
  phase : s.phase = .cRun
  selects : selected s.bsl = some sp
  yields : yieldsToBlock s.env = true
  fits : s.opa.toNat + s.opb.toNat ≤ sp.size c

/-- The state after the bytes of `bs` have been summed. -/
def State.summed (s : State) (bs : List Byte) : State :=
  { s with acc := foldBytes s.acc bs, pos := s.pos + BitVec.ofNat 9 bs.length }

theorem State.summed_nil (s : State) : s.summed [] = s := by simp [State.summed, foldBytes]

theorem State.summed_cons (s : State) (b : Byte) (bs : List Byte) : s.summed (b :: bs) = (s.summed [b]).summed bs := by
  have hpos : s.pos + BitVec.ofNat 9 (bs.length + 1) = s.pos + 1#9 + BitVec.ofNat 9 bs.length := by
    rw [BitVec.ofNat_add, BitVec.add_comm (BitVec.ofNat 9 bs.length), ← BitVec.add_assoc]
  simp [State.summed, foldBytes, hpos]

section
variable {s : State} {sp : Space} {b : Byte} {bs : List Byte} {n : Nat}

theorem State.summed_pos (h : s.pos.toNat + bs.length ≤ 257) : (s.summed bs).pos.toNat = s.pos.toNat + bs.length := by
  simp only [State.summed, BitVec.toNat_add, BitVec.toNat_ofNat]
  omega

@[simp] theorem State.summed_opa : (s.summed bs).opa = s.opa := rfl
@[simp] theorem State.summed_opb : (s.summed bs).opb = s.opb := rfl

theorem bytes?_cons_iff {i : Nat} : s.bytes? sp i (n + 1) c = some (b :: bs) ↔
    s.byte? sp i c = some b ∧ s.bytes? sp (i + 1) n c = some bs := by
  rw [State.bytes?]
  cases s.byte? sp i c <;> cases s.bytes? sp (i + 1) n c <;> simp

theorem State.summed_bytes? (i : Nat) : (s.summed bs).bytes? sp i n c = s.bytes? sp i n c := bytes?_congr sp i n fun _ _ _ => rfl

theorem Summing.summed (h : Summing c s sp) : Summing c (s.summed bs) sp := ⟨h.phase, h.selects, h.yields, h.fits⟩

theorem Summing.end_le (h : Summing c s sp) : s.opa.toNat + s.opb.toNat ≤ 257 := h.fits.trans sp.size_le

theorem Summing.csumStep_eq (h : Summing c s sp) (hpos : s.pos.toNat < s.opa.toNat + s.opb.toNat) :
    csumStep s c = s.withByte sp s.pos.toNat (fun b => .next (s.summed [b])) c := by
  rw [csumStep, if_pos hpos, h.selects]
  rfl

theorem csumStep_of_end (hpos : s.opa.toNat + s.opb.toNat ≤ s.pos.toNat) : csumStep s c = .next (s.finish .ok) := by
  rw [csumStep, if_neg (Nat.not_lt.mpr hpos)]

theorem drive_of_idle (fuel : Nat) (h : s.phase = .idle) : drive fuel s c = .next s := by
  cases fuel <;> simp [drive, State.goesOn, h]

/-- One transition of the run is one step in `C_RUN`. -/
theorem Summing.drive_succ (h : Summing c s sp) (fuel : Nat) :
    drive (fuel + 1) s c = andThen (csumStep s c) fun s' => drive fuel s' c := by
  have hinternal : s.internal = true := by simp [State.internal, h.phase]
  have hgoes : s.goesOn = true := by simp [State.goesOn, h.phase, hinternal, h.yields]
  have htick : tick s c = csumStep s c := by simp [tick, hinternal, h.yields, selfStep, h.phase]
  rw [drive, if_pos hgoes, htick]

/-- The written bytes next in the range are summed, one transition each. -/
theorem Summing.drive_bytes (h : Summing c s sp) (hbs : s.bytes? sp s.pos.toNat bs.length c = some bs)
    (hend : s.pos.toNat + bs.length ≤ s.opa.toNat + s.opb.toNat) (fuel : Nat) :
    drive (fuel + bs.length) s c = drive fuel (s.summed bs) c := by
  induction bs generalizing s with
  | nil => rw [State.summed_nil, List.length_nil, Nat.add_zero]
  | cons b bs ih =>
    have hlt := h.end_le
    rw [List.length_cons] at hbs hend
    obtain ⟨hb, hrest⟩ := bytes?_cons_iff.mp hbs
    have hpos : (s.summed [b]).pos.toNat = s.pos.toNat + 1 := State.summed_pos (bs := [b]) (by simp; omega)
    have hstep : csumStep s c = .next (s.summed [b]) := by
      rw [h.csumStep_eq (by omega), withByte_of_byte? _ hb]
    rw [List.length_cons, ← Nat.add_assoc, h.drive_succ, hstep, andThen_of_next, State.summed_cons s b bs]
    refine ih h.summed ?_ ?_
    · rw [State.summed_bytes?, hpos, hrest]
    · rw [hpos, State.summed_opa, State.summed_opb]
      omega

/-- A run that sums the written bytes next in the range comes to the step after them: the fuel is enough for a whole memory. -/
theorem Summing.runCommand_eq (h : Summing c s sp) (hbs : s.bytes? sp s.pos.toNat bs.length c = some bs)
    (hend : s.pos.toNat + bs.length ≤ s.opa.toNat + s.opb.toNat) :
    ∃ fuel, runCommand s c = andThen (csumStep (s.summed bs) c) fun s' => drive fuel s' c := by
  have hfuel : commandFuel s = s.env.length + (599 - bs.length) + 1 + bs.length := by
    have := h.end_le
    simp only [commandFuel]
    omega
  exact ⟨_, by rw [runCommand, hfuel, h.drive_bytes hbs hend, h.summed.drive_succ]⟩

/-- The first byte of a range that has no value, behind the bytes that have one. -/
theorem exists_first_unwritten {i : Nat} (h : ∃ k, k < n ∧ s.byte? sp (i + k) c = none) :
    ∃ bs, bs.length < n ∧ s.bytes? sp i bs.length c = some bs ∧ s.byte? sp (i + bs.length) c = none := by
  induction n generalizing i with
  | zero => obtain ⟨k, hk, _⟩ := h; omega
  | succ n ih =>
    obtain ⟨k, hk, hnone⟩ := h
    cases hb : s.byte? sp i c with
    | none => exact ⟨[], Nat.succ_pos n, rfl, hb⟩
    | some b =>
      cases k with
      | zero => simp [hb] at hnone
      | succ k =>
        have hnext (k : Nat) : i + (k + 1) = i + 1 + k := by omega
        rw [hnext] at hnone
        obtain ⟨bs, hlen, hbs, hfirst⟩ := ih ⟨k, by omega, hnone⟩
        exact ⟨b :: bs, Nat.succ_lt_succ hlen, bytes?_cons_iff.mpr ⟨hb, hbs⟩, by rwa [List.length_cons, hnext]⟩

end

/-! ### The command `CSUM` (40_checksum.md R133, R136) -/

section
variable {s : State} {sp : Space} {off cnt : Nine}

theorem command_of_legal {w : CmdWord} {legal : State → Bool} {start : State → State} (hidle : s.status.busy = false)
    (hvalue : legal s = true) : command w legal start s c = runCommand (start (s.accept w)) c := by
  simp [command, hidle, hvalue]

/-- The state in which an accepted `CSUM` begins to sum. -/
def State.csumStarted (s : State) (sp : Space) (off cnt : Nine) : State :=
  (s.accept (commandWord 1#4 false sp.select off cnt)).startCsum

theorem exec_csumOf_started (hidle : s.status.busy = false) (hfits : off.toNat + cnt.toNat ≤ sp.size) :
    exec (csumOf sp off cnt) s = runCommand (s.csumStarted sp off cnt) := by
  rw [exec_csumOf]
  exact command_of_legal hidle (decide_eq_true hfits)

theorem summing_csumStarted (hyields : yieldsToBlock s.env = true) (hfits : off.toNat + cnt.toNat ≤ sp.size) :
    Summing Config.hw (s.csumStarted sp off cnt) sp :=
  ⟨rfl, by simp [State.csumStarted], hyields, by simpa [State.csumStarted] using hfits⟩

@[simp] theorem State.csumStarted_pos : (s.csumStarted sp off cnt).pos = off := by simp [State.csumStarted]
@[simp] theorem State.csumStarted_opa : (s.csumStarted sp off cnt).opa = off := by simp [State.csumStarted]
@[simp] theorem State.csumStarted_opb : (s.csumStarted sp off cnt).opb = cnt := by simp [State.csumStarted]

theorem State.csumStarted_bytes? (i n : Nat) : (s.csumStarted sp off cnt).bytes? sp i n = s.bytes? sp i n :=
  bytes?_congr sp i n fun _ _ _ => rfl

end

/-- Settles O14: the run sums the whole range, and the step at its end finishes. -/
theorem csumCompletes : Obligations.CsumCompletes := by
  intro sp off cnt s bs w hidle hyields hfits hbs hcode
  obtain rfl : commandWord 1#4 false sp.select off cnt = w := by simpa [encode_csumOf] using hcode
  obtain ⟨hlen, _⟩ := bytes?_eq_some_iff.mp hbs
  have hle := sp.size_le (c := Config.hw)
  have hsum := summing_csumStarted hyields hfits
  obtain ⟨fuel, hrun⟩ := hsum.runCommand_eq (bs := bs) (by simp [State.csumStarted_bytes?, hlen, hbs]) (by simp [hlen])
  have hend : ((s.csumStarted sp off cnt).summed bs).pos.toNat = off.toNat + cnt.toNat := by
    rw [State.summed_pos (by simp; omega), State.csumStarted_pos, hlen]
  have hpos : off + BitVec.ofNat 9 bs.length = off + cnt := by rw [hlen, BitVec.ofNat_toNat, BitVec.setWidth_eq]
  rw [exec_csumOf_started hidle hfits, hrun, csumStep_of_end (by simp [hend]), andThen_of_next,
    drive_of_idle _ rfl]
  simp [State.summed, State.csumStarted, State.finish, State.startCsum, State.accept, Status.accepted, Status.finished,
    flagsAfter, checksum, hpos]

/-- Settles O15: the run sums the bytes before the first that has no value, and stops at that one. -/
theorem csumFaultsOnUnwrittenBytes : Obligations.CsumFaultsOnUnwrittenBytes := by
  intro sp off cnt s hidle hyields hfits hunwritten
  obtain ⟨bs, hlen, hbs, hnone⟩ := exists_first_unwritten hunwritten
  have hle := sp.size_le (c := Config.hw)
  have hsum := summing_csumStarted hyields hfits
  obtain ⟨fuel, hrun⟩ := hsum.runCommand_eq (bs := bs) (by simp [State.csumStarted_bytes?, hbs]) (by simp; omega)
  have hpos : ((s.csumStarted sp off cnt).summed bs).pos.toNat = off.toNat + bs.length := by
    rw [State.summed_pos (by simp; omega), State.csumStarted_pos]
  have hstep : csumStep ((s.csumStarted sp off cnt).summed bs) = .fault .unwrittenByte := by
    rw [hsum.summed.csumStep_eq (by simp [hpos]; omega), hpos]
    exact withByte_unwritten _ (by omega) hnone
  rw [exec_csumOf_started hidle hfits, hrun, hstep, andThen]

/-! ### What `CSUM` leaves unchanged (40_checksum.md R133) -/

/-- What `CSUM` leaves alone: the registers it does not write, the memories, what the host has observed, the bytes sent and taken. -/
def State.data (s : State) :
    Byte × Byte × Nine × Nine × Byte × ResultCode × List HostObs × Memory × List Byte × List Byte :=
  (s.len, s.seq, s.txlen, s.rxcnt, s.reslen, s.pend, s.hostLog, s.mem, s.txStream, s.rxTaken)

section
variable {s t : State}

theorem data_eq_iff : t.data = s.data ↔
    t.len = s.len ∧ t.seq = s.seq ∧ t.txlen = s.txlen ∧ t.rxcnt = s.rxcnt ∧ t.reslen = s.reslen ∧ t.pend = s.pend ∧
    t.hostLog = s.hostLog ∧ t.mem = s.mem ∧ t.txStream = s.txStream ∧ t.rxTaken = s.rxTaken := by
  simp only [State.data, Prod.mk.injEq]

/-- An event that carries no byte leaves the streams alone. -/
theorem data_emit (s : State) {e : Event} (hsent : e.sent? = none) (htaken : e.taken? = none) : (s.emit e).data = s.data := by
  simp [State.data, State.txStream, State.rxTaken, hsent, htaken]

theorem data_refuse (s : State) (w : CmdWord) : (s.refuse w).data = s.data := data_emit s (e := .cmderr w) rfl rfl

theorem data_finish (s : State) (code : ResultCode) : (s.finish code).data = s.data := data_emit s (e := .done code) rfl rfl

theorem data_csumStarted (s : State) (sp : Space) (off cnt : Nine) : (s.csumStarted sp off cnt).data = s.data :=
  data_emit s (e := .cmd (commandWord 1#4 false sp.select off cnt)) rfl rfl

/-- `CSUM` is in progress, or has ended, and the data are those of `s`. -/
def CsumKeeps (s t : State) : Prop := (t.phase = .cRun ∨ t.phase = .idle) ∧ t.data = s.data

/-- While `CSUM` sums, an answer of the transport has no effect, so a transition sums a byte, ends the command, or lets bytes arrive. -/
theorem tick_csumKeeps (hs : s.phase = .cRun) (h : tick s c = .next t) : CsumKeeps s t := by
  rcases tick_next h with ⟨_, env, h⟩ | ⟨hp, _⟩ | ⟨env, rfl⟩ | ⟨sig, env, h⟩ | ⟨sig, env, h⟩ | ⟨bytes, env, rfl⟩
  · rcases csumStep_next h with ⟨_, b, _, _, _, rfl⟩ | ⟨_, rfl⟩
    · exact ⟨.inl hs, rfl⟩
    · exact ⟨.inr rfl, data_finish { s with env := env } .ok⟩
  · simp [hs] at hp
  · exact ⟨.inl hs, rfl⟩
  · obtain rfl : { s with env := env } = t := by simpa [txAnswer, hs] using h
    exact ⟨.inl hs, rfl⟩
  · obtain rfl : { s with env := env } = t := by simpa [rxAnswer, hs] using h
    exact ⟨.inl hs, rfl⟩
  · exact ⟨.inl hs, rfl⟩

theorem runCommand_csumKeeps (hs : s.phase = .cRun) (h : runCommand s c = .next t) : CsumKeeps s t := by
  refine drive_keeps (P := CsumKeeps s) (fun u v hu hbusy hstep => ?_) _ ⟨.inl hs, rfl⟩ h
  obtain ⟨hphase, hsu⟩ := hu
  obtain ⟨hv, huv⟩ := tick_csumKeeps (hphase.resolve_right hbusy) hstep
  exact ⟨hv, huv.trans hsu⟩

theorem exec_csumOf_data {sp : Space} {off cnt : Nine} (h : exec (csumOf sp off cnt) s = .next t) : t.data = s.data := by
  rw [exec_csumOf] at h
  rcases command_next h with ⟨_, rfl⟩ | ⟨_, _, rfl⟩ | ⟨_, _, hrun⟩
  · rfl
  · exact data_refuse s _
  · obtain ⟨_, hdata⟩ := runCommand_csumKeeps rfl hrun
    exact hdata.trans (data_csumStarted s sp off cnt)

end

/-- Settles O16: a refusal, the start and every transition of `CSUM` leave the data as they were. -/
theorem csumFrame : Obligations.CsumFrame := by
  intro sp off cnt s t h
  obtain ⟨hlen, hseq, htxlen, hrxcnt, hreslen, hpend, hlog, hmem, hsent, htaken⟩ := data_eq_iff.mp (exec_csumOf_data h)
  exact ⟨hlen, hseq, htxlen, hrxcnt, hreslen, hpend, hlog, byte?_congr hmem, hsent, htaken⟩

end Sys2Proof.Machine
end

section
/-! PROOFS. The run of a command is never cut short: every transition uses up a move or a byte step, and `commandFuel` covers both
(41_encode.md R158; 70_reset_and_hazards.md R352). So a run can be followed one transition at a time, with no count of them. -/

namespace Sys2Proof.Machine

variable {c : Params}

/-! ### How many transitions are left -/

/-- A bound on the byte steps of the command in progress: each moves `POS` on, inside a memory. -/
def State.stepsLeft (s : State) : Nat := if s.internal then 512 - s.pos.toNat else 0

/-- A bound on the transitions of the command in progress: the moves to come, and the byte steps. -/
def State.turnsLeft (s : State) : Nat := s.env.length + s.stepsLeft

section
variable {s t : State}

theorem stepsLeft_of_not_internal (h : s.internal = false) : s.stepsLeft = 0 := by simp [State.stepsLeft, h]

theorem stepsLeft_pos (h : s.internal = true) : 0 < s.stepsLeft := by
  have := s.pos.isLt
  simp only [State.stepsLeft, h, if_true]
  omega

theorem turnsLeft_le_commandFuel (s : State) : s.turnsLeft ≤ commandFuel s := by
  simp only [State.turnsLeft, State.stepsLeft, commandFuel]
  split_ifs <;> omega

theorem lt_size_of_byte?_eq_some {sp : Space} {i : Nat} {b : Byte} (h : s.byte? sp i c = some b) : i < sp.size c := by
  by_contra hi
  simp [State.byte?, hi] at h

/-- A byte step that goes on in its phase has moved `POS` on inside a memory. -/
theorem stepsLeft_lt_of_moved (hs : s.internal = true) (hpos : s.pos.toNat < 257) (ht : t.pos = s.pos + 1#9) :
    t.stepsLeft < s.stepsLeft := by
  have hmoved : t.pos.toNat = s.pos.toNat + 1 := ht ▸ toNat_succ_of_le hpos.le
  simp only [State.stepsLeft, hs, hmoved, if_true]
  split_ifs <;> omega

theorem stepsLeft_lt_of_finish (hs : s.internal = true) (u : State) (code : ResultCode) :
    (u.finish code).stepsLeft < s.stepsLeft := by
  rw [stepsLeft_of_not_internal rfl]
  exact stepsLeft_pos hs

theorem csumStep_stepsLeft (hs : s.internal = true) (h : csumStep s c = .next t) : t.stepsLeft < s.stepsLeft := by
  rcases csumStep_next h with ⟨sp, b, _, _, hb, rfl⟩ | ⟨_, rfl⟩
  · exact stepsLeft_lt_of_moved hs ((lt_size_of_byte?_eq_some hb).trans_le sp.size_le) rfl
  · exact stepsLeft_lt_of_finish hs _ _

theorem encStep_stepsLeft (hs : s.internal = true) (h : encStep s c = .next t) : t.stepsLeft < s.stepsLeft := by
  obtain ⟨hpos, ⟨_, rfl⟩ | ⟨_, rfl⟩ | ⟨_, rfl⟩ | ⟨_, v, _, rfl⟩ | ⟨_, rfl⟩ | ⟨_, rfl⟩⟩ := encStep_next h
  case inr.inr.inr.inr.inr => exact stepsLeft_lt_of_finish hs _ _
  all_goals exact stepsLeft_lt_of_moved hs hpos rfl

theorem selfStep_stepsLeft (hs : s.internal = true) (h : selfStep s c = .next t) : t.stepsLeft < s.stepsLeft := by
  rcases selfStep_next h with ⟨_, h⟩ | ⟨_, h⟩ | ⟨hs', _⟩
  · exact csumStep_stepsLeft hs h
  · exact encStep_stepsLeft hs h
  · simp [hs] at hs'

/-! ### An answer of the transport starts no byte steps -/

theorem txPut_internal {sig : TxSignals} {b : Byte} {onSent : State → State} (hs : s.internal = false)
    (hsent : (onSent (s.emit (.tx b))).internal = false) : (txPut sig b s onSent).internal = false := by
  rcases txPut_cases sig b s onSent with ⟨_, he⟩ | ⟨_, he⟩ | ⟨_, he⟩ <;> rw [he]
  · exact hsent
  · rfl
  · exact hs

theorem frameByteSent_internal (hs : s.internal = false) : (frameByteSent s).internal = false := by
  rcases frameByteSent_cases s with ⟨_, he⟩ | ⟨_, he⟩ <;> rw [he]
  · rfl
  · exact hs

theorem txAnswer_stepsLeft {sig : TxSignals} (h : txAnswer sig s c = .next t) : t.stepsLeft ≤ s.stepsLeft := by
  have quiet (ht : t.internal = false) : t.stepsLeft ≤ s.stepsLeft := stepsLeft_of_not_internal ht ▸ Nat.zero_le _
  rcases txAnswer_next h with ⟨hp, b, _, rfl⟩ | ⟨hp, rfl⟩ | ⟨hp, rfl⟩ | ⟨hp, rfl⟩ | ⟨_, _, _, _, rfl⟩
  · have hs : s.internal = false := by simp [State.internal, hp]
    exact quiet (txPut_internal hs (frameByteSent_internal hs))
  · exact quiet (txPut_internal (by simp [State.internal, hp]) rfl)
  · exact quiet (txPut_internal (by simp [State.internal, hp]) rfl)
  · exact quiet (txPut_internal (by simp [State.internal, hp]) rfl)
  · exact le_rfl

theorem headerByte_internal {b : Byte} (hs : s.internal = false) (h : headerByte b s c = .next t) : t.internal = false := by
  rcases headerByte_next h with ⟨_, rfl⟩ | ⟨_, h⟩
  · exact hs
  · obtain ⟨first, _, ⟨_, rfl⟩ | ⟨_, _, rfl⟩ | ⟨_, _, rfl⟩⟩ := headerComplete_next h <;> rfl

theorem bodyByte_internal {b : Byte} (hs : s.internal = false) (h : bodyByte b s c = .next t) : t.internal = false := by
  obtain ⟨_, ⟨_, rfl⟩ | ⟨_, _, rfl⟩ | ⟨_, _, rfl⟩⟩ := bodyByte_next h
  · exact hs
  · rfl
  · rfl

theorem rxAnswer_stepsLeft {sig : RxSignals} (h : rxAnswer sig s c = .next t) : t.stepsLeft ≤ s.stepsLeft := by
  have quiet (ht : t.internal = false) : t.stepsLeft ≤ s.stepsLeft := stepsLeft_of_not_internal ht ▸ Nat.zero_le _
  rcases rxAnswer_next h with rfl | ⟨_, rfl⟩ | ⟨_, rfl⟩ | ⟨_, rfl⟩ | ⟨hp, b, rest, _, h⟩ | ⟨hp, b, rest, _, h⟩
  · exact le_rfl
  · exact quiet rfl
  · exact quiet rfl
  · exact quiet rfl
  · exact quiet (headerByte_internal (by simp [State.internal, hp]) h)
  · exact quiet (bodyByte_internal (by simp [State.internal, hp]) h)

/-! ### Every transition uses up a move or a byte step -/

/-- A move of another than the host leaves the moves behind it, and no more byte steps than there were. -/
theorem otherMove_turns {m : Move} (h : otherMove m s c = .next t) : t.env = s.env ∧ t.stepsLeft ≤ s.stepsLeft := by
  cases m with
  | run =>
    refine ⟨(selfStep_orderly h).env, ?_⟩
    cases hs : s.internal with
    | true => exact (selfStep_stepsLeft hs h).le
    | false =>
      rcases selfStep_next h with ⟨hp, _⟩ | ⟨hp, _⟩ | ⟨_, rfl⟩
      · simp [State.internal, hp] at hs
      · simp [State.internal, hp] at hs
      · exact le_rfl
  | tx sig => exact ⟨(txAnswer_orderly h).env, txAnswer_stepsLeft h⟩
  | rx sig => exact ⟨(rxAnswer_orderly h).env, rxAnswer_stepsLeft h⟩
  | wire bytes => exact Host.Outcome.next.inj h ▸ ⟨rfl, le_rfl⟩
  | wait | present | hread | hwrite | ackWait | reset => exact Host.Outcome.next.inj h ▸ ⟨rfl, le_rfl⟩

theorem otherMove_turnsLeft {m : Move} {env : List Move} (hshort : env.length < s.env.length)
    (h : otherMove m { s with env := env } c = .next t) : t.turnsLeft < s.turnsLeft := by
  obtain ⟨henv, hsteps⟩ := otherMove_turns h
  calc t.turnsLeft = env.length + t.stepsLeft := by rw [State.turnsLeft, henv]
    _ ≤ env.length + s.stepsLeft := Nat.add_le_add_left hsteps _
    _ < s.turnsLeft := Nat.add_lt_add_right hshort _

theorem waitMove_turnsLeft {rest : List Move} (henv : s.env = .wait :: rest) (hothers : othersNext s.env = true)
    (h : waitMove rest s c = .next t) : t.turnsLeft < s.turnsLeft := by
  cases hdone : s.status.done with
  | true =>
    obtain rfl := Host.Outcome.next.inj ((waitMove_of_done hdone).symm.trans h)
    exact Nat.add_lt_add_right (by simp [henv]) s.stepsLeft
  | false =>
    cases rest with
    | nil => simp [henv, othersNext] at hothers
    | cons m later =>
      have hm : m.isHost = false := by simpa [henv, othersNext] using hothers
      rw [waitMove_of_other hdone hm] at h
      exact otherMove_turnsLeft (by simp [henv]) h

theorem tick_turnsLeft (hgo : s.goesOn = true) (h : tick s c = .next t) : t.turnsLeft < s.turnsLeft := by
  unfold tick at h
  split_ifs at h with hself
  · have hint : s.internal = true := (Bool.and_eq_true_iff.mp hself).1
    have hsteps := selfStep_stepsLeft hint h
    simp only [State.turnsLeft, (selfStep_orderly h).env]
    omega
  · have hothers : othersNext s.env = true := by
      simp only [State.goesOn, Bool.and_eq_true, Bool.or_eq_true] at hgo hself
      exact hgo.2.resolve_left hself
    split at h
    · next henv => simp [henv, othersNext] at hothers
    · next henv => exact waitMove_turnsLeft henv hothers h
    · next m rest hwait henv =>
      split_ifs at h with hhost
      · cases m <;> simp [henv, othersNext, Move.isHost] at hothers hhost
      · exact otherMove_turnsLeft (by simp [henv]) h

/-! ### The run of a command -/

theorem turnsLeft_pos (hgo : s.goesOn = true) : 0 < s.turnsLeft := by
  simp only [State.goesOn, Bool.and_eq_true, Bool.or_eq_true] at hgo
  obtain ⟨_, ⟨hint, _⟩ | hothers⟩ := hgo
  · have := stepsLeft_pos hint
    simp only [State.turnsLeft]
    omega
  · cases henv : s.env with
    | nil => simp [henv, othersNext] at hothers
    | cons m rest => simp only [State.turnsLeft, henv, List.length_cons]; omega

/-- With a transition for each turn left, it stops only where the command can go on no more. -/
theorem drive_ends {fuel : Nat} (hfuel : s.turnsLeft ≤ fuel) (h : drive fuel s c = .next t) : t.goesOn = false := by
  induction fuel generalizing s with
  | zero =>
    obtain rfl := Host.Outcome.next.inj h
    by_contra hgo
    have := turnsLeft_pos (eq_true_of_ne_false hgo)
    omega
  | succ fuel ih =>
    unfold drive at h
    split_ifs at h with hgo
    · obtain ⟨u, hu, ht⟩ := andThen_next h
      have := tick_turnsLeft hgo hu
      exact ih (by omega) ht
    · obtain rfl := Host.Outcome.next.inj h
      exact eq_false_of_ne_true hgo

/-- More fuel than there are turns left makes no difference. -/
theorem drive_congr {fuel fuel' : Nat} (h : s.turnsLeft ≤ fuel) (h' : s.turnsLeft ≤ fuel') :
    drive fuel s c = drive fuel' s c := by
  induction fuel generalizing s fuel' with
  | zero =>
    have hgo : s.goesOn = false := by
      by_contra hgo
      have := turnsLeft_pos (eq_true_of_ne_false hgo)
      omega
    cases fuel' <;> simp [drive, hgo]
  | succ fuel ih =>
    cases hgo : s.goesOn with
    | false => cases fuel' <;> simp [drive, hgo]
    | true =>
      obtain ⟨fuel', rfl⟩ := Nat.exists_eq_add_one.mpr ((turnsLeft_pos hgo).trans_le h')
      simp only [drive, hgo, if_true]
      cases hu : tick s c with
      | next u =>
        have := tick_turnsLeft hgo hu
        exact ih (by omega) (by omega)
      | fault f => rfl
      | refused e => rfl

/-- A run is its first transition and the run from there. -/
theorem runCommand_of_goesOn (hgo : s.goesOn = true) : runCommand s c = andThen (tick s c) fun u => runCommand u c := by
  obtain ⟨fuel, hfuel⟩ : ∃ fuel, commandFuel s = fuel + 1 := ⟨s.env.length + 599, rfl⟩
  rw [runCommand, hfuel, drive, if_pos hgo]
  cases hu : tick s c with
  | next u =>
    have := tick_turnsLeft hgo hu
    have := turnsLeft_le_commandFuel s
    exact drive_congr (by omega) (turnsLeft_le_commandFuel u)
  | fault f => rfl
  | refused e => rfl

theorem runCommand_of_idle (hidle : s.phase = .idle) : runCommand s c = .next s := drive_of_idle _ hidle

theorem goesOn_of_idle (hidle : s.phase = .idle) : s.goesOn = false := by simp [State.goesOn, hidle]

end

/-- Settles O11: the fuel covers every turn, and a word that is not taken or is refused leaves the block idle. -/
theorem commandsEndOrWait : Obligations.CommandsEndOrWait := by
  intro s t i w hcmd hphase h
  cases exec_next h with
  | arrived bytes hwire => simp [hcmd] at hwire
  | notTaken _ ht => exact ht ▸ goesOn_of_idle hphase
  | refused w' _ _ ht => exact ht ▸ goesOn_of_idle (s := s.refuse w') hphase
  | ran w' u _ _ _ hrun => exact drive_ends (turnsLeft_le_commandFuel u) hrun

end Sys2Proof.Machine
end

section
/-! PROOFS. `ENC` and `ENC.S`: the frame they build byte by byte, where they stop, what they leave unchanged, and the numbers a row
of `ENC.S` gives its frames (41_encode.md R150 to R162). -/

namespace Sys2Proof.Machine

variable {c : Params}

/-! ### Bytes stored in a row -/

/-- Lists bytes at the addresses from `a` on, in order. -/
def storeBytes : Memory → Nat → List Byte → Memory
  | m, _, [] => m
  | m, a, b :: bs => storeBytes (memStore m a b) (a + 1) bs

theorem storeBytes_append (m : Memory) (a : Nat) (bs bs' : List Byte) :
    storeBytes m a (bs ++ bs') = storeBytes (storeBytes m a bs) (a + bs.length) bs' := by
  induction bs generalizing m a with
  | nil => rfl
  | cons b bs ih =>
    rw [List.cons_append, storeBytes, ih, storeBytes, List.length_cons, Nat.add_assoc, Nat.add_comm 1]

theorem storeBytes_append_single (m : Memory) (a : Nat) (bs : List Byte) (b : Byte) :
    storeBytes m a (bs ++ [b]) = memStore (storeBytes m a bs) (a + bs.length) b := storeBytes_append m a bs [b]

section
variable {s t : State} {sp : Space} {i : Nat} {bs : List Byte}

/-- Reading a byte after bytes have been stored in a row. -/
theorem byte?_storeBytes (hfit : i + bs.length ≤ sp.size c) (hmem : t.mem = storeBytes s.mem (sp.base + i) bs) (sp' : Space)
    (k : Nat) : t.byte? sp' k c = if sp' = sp ∧ i ≤ k ∧ k < i + bs.length then bs[k - i]? else s.byte? sp' k c := by
  induction bs generalizing s i with
  | nil => rw [if_neg (by simp), byte?_congr hmem]
  | cons b bs ih =>
    rw [List.length_cons] at hfit
    rw [ih (s := { s with mem := memStore s.mem (sp.base + i) b }) (i := i + 1) (by omega) hmem,
      byte?_memStore s sp sp' i k b (by omega), List.length_cons]
    by_cases hsp : sp' = sp
    · rcases Nat.lt_trichotomy k i with hk | rfl | hk
      · rw [if_neg (by omega), if_neg (by omega), if_neg (by omega)]
      · rw [if_neg (by omega), if_pos ⟨hsp, rfl⟩, if_pos ⟨hsp, by omega⟩]
        simp
      · obtain ⟨j, rfl⟩ := Nat.exists_eq_add_of_lt hk
        have hj : i + j + 1 - i = j + 1 := by omega
        have hj' : i + j + 1 - (i + 1) = j := by omega
        by_cases hlt : j < bs.length
        · rw [if_pos ⟨hsp, by omega⟩, if_pos ⟨hsp, by omega⟩, hj, hj', List.getElem?_cons_succ]
        · rw [if_neg (by omega), if_neg (by omega), if_neg (by omega)]
    · simp only [hsp, false_and, if_false]

/-- The bytes stored stand where they were stored. -/
theorem bytes?_storeBytes (hfit : i + bs.length ≤ sp.size c) (hmem : t.mem = storeBytes s.mem (sp.base + i) bs) :
    t.bytes? sp i bs.length c = some bs := by
  refine bytes?_eq_some_iff.mpr ⟨rfl, fun k hk => ?_⟩
  rw [byte?_storeBytes hfit hmem, if_pos ⟨rfl, by omega⟩, Nat.add_sub_cancel_left, List.getElem?_eq_getElem hk]

/-- Every other byte is as it was. -/
theorem sameBytesOutside_storeBytes (hfit : i + bs.length ≤ sp.size c) (hmem : t.mem = storeBytes s.mem (sp.base + i) bs) :
    sameBytesOutside s t sp i bs.length c :=
  fun sp' k hk => (byte?_storeBytes hfit hmem sp' k).trans (if_neg hk)

end

/-! ### The frame, byte by byte (41_encode.md R154 to R156) -/

/-- `ENC` or `ENC.S` with a payload that fits is at its first byte step, and the next move leaves the block its steps. -/
structure Building (c : Params) (s : State) : Prop where
  phase : s.phase = .eRun
  yields : yieldsToBlock s.env = true
  pos : s.pos = 0#9
  fits : s.opb.toNat ≤ c.maxPayload

/-- The byte that stands before the checksum at an offset of the frame that `ENC` builds from `s`, if it has a value. -/
def State.frameByte? (s : State) (k : Nat) (c : Params := Config.hw) : Option Byte :=
  match fieldOut k s.opb.toNat s.sfl with
  | .sof => some c.sof
  | .len => some s.len
  | .type => some c.typeReq
  | .pay => s.byte? .pay (k - 3) c
  | .seq => some s.seq
  | .csum => none
  | .body => none
  | .none => none

/-- The state after the first bytes of the frame, `bs`, have been put: all but the marker are folded, and the sequence step, if it
is among them, has advanced the counter. -/
def State.built (s : State) (bs : List Byte) : State :=
  { s with
    mem := storeBytes s.mem (Space.txbuf.base + 0) bs
    acc := foldBytes s.acc (bs.drop 1)
    pos := BitVec.ofNat 9 bs.length
    seq := if 3 + s.opb.toNat < bs.length then s.seq + 1#8 else s.seq }

section
variable {s : State} {bs : List Byte} {v : Byte}

@[simp] theorem State.built_opb : (s.built bs).opb = s.opb := rfl
@[simp] theorem State.built_sfl : (s.built bs).sfl = s.sfl := rfl

theorem State.built_pos (h : bs.length ≤ 257) : (s.built bs).pos.toNat = bs.length := by
  change (BitVec.ofNat 9 bs.length).toNat = _
  rw [BitVec.toNat_ofNat, Nat.mod_eq_of_lt (by omega)]

theorem State.built_nil (h : s.pos = 0#9) : s.built [] = s := by simp [State.built, storeBytes, foldBytes, ← h]

/-- A byte of `PAY` is not touched. -/
theorem State.built_byte?_pay (h : bs.length ≤ 257) (k : Nat) : (s.built bs).byte? .pay k c = s.byte? .pay k c := by
  rw [byte?_storeBytes (s := s) (sp := .txbuf) (i := 0) (bs := bs) (by simpa using h) rfl, if_neg (by simp)]

theorem ofNat_length_append_single (bs : List Byte) (v : Byte) :
    BitVec.ofNat 9 (bs ++ [v]).length = BitVec.ofNat 9 bs.length + 1#9 := by
  rw [List.length_append, List.length_singleton, BitVec.ofNat_add]

theorem memStore_built (h : bs.length ≤ 257) (v : Byte) :
    memStore (s.built bs).mem (Space.txbuf.base + (s.built bs).pos.toNat) v =
      storeBytes s.mem (Space.txbuf.base + 0) (bs ++ [v]) := by
  rw [State.built_pos h, storeBytes_append_single]
  rfl

theorem sofPut_built (h : bs = []) : sofPut (s.built bs) c = s.built (bs ++ [c.sof]) := by
  subst h
  rw [sofPut, memStore_built (by simp)]
  simp [State.built, foldBytes]

theorem foldBytes_drop_append_single (acc : Byte) (h : bs ≠ []) (v : Byte) :
    foldBytes acc ((bs ++ [v]).drop 1) = foldBytes acc (bs.drop 1) ^^^ v := by
  cases bs with
  | nil => exact absurd rfl h
  | cons b bs => simp [foldBytes]

/-- A covered byte that is not the sequence byte leaves the counter as it is. -/
theorem coveredPut_built (hlen : bs.length ≤ 257) (hne : bs ≠ []) (hseq : bs.length ≠ 3 + s.opb.toNat) (v : Byte) :
    coveredPut (s.built bs) v = s.built (bs ++ [v]) := by
  have hmoved : 3 + s.opb.toNat < (bs ++ [v]).length ↔ 3 + s.opb.toNat < bs.length := by simp; omega
  rw [coveredPut, memStore_built hlen]
  simp only [State.built, foldBytes_drop_append_single _ hne, ofNat_length_append_single, hmoved]

theorem seqPut_built (hlen : bs.length ≤ 257) (hseq : bs.length = 3 + s.opb.toNat) :
    seqPut (s.built bs) = s.built (bs ++ [s.seq]) := by
  have hne : bs ≠ [] := List.ne_nil_of_length_pos (by omega)
  have hnow : (s.built bs).seq = s.seq := if_neg (by omega)
  have hmoved : 3 + s.opb.toNat < (bs ++ [s.seq]).length := by simp; omega
  rw [seqPut, hnow, memStore_built hlen]
  simp only [State.built, foldBytes_drop_append_single _ hne, ofNat_length_append_single, if_pos hmoved]

/-- A byte step puts the byte of the frame at `POS`. -/
theorem Building.encStep_eq (h : Building c s) (hv : s.frameByte? bs.length c = some v) :
    encStep (s.built bs) c = .next (s.built (bs ++ [v])) := by
  have hlen : bs.length < 257 := by
    have hsome : fieldOut bs.length s.opb.toNat s.sfl ≠ .none := fun hf => by simp [State.frameByte?, hf] at hv
    have hin := mt fieldOut_eq_none_iff.mpr hsome
    have := h.fits
    have := c.maxPayload_le
    have := s.sfl.toNat_le
    rw [lengthField] at hin
    omega
  have hpos : (s.built bs).pos.toNat = bs.length := State.built_pos hlen.le
  have hstore (u : Byte) (k : State → Result) := withStore_of_lt (c := c) (s := s.built bs) (sp := .txbuf)
    (i := (s.built bs).pos.toNat) u k (by rw [hpos]; exact hlen)
  have covered (hne : 0 < bs.length) (hseq : bs.length ≠ 3 + s.opb.toNat) (u : Byte) :
      putCovered (s.built bs) u c = .next (s.built (bs ++ [u])) :=
    (hstore u _).trans (congrArg _ (coveredPut_built hlen.le (List.ne_nil_of_length_pos hne) hseq u))
  rw [encStep, hpos, State.built_opb, State.built_sfl]
  rw [State.frameByte?] at hv
  cases hf : fieldOut bs.length s.opb.toNat s.sfl <;> simp only [hf, Option.some.injEq, reduceCtorEq] at hv ⊢
  case sof =>
    subst hv
    exact (hstore _ _).trans (congrArg _ (sofPut_built (List.length_eq_zero_iff.mp (fieldOut_eq_sof_iff.mp hf))))
  case len =>
    have := fieldOut_eq_len_iff.mp hf
    exact hv ▸ covered (by omega) (by omega) _
  case type =>
    have := fieldOut_eq_type_iff.mp hf
    exact hv ▸ covered (by omega) (by omega) _
  case pay =>
    have := fieldOut_eq_pay_iff.mp hf
    rw [withByte_of_byte? _ ((State.built_byte?_pay hlen.le _).trans hv)]
    exact covered (by omega) (by omega) _
  case seq =>
    subst hv
    have hseq := (fieldOut_eq_seq_iff.mp hf).1
    exact (hstore _ _).trans (congrArg _ (seqPut_built hlen.le hseq))

/-- One transition of the run is one step in `E_RUN`. -/
theorem Building.runCommand_succ (h : Building c s) :
    runCommand (s.built bs) c = andThen (encStep (s.built bs) c) fun t => runCommand t c := by
  have hphase : (s.built bs).phase = .eRun := h.phase
  have hyields : yieldsToBlock (s.built bs).env = true := h.yields
  have hinternal : (s.built bs).internal = true := by simp [State.internal, hphase]
  have htick : tick (s.built bs) c = encStep (s.built bs) c := by simp [tick, hinternal, hyields, selfStep, hphase]
  rw [runCommand_of_goesOn (by simp [State.goesOn, hphase, hinternal, hyields]), htick]

/-- The run comes to the state in which the bytes of the frame that have a value have been put. -/
theorem Building.runCommand_built (h : Building c s) (hbs : ∀ k (hk : k < bs.length), s.frameByte? k c = some bs[k]) :
    runCommand s c = runCommand (s.built bs) c := by
  induction bs using List.reverseRecOn with
  | nil => rw [State.built_nil h.pos]
  | append_singleton bs v ih =>
    have hv : s.frameByte? bs.length c = some v := by simpa using hbs bs.length (by simp)
    have hbefore : ∀ k (hk : k < bs.length), s.frameByte? k c = some bs[k] := fun k hk => by
      rw [hbs k (by simp; omega), List.getElem_append_left hk]
    rw [ih hbefore, h.runCommand_succ, h.encStep_eq hv, andThen_of_next]

end

/-! ### The end of the frame, and an unwritten byte (41_encode.md R157, R162) -/

section
variable {s : State} {bs : List Byte}

/-- Behind the bytes before it, the checksum step ends the command. -/
theorem Building.runCommand_csum (h : Building c s) (hbs : ∀ k (hk : k < bs.length), s.frameByte? k c = some bs[k])
    (hend : bs.length = lengthField s.opb.toNat s.sfl + 1) : runCommand s c = .next (csumPut (s.built bs)) := by
  have hlen : bs.length < 257 := by
    have := h.fits
    have := c.maxPayload_le
    have := s.sfl.toNat_le
    rw [lengthField] at hend
    omega
  have hpos : (s.built bs).pos.toNat = bs.length := State.built_pos hlen.le
  have hstep : encStep (s.built bs) c = .next (csumPut (s.built bs)) := by
    rw [encStep, hpos, State.built_opb, State.built_sfl, fieldOut_eq_csum_iff.mpr hend]
    exact withStore_of_lt _ _ (by rw [hpos]; exact hlen)
  rw [h.runCommand_built hbs, h.runCommand_succ, hstep, andThen_of_next, runCommand_of_idle rfl]

/-- The header and the payload bytes that are written. -/
theorem frameByte?_of_payload (hpay : ∀ k (hk : k < bs.length), s.byte? .pay k c = some bs[k]) (hle : bs.length ≤ s.opb.toNat)
    {k : Nat} (hk : k < (c.sof :: s.len :: c.typeReq :: bs).length) :
    s.frameByte? k c = some (c.sof :: s.len :: c.typeReq :: bs)[k] := by
  match k with
  | 0 => rw [State.frameByte?, fieldOut_eq_sof_iff.mpr rfl]; rfl
  | 1 => rw [State.frameByte?, fieldOut_eq_len_iff.mpr rfl]; rfl
  | 2 => rw [State.frameByte?, fieldOut_eq_type_iff.mpr rfl]; rfl
  | k + 3 =>
    have hk' : k < bs.length := by simpa using hk
    rw [State.frameByte?, fieldOut_eq_pay_iff.mpr (by omega)]
    exact hpay k hk'

/-- Behind written bytes, a payload byte without a value stops the command. -/
theorem Building.runCommand_unwritten (h : Building c s) (hbs : ∀ k (hk : k < bs.length), s.frameByte? k c = some bs[k])
    (h3 : 3 ≤ bs.length) (hin : bs.length < 3 + s.opb.toNat) (hnone : s.byte? .pay (bs.length - 3) c = none) :
    runCommand s c = .fault .unwrittenByte := by
  have hfits := h.fits
  have := c.maxPayload_le
  have hpos : (s.built bs).pos.toNat = bs.length := State.built_pos (by omega)
  have hstep : encStep (s.built bs) c = .fault .unwrittenByte := by
    rw [encStep, hpos, State.built_opb, State.built_sfl, fieldOut_eq_pay_iff.mpr ⟨h3, hin⟩]
    exact withByte_unwritten _ (by simp only [Space.size_pay]; omega) ((State.built_byte?_pay (by omega) _).trans hnone)
  rw [h.runCommand_built hbs, h.runCommand_succ, hstep, andThen]

end

/-! ### The commands `ENC` and `ENC.S` (41_encode.md R151, R152) -/

/-- The state in which an accepted `ENC` or `ENC.S` begins to build. -/
def State.encStarted (s : State) (seq : Bool) (n : Nine) : State := (s.accept (commandWord 2#4 seq 0#2 0#9 n)).startEnc

/-- The registers, flags and events with which a completed `ENC` or `ENC.S` leaves `s`, when `sum` is the frame's checksum. -/
def State.encEnded (s : State) (seq : Bool) (n : Nine) (sum : Byte) : State :=
  { s with
    seq := nextSeq seq s.seq
    acc := sum
    len := BitVec.ofNat 8 (n.toNat + 2 + seq.toNat)
    pos := BitVec.ofNat 9 (n.toNat + 4 + seq.toNat)
    txlen := BitVec.ofNat 9 (n.toNat + 4 + seq.toNat)
    result := .ok
    status := flagsAfter s.status .ok
    phase := .idle
    opa := 0#9
    opb := n
    bsl := 0#2
    sfl := seq
    events := s.events ++ [.cmd (commandWord 2#4 seq 0#2 0#9 n), .done .ok] }

section
variable {s : State} {seq : Bool} {n : Nine} {p : List Byte}

@[simp] theorem State.encStarted_opb : (s.encStarted seq n).opb = n := by simp [State.encStarted]
@[simp] theorem State.encStarted_sfl : (s.encStarted seq n).sfl = seq := by simp [State.encStarted]

@[simp] theorem State.encStarted_byte? (sp : Space) (k : Nat) : (s.encStarted seq n).byte? sp k = s.byte? sp k :=
  byte?_congr rfl sp k

theorem State.encStarted_len : (s.encStarted seq n).len = BitVec.ofNat 8 (lengthField n.toNat seq) := by simp [State.encStarted]

theorem exec_encOf_started (hidle : s.status.busy = false) (hfits : n.toNat ≤ 250) :
    exec (encOf seq n) s = runCommand (s.encStarted seq n) := by
  rw [exec_encOf]
  exact command_of_legal hidle (decide_eq_true hfits)

theorem building_encStarted (hyields : yieldsToBlock s.env = true) (hfits : n.toNat ≤ 250) :
    Building Config.hw (s.encStarted seq n) :=
  ⟨rfl, hyields, rfl, by simpa using hfits⟩

/-- With a written payload the bytes before the checksum are those of `encode(p, s, q)` (41_encode.md R150). -/
theorem frameByte?_encStarted (hp : s.bytes? .pay 0 n.toNat = some p) {k : Nat}
    (hk : k < (Config.hw.sof :: coveredBytes p seq s.seq).length) :
    (s.encStarted seq n).frameByte? k = some (Config.hw.sof :: coveredBytes p seq s.seq)[k] := by
  obtain ⟨hlen, hpay⟩ := bytes?_eq_some_iff.mp hp
  have hframe : (outboundFrame p seq s.seq)[k]? = some (Config.hw.sof :: coveredBytes p seq s.seq)[k] :=
    (List.getElem?_append_left hk).trans (List.getElem?_eq_getElem hk)
  rw [← hframe, outboundFrame_getElem?, State.frameByte?, State.encStarted_opb, State.encStarted_sfl, hlen]
  cases hf : fieldOut k n.toNat seq <;> simp only []
  case len => rw [State.encStarted_len, lengthField]
  case pay =>
    have hin := fieldOut_eq_pay_iff.mp hf
    rw [List.getElem?_eq_getElem (by omega), ← hpay (k - 3) (by omega), Nat.zero_add, State.encStarted_byte?]
  case seq => rfl
  case csum =>
    have hend := fieldOut_eq_csum_iff.mp hf
    rw [List.length_cons, length_coveredBytes] at hk
    rw [lengthField] at hend
    omega

/-- The registers at the end, the memory aside. -/
theorem csumPut_built_registers {bs : List Byte} (hfits : n.toNat ≤ 250) (hbs : bs.length = n.toNat + 3 + seq.toNat) :
    { csumPut ((s.encStarted seq n).built bs) with mem := s.mem } = s.encEnded seq n (checksum bs.tail) := by
  have hcount : (if 3 + n.toNat < bs.length then s.seq + 1#8 else s.seq) = nextSeq seq s.seq := by
    cases seq <;> simp [hbs, nextSeq, Nat.add_comm]
  have hsize : (n.toNat + 2 + seq.toNat) % 256 + 2 = n.toNat + 4 + seq.toNat := by
    have := seq.toNat_le
    omega
  simp [State.encEnded, csumPut, State.built, State.finish, State.encStarted, State.startEnc, State.accept,
    Status.accepted, Status.finished, flagsAfter, lengthField, checksum, hcount, hsize]

/-- `ENC` or `ENC.S` with a written payload builds the frame `encode(p, s, q)` of the counter's value `q`. -/
theorem exec_encOf_completes (hidle : s.status.busy = false) (hyields : yieldsToBlock s.env = true) (hfits : n.toNat ≤ 250)
    (hp : s.bytes? .pay 0 n.toNat = some p) :
    ∃ t, exec (encOf seq n) s = .next t ∧
      t.bytes? .txbuf 0 (n.toNat + 4 + seq.toNat) = some (outboundFrame p seq s.seq) ∧
      sameBytesOutside s t .txbuf 0 (n.toNat + 4 + seq.toNat) ∧
      { t with mem := s.mem } = s.encEnded seq n (checksum (coveredBytes p seq s.seq)) := by
  obtain ⟨hlen, _⟩ := bytes?_eq_some_iff.mp hp
  have hseq := seq.toNat_le
  have hbefore : (Config.hw.sof :: coveredBytes p seq s.seq).length = n.toNat + 3 + seq.toNat := by
    rw [List.length_cons, length_coveredBytes]
    omega
  have hsize : n.toNat + 4 + seq.toNat = (outboundFrame p seq s.seq).length := by
    rw [outboundFrame, ← List.cons_append, List.length_append, List.length_singleton]
    omega
  have hfit : 0 + (outboundFrame p seq s.seq).length ≤ Space.txbuf.size Config.hw := by
    rw [← hsize, Space.size_txbuf]
    omega
  have hrun := (building_encStarted hyields hfits).runCommand_csum (fun _ => frameByte?_encStarted (seq := seq) hp)
    (by simp only [hbefore, State.encStarted_opb, State.encStarted_sfl, lengthField]; omega)
  have hmem := memStore_built (s := s.encStarted seq n) (by omega : (Config.hw.sof :: coveredBytes p seq s.seq).length ≤ 257)
    (checksum (coveredBytes p seq s.seq))
  refine ⟨_, (exec_encOf_started hidle hfits).trans hrun, ?_, ?_, csumPut_built_registers hfits hbefore⟩
  · rw [hsize]
    exact bytes?_storeBytes hfit hmem
  · rw [hsize]
    exact sameBytesOutside_storeBytes (s := s) hfit hmem

/-- A payload byte that nothing has written stops the command. -/
theorem exec_encOf_unwritten (hidle : s.status.busy = false) (hyields : yieldsToBlock s.env = true) (hfits : n.toNat ≤ 250)
    (hunwritten : ∃ k, k < n.toNat ∧ s.byte? .pay k = none) : exec (encOf seq n) s = .fault .unwrittenByte := by
  obtain ⟨bs, hlen, hbs, hnone⟩ := exists_first_unwritten (s := s) (i := 0) (by simpa using hunwritten)
  have hpay (k : Nat) (hk : k < bs.length) : (s.encStarted seq n).byte? .pay k = some bs[k] := by
    simpa using (bytes?_eq_some_iff.mp hbs).2 k hk
  rw [exec_encOf_started hidle hfits]
  refine (building_encStarted hyields hfits).runCommand_unwritten
    (fun _ => frameByte?_of_payload hpay (by simpa using hlen.le)) (by simp) (by simp; omega) ?_
  simpa using hnone

end

/-- Settles O20: the bytes before the first payload byte without a value are put, and the step that needs it stops. -/
theorem encFaultsOnUnwrittenPayload : Obligations.EncFaultsOnUnwrittenPayload :=
  fun _ _ _ hidle hyields hfits hunwritten => exec_encOf_unwritten hidle hyields hfits hunwritten

/-- Settles O18: `ENC` puts the frame without a sequence byte, and its checksum step ends it. -/
theorem encCompletes : Obligations.EncCompletes := by
  intro n s p w hidle hyields hfits hp hcode
  obtain rfl : commandWord 2#4 false 0#2 0#9 n = w := by simpa [encode] using hcode
  exact exec_encOf_completes (seq := false) hidle hyields hfits hp

/-- Settles O19: `ENC.S` puts the old counter behind the payload, and advances it. -/
theorem encSCompletes : Obligations.EncSCompletes := by
  intro n s p w hidle hyields hfits hp hcode
  obtain rfl : commandWord 2#4 true 0#2 0#9 n = w := by simpa [encode] using hcode
  exact exec_encOf_completes (seq := true) hidle hyields hfits hp

/-! ### A row of `ENC.S` (41_encode.md R156, R160) -/

/-- One `ENC.S` numbers its frame with the counter, advances it, and leaves the block ready for the next. -/
theorem exec_encS_numbers {n : Nine} {s : State} (hidle : s.status.busy = false) (hyields : yieldsToBlock s.env = true)
    (hfits : n.toNat ≤ 250) (hp : (s.bytes? .pay 0 n.toNat).isSome = true) :
    ∃ t, exec (.encS n) s = .next t ∧ t.seq = s.seq + 1#8 ∧ t.byte? .txbuf (3 + n.toNat) = some s.seq ∧
      t.status.busy = false ∧ yieldsToBlock t.env = true ∧ (t.bytes? .pay 0 n.toNat).isSome = true := by
  obtain ⟨p, hp⟩ := Option.isSome_iff_exists.mp hp
  obtain ⟨hlen, _⟩ := bytes?_eq_some_iff.mp hp
  obtain ⟨t, hexec, hframe, hsame, hregs⟩ := exec_encOf_completes (seq := true) hidle hyields hfits hp
  have hpay : t.bytes? .pay 0 n.toNat = some p := (bytes?_congr _ _ _ fun k _ _ => hsame .pay k (by simp)).trans hp
  have hnumber : (outboundFrame p true s.seq)[3 + n.toNat]? = some s.seq := by
    rw [outboundFrame_getElem?, hlen, fieldOut_eq_seq_iff.mpr ⟨rfl, rfl⟩]
  obtain ⟨hk, hget⟩ := List.getElem?_eq_some_iff.mp hnumber
  have hbyte : t.byte? .txbuf (3 + n.toNat) = some s.seq := by
    simpa [hget] using (bytes?_eq_some_iff.mp hframe).2 (3 + n.toNat) hk
  have hyields' : yieldsToBlock t.env = true := (congrArg State.env hregs) ▸ hyields
  exact ⟨t, hexec, congrArg State.seq hregs, hbyte, congrArg (fun u => u.status.busy) hregs, hyields', by rw [hpay]; rfl⟩

/-- Settles O23: by induction on the number of commands, each of which leaves the next what it needs. -/
theorem sequenceNumbersCycle : Obligations.SequenceNumbersCycle := by
  intro k n s hidle hyields hfits hp
  induction k generalizing s with
  | zero =>
    obtain ⟨t, hexec, hseq, hbyte, _⟩ := exec_encS_numbers hidle hyields hfits hp
    exact ⟨t, by simp [execAll, hexec], hseq, by simpa using hbyte⟩
  | succ k ih =>
    obtain ⟨u, hexec, hseq, _, hidle', hyields', hp'⟩ := exec_encS_numbers hidle hyields hfits hp
    obtain ⟨t, hall, hcount, hlast⟩ := ih u hidle' hyields' hp'
    have hnext (j : Nat) : u.seq + BitVec.ofNat 8 j = s.seq + BitVec.ofNat 8 (j + 1) := by
      rw [hseq, BitVec.add_assoc, Nat.add_comm, BitVec.ofNat_add]
    refine ⟨t, ?_, hcount.trans (hnext (k + 1)), hlast.trans (congrArg some (hnext k))⟩
    rw [List.replicate_succ, execAll, hexec]
    exact hall

/-! ### What `ENC` and `ENC.S` leave unchanged (41_encode.md R151, R152) -/

section
variable {s t u : State} {sp : Space} {lo n : Nat}

theorem sameBytesOutside_trans (hst : sameBytesOutside s t sp lo n c) (htu : sameBytesOutside t u sp lo n c) :
    sameBytesOutside s u sp lo n c :=
  fun sp' i hi => (htu sp' i hi).trans (hst sp' i hi)

theorem sameBytesOutside_of_mem_eq (h : t.mem = s.mem) : sameBytesOutside s t sp lo n c := fun sp' i _ => byte?_congr h sp' i

/-- A byte written inside the range. -/
theorem sameBytesOutside_memStore {i : Nat} {b : Byte} (hi : i < sp.size c) (hlo : lo ≤ i) (hhi : i < lo + n)
    (hmem : t.mem = memStore s.mem (sp.base + i) b) : sameBytesOutside s t sp lo n c := fun sp' k hk => by
  rw [byte?_congr (s := { s with mem := memStore s.mem (sp.base + i) b }) hmem, byte?_memStore s sp sp' i k b hi, if_neg]
  rintro ⟨hsp, rfl⟩
  exact hk ⟨hsp, hlo, hhi⟩

end

/-- The registers, observations and streams that `ENC` and `ENC.S` leave alone. -/
def State.besideEnc (s : State) : Nine × Byte × ResultCode × List HostObs × List Byte × List Byte :=
  (s.rxcnt, s.reslen, s.pend, s.hostLog, s.txStream, s.rxTaken)

section
variable {s t : State}

theorem besideEnc_eq_iff : t.besideEnc = s.besideEnc ↔
    t.rxcnt = s.rxcnt ∧ t.reslen = s.reslen ∧ t.pend = s.pend ∧ t.hostLog = s.hostLog ∧ t.txStream = s.txStream ∧
    t.rxTaken = s.rxTaken := by
  simp only [State.besideEnc, Prod.mk.injEq]

/-- An event that carries no byte leaves the streams alone. -/
theorem besideEnc_emit (s : State) {e : Event} (hsent : e.sent? = none) (htaken : e.taken? = none) :
    (s.emit e).besideEnc = s.besideEnc := by
  simp [State.besideEnc, State.txStream, State.rxTaken, hsent, htaken]

theorem besideEnc_finish (s : State) (code : ResultCode) : (s.finish code).besideEnc = s.besideEnc :=
  besideEnc_emit s (e := .done code) rfl rfl

/-- `ENC` or `ENC.S` is building the frame of `n` payload bytes, or has ended, and has changed of `s` only what it may. -/
structure EncKeeps (c : Params) (n : Nine) (seq : Bool) (s t : State) : Prop where
  phase : t.phase = .eRun ∨ t.phase = .idle
  opb : t.opb = n
  sfl : t.sfl = seq
  beside : t.besideEnc = s.besideEnc
  bytes : sameBytesOutside s t .txbuf 0 (n.toNat + 4 + seq.toNat) c

theorem EncKeeps.trans {n : Nine} {seq : Bool} {u : State} (hst : EncKeeps c n seq s t) (htu : EncKeeps c n seq t u) :
    EncKeeps c n seq s u :=
  ⟨htu.phase, htu.opb, htu.sfl, htu.beside.trans hst.beside, sameBytesOutside_trans hst.bytes htu.bytes⟩

theorem EncKeeps.of_same (hp : s.phase = .eRun) (env : List Move) (stream : List Byte) :
    EncKeeps c s.opb s.sfl s { s with env := env, rxStream := stream } :=
  ⟨.inl hp, rfl, rfl, rfl, sameBytesOutside_of_mem_eq rfl⟩

/-- A byte step writes inside the frame: every field lies before its end. -/
theorem encStep_keeps (hp : s.phase = .eRun) (h : encStep s c = .next t) : EncKeeps c s.opb s.sfl s t := by
  obtain ⟨hpos, hcases⟩ := encStep_next h
  have put (v : Byte) (hf : fieldOut s.pos.toNat s.opb.toNat s.sfl ≠ .none)
      (hmem : t.mem = memStore s.mem (Space.txbuf.base + s.pos.toNat) v) :
      sameBytesOutside s t .txbuf 0 (s.opb.toNat + 4 + s.sfl.toNat) c := by
    have hin := mt fieldOut_eq_none_iff.mpr hf
    rw [lengthField] at hin
    exact sameBytesOutside_memStore hpos (Nat.zero_le _) (by omega) hmem
  obtain ⟨hf, rfl⟩ | ⟨hf, rfl⟩ | ⟨hf, rfl⟩ | ⟨hf, v, _, rfl⟩ | ⟨hf, rfl⟩ | ⟨hf, rfl⟩ := hcases
  case inr.inr.inr.inr.inr =>
    exact ⟨.inr rfl, rfl, rfl, (besideEnc_finish _ _).trans rfl, put _ (by simp [hf]) rfl⟩
  all_goals exact ⟨.inl hp, rfl, rfl, rfl, put _ (by simp [hf]) rfl⟩

/-- While `ENC` builds, an answer of the transport has no effect, so a transition puts a byte or lets bytes arrive. -/
theorem tick_encKeeps (hp : s.phase = .eRun) (h : tick s c = .next t) : EncKeeps c s.opb s.sfl s t := by
  have same (env : List Move) : EncKeeps c s.opb s.sfl s { s with env := env } := .of_same hp env s.rxStream
  rcases tick_next h with ⟨hp', _⟩ | ⟨_, env, h⟩ | ⟨env, rfl⟩ | ⟨sig, env, h⟩ | ⟨sig, env, h⟩ | ⟨bytes, env, rfl⟩
  · simp [hp] at hp'
  · exact (same env).trans (encStep_keeps (s := { s with env := env }) hp h)
  · exact same env
  · obtain rfl : { s with env := env } = t := by simpa [txAnswer, hp] using h
    exact same env
  · obtain rfl : { s with env := env } = t := by simpa [rxAnswer, hp] using h
    exact same env
  · exact .of_same hp env (s.rxStream ++ bytes)

theorem runCommand_encKeeps (hp : s.phase = .eRun) (h : runCommand s c = .next t) : EncKeeps c s.opb s.sfl s t := by
  refine drive_keeps (P := EncKeeps c s.opb s.sfl s) (fun u v hu hbusy hstep => ?_) _ (.of_same hp s.env s.rxStream) h
  have hnext := tick_encKeeps (hu.phase.resolve_right hbusy) hstep
  rw [hu.opb, hu.sfl] at hnext
  exact hu.trans hnext

theorem exec_encOf_keeps {seq : Bool} {n : Nine} (h : exec (encOf seq n) s = .next t) :
    t.besideEnc = s.besideEnc ∧ sameBytesOutside s t .txbuf 0 (n.toNat + 4 + seq.toNat) := by
  rw [exec_encOf] at h
  rcases command_next h with ⟨_, rfl⟩ | ⟨_, _, rfl⟩ | ⟨_, _, hrun⟩
  · exact ⟨rfl, sameBytesOutside_of_mem_eq rfl⟩
  · exact ⟨besideEnc_emit s (e := .cmderr _) rfl rfl, sameBytesOutside_of_mem_eq rfl⟩
  · have hkeeps := runCommand_encKeeps (s := s.encStarted seq n) rfl hrun
    rw [State.encStarted_opb, State.encStarted_sfl] at hkeeps
    exact ⟨hkeeps.beside.trans (besideEnc_emit s (e := .cmd _) rfl rfl), hkeeps.bytes⟩

end

/-- Settles O21: a refusal, the start and every transition keep the rest, and the counter moves in `ENC.S` alone. -/
theorem encFrame : Obligations.EncFrame := by
  intro seq n s t h
  obtain ⟨hbeside, hbytes⟩ := exec_encOf_keeps h
  obtain ⟨hrxcnt, hreslen, hpend, hlog, hsent, htaken⟩ := besideEnc_eq_iff.mp hbeside
  refine ⟨hrxcnt, hreslen, hpend, hlog, ?_, hbytes, hsent, htaken⟩
  rintro rfl
  exact onlyEncSWritesSeq (.enc n) s t (fun _ => nofun) h

end Sys2Proof.Machine
end

section
/-! PROOFS. `DEC` over a valid frame that comes in time, and with it the round trip: what `encode(p, s, q)` builds, `DEC` recovers
(41_encode.md R163; 43_decode.md R205 to R219). -/

namespace Sys2Proof.Machine

variable {c : Params}

/-! ### A byte comes, and the reply is taken -/

section
variable {s : State} {b : Byte} {more : List Byte} {env : List Move}

/-- A command that waits for the transport goes on with the transport's answer. -/
theorem runCommand_of_answer {m : Move} (hidle : s.phase ≠ .idle) (hself : s.internal = false) (henv : s.env = m :: env)
    (hm : (∃ sig, m = .tx sig) ∨ ∃ sig, m = .rx sig) :
    runCommand s c = andThen (otherMove m { s with env := env } c) fun t => runCommand t c := by
  have hgo : s.goesOn = true := by
    obtain ⟨sig, rfl⟩ | ⟨sig, rfl⟩ := hm <;> simp [State.goesOn, hidle, henv, othersNext, Move.isHost]
  have htick : tick s c = otherMove m { s with env := env } c := by
    obtain ⟨sig, rfl⟩ | ⟨sig, rfl⟩ := hm <;> simp [tick, hself, henv, Move.isHost]
  rw [runCommand_of_goesOn hgo, htick]

theorem runCommand_headerByte (hp : s.phase = .dHdr) (henv : s.env = .byteComes :: env) (hhead : s.rxStream = b :: more) :
    runCommand s c = andThen (headerByte b { s with rxStream := more, env := env } c) fun t => runCommand t c := by
  rw [runCommand_of_answer (by simp [hp]) (by simp [State.internal, hp]) henv (.inr ⟨_, rfl⟩)]
  simp [otherMove, Move.byteComes, rxAnswer, hp, readCall, readAnswer, hhead]

theorem runCommand_bodyByte (hp : s.phase = .dBody) (henv : s.env = .byteComes :: env) (hhead : s.rxStream = b :: more) :
    runCommand s c = andThen (bodyByte b { s with rxStream := more, env := env } c) fun t => runCommand t c := by
  rw [runCommand_of_answer (by simp [hp]) (by simp [State.internal, hp]) henv (.inr ⟨_, rfl⟩)]
  simp [otherMove, Move.byteComes, rxAnswer, hp, readCall, readAnswer, hhead]

/-- The ACK byte is taken, and the command ends (43_decode.md R217, R219). -/
theorem runCommand_ackTaken (hp : s.phase = .dAck) (henv : s.env = .taken :: env) :
    runCommand s c = .next ((State.emit { s with env := env } (.tx c.ackByte)).finish .ok) := by
  rw [runCommand_of_answer (by simp [hp]) (by simp [State.internal, hp]) henv (.inl ⟨_, rfl⟩)]
  simp only [otherMove, txAnswer, hp, ackReplyAnswer]
  exact runCommand_of_idle rfl

/-! ### The header (43_decode.md R206, R207) -/

/-- The state in which the body call of a frame with length field `l` opens, when the bytes `more` and the moves `env` are left. -/
def State.headerTaken (s : State) (l : Byte) (more : List Byte) (env : List Move) (c : Params := Config.hw) : State :=
  { s with
    mem := storeBytes s.mem (Space.rxbuf.base + 0) [c.sof, l]
    len := l
    acc := s.acc ^^^ l
    pos := 2#9
    rxcnt := 2#9
    phase := .dBody
    rxStream := more
    events := s.events ++ [.rx c.sof, .rx l, .arm l]
    env := env }

theorem headerByte_first (hpos : s.pos = 0#9) : headerByte b s c = .next (received s b) := by
  rw [headerByte, if_pos hpos, storeReceived_of_lt _ _ (by simp [hpos])]

theorem headerByte_second (hpos : s.pos = 1#9) :
    headerByte b s c = headerComplete { received s b with len := b, acc := s.acc ^^^ b } c := by
  rw [headerByte, if_neg (by simp [hpos]), if_pos hpos, storeReceived_of_lt _ _ (by simp [hpos])]
  rfl

theorem headerComplete_of_sof (hsof : s.byte? .rxbuf 0 c = some c.sof) (hl : s.len ≠ 0#8) :
    headerComplete s c = .next (State.arm { s with phase := .dBody } s.len) := by
  rw [headerComplete, withByte_of_byte? _ hsof, if_neg (by simp), if_neg hl]

theorem runCommand_header {l : Byte} (hp : s.phase = .dHdr) (hpos : s.pos = 0#9) (hcnt : s.rxcnt = 0#9) (hl : l ≠ 0#8)
    (henv : s.env = .byteComes :: .byteComes :: env) (hstream : s.rxStream = c.sof :: l :: more) :
    runCommand s c = runCommand (s.headerTaken l more env c) c := by
  have hpos1 : s.pos + 1#9 = 1#9 := by rw [hpos]; rfl
  have hsof (t : State) (ht : t.mem = storeBytes s.mem (Space.rxbuf.base + 0) [c.sof, l]) :
      t.byte? .rxbuf 0 c = some c.sof := by
    rw [byte?_storeBytes (by simp) ht]
    simp
  rw [runCommand_headerByte hp henv hstream, headerByte_first (by exact hpos), andThen_of_next,
    runCommand_headerByte (by exact hp) rfl rfl, headerByte_second (by exact hpos1),
    headerComplete_of_sof (hsof _ (by simp [received, hpos, storeBytes])) (by exact hl), andThen_of_next]
  simp [State.headerTaken, storeBytes, received, hpos, hcnt, State.arm, State.emit]

/-! ### The body (43_decode.md R214, R216) -/

/-- The state after the bytes of `bs` have been taken and folded, when the bytes `more` and the moves `env` are left. -/
def State.took (s : State) (bs more : List Byte) (env : List Move) : State :=
  { s with
    mem := storeBytes s.mem (Space.rxbuf.base + s.pos.toNat) bs
    acc := foldBytes s.acc bs
    pos := s.pos + BitVec.ofNat 9 bs.length
    rxcnt := s.rxcnt + BitVec.ofNat 9 bs.length
    rxStream := more
    events := s.events ++ bs.map Event.rx
    env := env }

theorem add_ofNat_succ (v : Nine) (n : Nat) : v + BitVec.ofNat 9 (n + 1) = v + 1#9 + BitVec.ofNat 9 n := by
  rw [Nat.add_comm, BitVec.ofNat_add, BitVec.add_assoc]

theorem State.took_nil (s : State) : s.took [] s.rxStream s.env = s := by simp [State.took, storeBytes, foldBytes]

theorem State.took_cons {bs more' : List Byte} {env' : List Move} (hpos : s.pos.toNat ≤ 257) :
    s.took (b :: bs) more env = (s.took [b] more' env').took bs more env := by
  have hmoved : (s.pos + 1#9).toNat = s.pos.toNat + 1 := toNat_succ_of_le hpos
  simp [State.took, storeBytes, foldBytes, hmoved, add_ofNat_succ _ bs.length, Nat.add_assoc]

theorem bodyByte_covered (hin : s.pos.toNat ≤ s.len.toNat) : bodyByte b s c = .next { received s b with acc := s.acc ^^^ b } := by
  have := s.len.isLt
  rw [bodyByte, if_pos hin, storeReceived_of_lt _ _ (by simp only [Space.size_rxbuf]; omega)]
  rfl

theorem bodyByte_valid (hlast : s.pos.toNat = s.len.toNat + 1) (hacc : s.acc = b) :
    bodyByte b s c = .next { received s b with reslen := s.len - 1#8, phase := .dAck } := by
  have := s.len.isLt
  rw [bodyByte, if_neg (by omega), if_pos hlast, storeReceived_of_lt _ _ (by simp only [Space.size_rxbuf]; omega), bodyComplete,
    if_pos (show (received s b).acc = b from hacc)]
  rfl

/-- The covered bytes of the body are taken, one transition each. -/
theorem runCommand_covered {bs : List Byte} (hp : s.phase = .dBody) (hin : s.pos.toNat + bs.length ≤ s.len.toNat + 1)
    (henv : s.env = List.replicate bs.length .byteComes ++ env) (hstream : s.rxStream = bs ++ more) :
    runCommand s c = runCommand (s.took bs more env) c := by
  induction bs generalizing s with
  | nil =>
    obtain rfl : s.env = env := henv
    obtain rfl : s.rxStream = more := hstream
    rw [State.took_nil]
  | cons b bs ih =>
    have := s.len.isLt
    rw [List.length_cons] at hin
    have hmoved : (s.pos + 1#9).toNat = s.pos.toNat + 1 := toNat_succ_of_le (by omega)
    rw [runCommand_bodyByte hp henv hstream, bodyByte_covered (by simp only; omega), andThen_of_next,
      State.took_cons (more' := bs ++ more) (env' := List.replicate bs.length .byteComes ++ env) (by omega)]
    refine ih hp ?_ rfl rfl
    change (s.pos + 1#9).toNat + bs.length ≤ s.len.toNat + 1
    omega

/-- The state in which the ACK is due: the last byte is taken and equal to the accumulator, which it is not folded into. -/
def State.checked (s : State) (more : List Byte) (env : List Move) : State :=
  { s.took [s.acc] more env with acc := s.acc, reslen := s.len - 1#8, phase := .dAck }

theorem runCommand_checksum (hp : s.phase = .dBody) (hlast : s.pos.toNat = s.len.toNat + 1) (henv : s.env = .byteComes :: env)
    (hstream : s.rxStream = s.acc :: more) : runCommand s c = runCommand (s.checked more env) c := by
  rw [runCommand_bodyByte hp henv hstream, bodyByte_valid (by exact hlast) (by rfl), andThen_of_next]
  rfl

end

/-! ### A valid frame (43_decode.md R213 to R219) -/

/-- The body whose covered bytes are `covered`, with the checksum that makes the frame valid. -/
def validBody (covered : List Byte) (c : Params := Config.hw) : List Byte :=
  covered ++ [checksum (BitVec.ofNat 8 (covered.length + 1) :: covered) c]

@[simp] theorem length_validBody (covered : List Byte) : (validBody covered c).length = covered.length + 1 := by simp [validBody]

theorem length_frameBytes (body : List Byte) : (frameBytes body c).length = body.length + 2 := rfl

/-- The state in which `DEC`, begun in `s`, ends after the frame of `validBody covered`, when `more` and `env` are left. -/
def State.decoded (s : State) (covered more : List Byte) (env : List Move) (c : Params := Config.hw) : State :=
  { s with
    mem := storeBytes s.mem (Space.rxbuf.base + 0) (frameBytes (validBody covered c) c)
    acc := checksum (BitVec.ofNat 8 (covered.length + 1) :: covered) c
    len := BitVec.ofNat 8 (covered.length + 1)
    pos := BitVec.ofNat 9 (covered.length + 3)
    rxcnt := BitVec.ofNat 9 (covered.length + 3)
    reslen := BitVec.ofNat 8 covered.length
    result := .ok
    status := s.status.finished .ok
    phase := .idle
    rxStream := more
    events := s.events ++ ([.rx c.sof, .rx (BitVec.ofNat 8 (covered.length + 1)), .arm (BitVec.ofNat 8 (covered.length + 1))] ++
      ((validBody covered c).map Event.rx ++ [.tx c.ackByte, .done .ok]))
    env := env }

section
variable {s : State} {covered more : List Byte} {env : List Move}

/-- The body that ends in the accumulator's value is taken, and acknowledged. -/
theorem runCommand_body (hp : s.phase = .dBody) (hpos : s.pos.toNat = 2) (hlen : s.len.toNat = covered.length + 1)
    (hstream : s.rxStream = covered ++ foldBytes s.acc covered :: more)
    (henv : s.env = List.replicate covered.length .byteComes ++ .byteComes :: .taken :: env) :
    runCommand s c = .next ((State.emit { (s.took covered (foldBytes s.acc covered :: more) (.byteComes :: .taken :: env)).checked
      more (.taken :: env) with env := env } (.tx c.ackByte)).finish .ok) := by
  have hlt := s.len.isLt
  have hlast : (s.pos + BitVec.ofNat 9 covered.length).toNat = s.len.toNat + 1 := by
    rw [BitVec.toNat_add, BitVec.toNat_ofNat]
    omega
  rw [runCommand_covered hp (by omega) henv hstream, runCommand_checksum (by exact hp) (by exact hlast) rfl rfl,
    runCommand_ackTaken rfl rfl]

theorem ofNat_add_two_one (n : Nat) : 2#9 + BitVec.ofNat 9 n + 1#9 = BitVec.ofNat 9 (n + 3) := by
  rw [← BitVec.ofNat_add, ← BitVec.ofNat_add]
  congr 1
  omega

/-- A valid frame that comes in time is taken whole, and acknowledged. -/
theorem runCommand_decoded (hp : s.phase = .dHdr) (hpos : s.pos = 0#9) (hcnt : s.rxcnt = 0#9) (hacc : s.acc = c.csumSeed)
    (hlen : covered.length + 1 ≤ 255) (hstream : s.rxStream = frameBytes (validBody covered c) c ++ more)
    (henv : s.env = List.replicate (covered.length + 3) .byteComes ++ .taken :: env) :
    runCommand s c = .next (s.decoded covered more env c) := by
  have hl : (BitVec.ofNat 8 (covered.length + 1)).toNat = covered.length + 1 := by
    rw [BitVec.toNat_ofNat]
    omega
  have hl0 : BitVec.ofNat 8 (covered.length + 1) ≠ 0#8 := fun h => by simp [h] at hl
  have hsum : foldBytes (s.acc ^^^ BitVec.ofNat 8 (covered.length + 1)) covered =
      checksum (BitVec.ofNat 8 (covered.length + 1) :: covered) c := by
    rw [hacc]
    rfl
  have hheader := runCommand_header (c := c) (l := BitVec.ofNat 8 (covered.length + 1))
    (more := covered ++ checksum (BitVec.ofNat 8 (covered.length + 1) :: covered) c :: more)
    (env := List.replicate covered.length .byteComes ++ .byteComes :: .taken :: env) hp hpos hcnt hl0
    (by rw [henv, List.replicate_succ, List.replicate_succ, List.replicate_succ']; simp)
    (by rw [hstream]; simp [frameBytes, validBody])
  rw [hheader, runCommand_body (covered := covered) (more := more) (env := env) rfl rfl (by exact hl) (by rw [← hsum]; rfl) rfl]
  have hreslen : BitVec.ofNat 8 (covered.length + 1) - 1#8 = BitVec.ofNat 8 covered.length := by
    rw [BitVec.ofNat_add, BitVec.add_sub_cancel]
  have hplace : 1024 + (2 + covered.length) % 512 = 1026 + covered.length := by omega
  simp [State.decoded, State.checked, State.took, State.headerTaken, State.finish, State.emit, frameBytes, validBody,
    storeBytes_append, storeBytes, hsum, hreslen, hplace, ofNat_add_two_one]

/-- The state in which an accepted `DEC` opens its header call. -/
def State.decStarted (s : State) : State := (s.accept (commandWord 4#4 false 0#2 0#9 0#9)).startDec

theorem exec_dec_started (hidle : s.status.busy = false) : exec .dec s = runCommand s.decStarted :=
  (execDec_command Config.hw s).trans (command_of_legal hidle rfl)

/-- `DEC` on an idle block, over a valid frame that comes in time. -/
theorem exec_dec_decoded (hidle : s.status.busy = false) (hlen : covered.length + 1 ≤ 255)
    (hstream : s.rxStream = frameBytes (validBody covered) ++ more)
    (henv : s.env = List.replicate (covered.length + 3) .byteComes ++ .taken :: env) :
    exec .dec s = .next (s.decStarted.decoded covered more env) :=
  (exec_dec_started hidle).trans (runCommand_decoded (s := s.decStarted) rfl rfl rfl rfl hlen hstream henv)

theorem decStarted_decoded_events : (s.decStarted.decoded covered more env).events = s.events ++
    (.cmd (commandWord 4#4 false 0#2 0#9 0#9) :: .arm 2#8 :: .rx 0x01#8 :: .rx (BitVec.ofNat 8 (covered.length + 1)) ::
      .arm (BitVec.ofNat 8 (covered.length + 1)) :: ((validBody covered).map Event.rx ++ [.tx 0x06#8, .done .ok])) := by
  simp [State.decoded, State.decStarted]

/-- The one byte sent is the ACK. -/
theorem decStarted_decoded_txStream : (s.decStarted.decoded covered more env).txStream = s.txStream ++ [0x06#8] := by
  have hrx (bs : List Byte) : (bs.map Event.rx).filterMap Event.sent? = [] := by simp [Event.sent?]
  rw [State.txStream, decStarted_decoded_events]
  simp [State.txStream, List.filterMap_cons, Event.sent?, hrx]

/-- The decoded result stands (10_state.md R37). -/
theorem decStarted_decoded_rspValid : (s.decStarted.decoded covered more env).rspValid = true := by
  have hrx (bs : List Byte) : (bs.map Event.rx).filterMap Event.accepted? = [] := by simp [Event.accepted?]
  have hlast : (s.decStarted.decoded covered more env).lastAccepted = some (commandWord 4#4 false 0#2 0#9 0#9) := by
    rw [State.lastAccepted, decStarted_decoded_events]
    simp [List.filterMap_cons, Event.accepted?, hrx]
  rw [State.rspValid, hlast]
  rfl

theorem decoded_len (s : State) (hlen : covered.length + 1 ≤ 255) :
    (s.decoded covered more env c).len.toNat = covered.length + 1 := by
  rw [State.decoded, BitVec.toNat_ofNat]
  omega

theorem decoded_reslen (s : State) (hlen : covered.length + 1 ≤ 255) :
    (s.decoded covered more env c).reslen.toNat = covered.length := by
  rw [State.decoded, BitVec.toNat_ofNat]
  omega

/-- `RSP` is the covered bytes behind the length field. -/
theorem decStarted_decoded_rspByte (hlen : covered.length + 1 ≤ 255) {k : Nat} (hk : k < covered.length) :
    (s.decStarted.decoded covered more env).rspByte k = covered[k]? := by
  have hframe : (frameBytes (validBody covered))[2 + k]? = covered[k]? := by
    rw [Nat.add_comm]
    exact List.getElem?_append_left hk
  rw [State.rspByte, if_pos ⟨decStarted_decoded_rspValid, (decoded_reslen _ hlen).symm ▸ hk⟩,
    byte?_storeBytes (s := s) (sp := .rxbuf) (i := 0) (bs := frameBytes (validBody covered))
      (by simp [length_frameBytes]; omega) rfl,
    if_pos ⟨rfl, by omega, by simp [length_frameBytes]; omega⟩, Nat.sub_zero, hframe]

end

/-! ### The round trip (41_encode.md R163) -/

section
variable (p : List Byte) (seq : Bool) (q : Byte)

/-- The type byte, the payload and the sequence byte: what an outbound frame's checksum covers behind its length field. -/
def contentBytes (c : Params := Config.hw) : List Byte := c.typeReq :: (p ++ seqBytes seq q)

theorem length_contentBytes : (contentBytes p seq q c).length + 1 = p.length + 2 + seq.toNat := by
  simp [contentBytes]
  omega

/-- What `ENC` builds is a valid frame. -/
theorem outboundFrame_eq_frameBytes : outboundFrame p seq q c = frameBytes (validBody (contentBytes p seq q c) c) c := by
  have hcovered : coveredBytes p seq q c =
      BitVec.ofNat 8 ((contentBytes p seq q c).length + 1) :: contentBytes p seq q c := by
    rw [length_contentBytes]
    rfl
  rw [frameBytes, length_validBody, validBody, ← hcovered, outboundFrame, hcovered, List.cons_append]

end

/-- Settles O38: the bytes of `encode(p, s, q)` are a valid frame, and `DEC` keeps what its checksum covers. -/
theorem decodeRecoversWhatEncodeBuilt : Obligations.DecodeRecoversWhatEncodeBuilt := by
  intro p seq q s more rest hp hidle hstream henv
  have hcontent := length_contentBytes (c := Config.hw) p seq q
  have hseq := seq.toNat_le
  have hlen : (contentBytes p seq q).length + 1 ≤ 255 := by omega
  have hexec := exec_dec_decoded (covered := contentBytes p seq q) (more := more) (env := rest) hidle hlen
    (outboundFrame_eq_frameBytes (c := Config.hw) p seq q ▸ hstream) (by rw [henv]; congr 2; omega)
  have hreslen := decoded_reslen (c := Config.hw) (more := more) (env := rest) s.decStarted hlen
  refine ⟨_, hexec, rfl, rfl, (decoded_len _ hlen).trans hcontent, by omega, fun k hk => ?_, decStarted_decoded_txStream, rfl⟩
  exact decStarted_decoded_rspByte hlen (hreslen ▸ hk)

end Sys2Proof.Machine
end

section
/-! PROOFS. `SEND`, `ACK` and `NACK`: the bytes handed over one at a time, the end at a write failure, what the three leave
unchanged, and the commands that wait for an answer that does not come (42_transmit.md R180 to R186; 70_reset_and_hazards.md R352). -/

namespace Sys2Proof.Machine

variable {c : Params}

/-! ### The byte on offer is answered (42_transmit.md R180) -/

section
variable {s : State} {sig : TxSignals} {b : Byte} {onSent : State → State} {env : List Move}

/-- The transport takes the byte on offer. -/
theorem txPut_taken : txPut ⟨true, false⟩ b s onSent = onSent (s.emit (.tx b)) := rfl

/-- The transport fails, and the command ends with the byte unsent (42_transmit.md R186). -/
theorem txPut_writeFails : txPut ⟨false, true⟩ b s onSent = (s.emit .txerr).finish .xfail := rfl

theorem runCommand_frameByte (hp : s.phase = .tFrame) (henv : s.env = .tx sig :: env)
    (hb : s.byte? .txbuf s.pos.toNat c = some b) :
    runCommand s c = runCommand (txPut sig b { s with env := env } frameByteSent) c := by
  have hanswer : otherMove (.tx sig) { s with env := env } c = .next (txPut sig b { s with env := env } frameByteSent) := by
    simp only [otherMove, txAnswer, hp, sendAnswer]
    exact withByte_of_byte? _ hb
  rw [runCommand_of_answer (by simp [hp]) (by simp [State.internal, hp]) henv (.inl ⟨_, rfl⟩), hanswer, andThen_of_next]

theorem runCommand_controlByte (hp : s.phase = .tCtrl) (henv : s.env = .tx sig :: env) :
    runCommand s c = runCommand (txPut sig (s.opb.setWidth 8) { s with env := env } controlByteSent) c := by
  rw [runCommand_of_answer (by simp [hp]) (by simp [State.internal, hp]) henv (.inl ⟨_, rfl⟩)]
  simp only [otherMove, txAnswer, hp, controlAnswer, andThen_of_next]

theorem frameByteSent_of_more (h : s.pos + 1#9 ≠ s.txlen) : frameByteSent s = { s with pos := s.pos + 1#9 } := if_neg h

theorem frameByteSent_of_last (h : s.pos + 1#9 = s.txlen) :
    frameByteSent s = State.finish { s with pos := s.pos + 1#9 } .ok := if_pos h

/-! ### The frame, byte by byte (42_transmit.md R184) -/

/-- The state after the bytes of `bs` have been handed over, when the moves `env` are left. -/
def State.handedOver (s : State) (bs : List Byte) (env : List Move) : State :=
  { s with pos := s.pos + BitVec.ofNat 9 bs.length, events := s.events ++ bs.map Event.tx, env := env }

theorem State.handedOver_nil (s : State) : s.handedOver [] s.env = s := by simp [State.handedOver]

theorem State.handedOver_cons {bs : List Byte} {env' : List Move} :
    s.handedOver (b :: bs) env = (s.handedOver [b] env').handedOver bs env := by
  simp [State.handedOver, add_ofNat_succ _ bs.length]

theorem State.handedOver_byte? {bs : List Byte} (sp : Space) (i : Nat) : (s.handedOver bs env).byte? sp i c = s.byte? sp i c :=
  byte?_congr rfl sp i

theorem State.handedOver_bytes? {bs : List Byte} (sp : Space) (i n : Nat) :
    (s.handedOver bs env).bytes? sp i n c = s.bytes? sp i n c :=
  bytes?_congr sp i n fun _ _ _ => State.handedOver_byte? sp _

/-- The bytes of a range in two parts. -/
theorem bytes?_append_iff {sp : Space} {i : Nat} {xs ys : List Byte} :
    s.bytes? sp i (xs ++ ys).length c = some (xs ++ ys) ↔
      s.bytes? sp i xs.length c = some xs ∧ s.bytes? sp (i + xs.length) ys.length c = some ys := by
  induction xs generalizing i with
  | nil => simp [State.bytes?]
  | cons x xs ih =>
    rw [List.cons_append, List.length_cons, List.length_cons, bytes?_cons_iff, bytes?_cons_iff, ih, and_assoc,
      Nat.add_assoc, Nat.add_comm 1]

/-- The written bytes of the frame before its last are handed over, one transition each. -/
theorem runCommand_handedOver {bs : List Byte} (hp : s.phase = .tFrame)
    (hbs : s.bytes? .txbuf s.pos.toNat bs.length c = some bs) (hin : s.pos.toNat + bs.length < s.txlen.toNat)
    (henv : s.env = List.replicate bs.length .taken ++ env) : runCommand s c = runCommand (s.handedOver bs env) c := by
  induction bs generalizing s with
  | nil =>
    obtain rfl : s.env = env := henv
    rw [State.handedOver_nil]
  | cons b bs ih =>
    rw [List.length_cons] at hbs hin
    obtain ⟨hb, hrest⟩ := bytes?_cons_iff.mp hbs
    have hmoved : (s.pos + 1#9).toNat = s.pos.toNat + 1 := toNat_succ_of_le (lt_size_of_byte?_eq_some hb).le
    have hmore : s.pos + 1#9 ≠ s.txlen := fun h => by
      rw [← h, hmoved] at hin
      omega
    rw [runCommand_frameByte hp henv hb, txPut_taken, frameByteSent_of_more (by exact hmore),
      State.handedOver_cons (env' := List.replicate bs.length .taken ++ env)]
    refine ih (s := s.handedOver [b] (List.replicate bs.length .taken ++ env)) hp ?_ ?_ rfl
    · rw [State.handedOver_bytes?]
      exact (congrArg (s.bytes? .txbuf · bs.length c) hmoved).trans hrest
    · change (s.pos + 1#9).toNat + bs.length < s.txlen.toNat
      omega

end

/-! ### The commands as they begin -/

/-- The state in which an accepted `SEND` begins to hand its frame over. -/
def State.sendStarted (s : State) : State := (s.accept (commandWord 3#4 false 0#2 0#9 0#9)).startSend

/-- The state in which an accepted `ACK` or `NACK`, with opcode `op`, offers the byte `b`. -/
def State.controlStarted (s : State) (op : BitVec 4) (b : Byte) : State :=
  (s.accept (commandWord op false 0#2 0#9 0#9)).startControl b

section
variable {s : State} {sig : TxSignals} {b : Byte} {env : List Move}

theorem State.sendStarted_byte? (sp : Space) (i : Nat) : s.sendStarted.byte? sp i = s.byte? sp i := byte?_congr rfl sp i

theorem exec_send_started (hidle : s.status.busy = false) (hbuilt : s.txlen ≠ 0#9) : exec .send s = runCommand s.sendStarted :=
  (execSend_command Config.hw s).trans (command_of_legal hidle (by simpa [frameBuilt] using hbuilt))

theorem exec_ack_started (hidle : s.status.busy = false) : exec .ack s = runCommand (s.controlStarted 5#4 0x06#8) :=
  (execAck_command Config.hw s).trans (command_of_legal hidle rfl)

theorem exec_nack_started (hidle : s.status.busy = false) : exec .nack s = runCommand (s.controlStarted 6#4 0x15#8) :=
  (execNack_command Config.hw s).trans (command_of_legal hidle rfl)

/-- `ACK` and `NACK` go on with the answer to their byte. -/
theorem exec_control_answered {i : Instr} {w : CmdWord} (hi : i = .ack ∧ b = 0x06#8 ∨ i = .nack ∧ b = 0x15#8)
    (hidle : s.status.busy = false) (hcode : encode i = .command w) (henv : s.env = .tx sig :: env) :
    ∃ op, w = commandWord op false 0#2 0#9 0#9 ∧
      exec i s = runCommand (txPut sig b { s.controlStarted op b with env := env } controlByteSent) := by
  have hbyte (op : BitVec 4) : (s.controlStarted op b).opb.setWidth 8 = b := by
    simp only [State.controlStarted, State.startControl_opb]
    exact BitVec.setWidth_setWidth_of_le b (by decide)
  have hrun (op : BitVec 4) := runCommand_controlByte (c := Config.hw) (s := s.controlStarted op b) rfl henv
  simp only [hbyte] at hrun
  obtain ⟨rfl, rfl⟩ | ⟨rfl, rfl⟩ := hi
  · exact ⟨5#4, (Code.command.inj hcode).symm, (exec_ack_started hidle).trans (hrun 5#4)⟩
  · exact ⟨6#4, (Code.command.inj hcode).symm, (exec_nack_started hidle).trans (hrun 6#4)⟩

/-- `SEND` of a written frame hands over the bytes `sent`, and goes on with the answer to the byte behind them. -/
theorem exec_send_handedOver {sent more : List Byte} (hidle : s.status.busy = false)
    (hbytes : s.bytes? .txbuf 0 s.txlen.toNat = some (sent ++ b :: more))
    (henv : s.env = List.replicate sent.length .taken ++ .tx sig :: env) :
    exec .send s = runCommand (txPut sig b (s.sendStarted.handedOver sent env) frameByteSent) := by
  obtain ⟨hlen, _⟩ := bytes?_eq_some_iff.mp hbytes
  rw [← hlen] at hbytes
  obtain ⟨hsent, hmore⟩ := bytes?_append_iff.mp hbytes
  obtain ⟨hb, _⟩ := bytes?_cons_iff.mp hmore
  rw [List.length_append, List.length_cons] at hlen
  have hbuilt : s.txlen ≠ 0#9 := fun h => by simp [h] at hlen
  have hpos : (0#9 + BitVec.ofNat 9 sent.length).toNat = 0 + sent.length := by
    have := s.txlen.isLt
    rw [BitVec.toNat_add, BitVec.toNat_ofNat, BitVec.toNat_ofNat]
    omega
  have hstarted : s.sendStarted.bytes? .txbuf 0 sent.length = some sent :=
    (bytes?_congr .txbuf 0 _ fun k _ _ => State.sendStarted_byte? .txbuf k).trans hsent
  have hoffered : (s.sendStarted.handedOver sent (.tx sig :: env)).byte? .txbuf
      (s.sendStarted.handedOver sent (.tx sig :: env)).pos.toNat = some b := by
    rw [State.handedOver_byte?, State.sendStarted_byte?]
    exact hpos ▸ hb
  rw [exec_send_started hidle hbuilt, runCommand_handedOver (s := s.sendStarted) (bs := sent) rfl hstarted ?_ henv,
    runCommand_frameByte rfl rfl hoffered]
  · rfl
  · change 0 + sent.length < s.txlen.toNat
    omega

end

/-! ### The commands to their end -/

/-- The flags of a command that has been accepted and has ended (60_exceptions.md R308). -/
theorem Status.accepted_finished (st : Status) (code : ResultCode) : st.accepted.finished code = flagsAfter st code := rfl

/-- Settles O24: the bytes before the last are handed over, and the last one's acceptance ends the command. -/
theorem sendCompletes : Obligations.SendCompletes := by
  intro s bs rest w hidle hbuilt hbytes henv hcode
  obtain rfl : commandWord 3#4 false 0#2 0#9 0#9 = w := by simpa [encode] using hcode
  obtain ⟨hlen, _⟩ := bytes?_eq_some_iff.mp hbytes
  obtain rfl | ⟨sent, b, rfl⟩ := List.eq_nil_or_concat' bs
  · exact absurd (BitVec.eq_of_toNat_eq hlen.symm) hbuilt
  rw [List.length_append, List.length_singleton] at hlen
  have hend : BitVec.ofNat 9 sent.length + 1#9 = s.txlen := by
    rw [← BitVec.ofNat_add, hlen, BitVec.ofNat_toNat, BitVec.setWidth_eq]
  have hmoves : s.env = List.replicate sent.length .taken ++ .taken :: rest := by
    rw [henv, ← hlen, List.replicate_succ', List.append_assoc, List.singleton_append]
  rw [exec_send_handedOver hidle hbytes hmoves, txPut_taken,
    frameByteSent_of_last (by simpa [State.handedOver, State.sendStarted] using hend), runCommand_of_idle rfl]
  simp [State.handedOver, State.sendStarted, State.finish, State.emit, State.startSend, State.accept,
    Status.accepted_finished, hend]

/-- Settles O25: the bytes before the one the transport fails at are handed over, and that failure ends the command. -/
theorem sendEndsAtAWriteFailure : Obligations.SendEndsAtAWriteFailure := by
  intro s bs i rest w hidle hbytes hi henv hcode
  obtain rfl : commandWord 3#4 false 0#2 0#9 0#9 = w := by simpa [encode] using hcode
  obtain ⟨hlen, _⟩ := bytes?_eq_some_iff.mp hbytes
  have hcount : (bs.take i).length = i := List.length_take_of_le (by omega)
  have hsplit : bs.take i ++ bs[i] :: bs.drop (i + 1) = bs := by
    rw [List.getElem_cons_drop, List.take_append_drop]
  rw [exec_send_handedOver hidle (hsplit.symm ▸ hbytes) (hcount.symm ▸ henv), txPut_writeFails, runCommand_of_idle rfl]
  simp [State.handedOver, State.sendStarted, State.finish, State.emit, State.startSend, State.accept,
    Status.accepted_finished, hcount]

/-- Settles O26: the answer to the control byte ends the command, either way. -/
theorem controlCommandsComplete : Obligations.ControlCommandsComplete := by
  intro s rest i b w hi hidle hcode
  constructor
  · intro henv
    obtain ⟨op, rfl, hexec⟩ := exec_control_answered hi hidle hcode henv
    rw [hexec, txPut_taken, runCommand_of_idle rfl]
    simp [controlByteSent, State.controlStarted, State.finish, State.emit, State.startControl, State.accept,
      Status.accepted_finished]
  · intro henv
    obtain ⟨op, rfl, hexec⟩ := exec_control_answered hi hidle hcode henv
    rw [hexec, txPut_writeFails, runCommand_of_idle rfl]
    simp [State.controlStarted, State.finish, State.emit, State.startControl, State.accept,
      Status.accepted_finished]

/-! ### What `SEND`, `ACK` and `NACK` leave unchanged (42_transmit.md R181 to R183) -/

/-- The registers, the memories, the observations and the bytes taken that `SEND`, `ACK` and `NACK` leave alone. -/
def State.besideTransmit (s : State) :
    Byte × Byte × Byte × Nine × Nine × Byte × ResultCode × List HostObs × Memory × List Byte :=
  (s.seq, s.acc, s.len, s.txlen, s.rxcnt, s.reslen, s.pend, s.hostLog, s.mem, s.rxTaken)

/-- The block is handing bytes over for `SEND`, `ACK` or `NACK`. -/
def State.transmitting (s : State) : Prop := s.phase = .tFrame ∨ s.phase = .tCtrl

/-- `SEND`, `ACK` or `NACK` is in progress, or has ended, and the rest is as in `s`. -/
structure TransmitKeeps (s t : State) : Prop where
  phase : t.transmitting ∨ t.phase = .idle
  beside : t.besideTransmit = s.besideTransmit

section
variable {s t u : State}

theorem besideTransmit_eq_iff : t.besideTransmit = s.besideTransmit ↔
    t.seq = s.seq ∧ t.acc = s.acc ∧ t.len = s.len ∧ t.txlen = s.txlen ∧ t.rxcnt = s.rxcnt ∧ t.reslen = s.reslen ∧
    t.pend = s.pend ∧ t.hostLog = s.hostLog ∧ t.mem = s.mem ∧ t.rxTaken = s.rxTaken := by
  simp only [State.besideTransmit, Prod.mk.injEq]

/-- An event that carries no byte of the peer. -/
theorem besideTransmit_emit (s : State) {e : Event} (htaken : e.taken? = none) :
    (s.emit e).besideTransmit = s.besideTransmit := by
  simp [State.besideTransmit, State.rxTaken, htaken]

theorem TransmitKeeps.trans (hst : TransmitKeeps s t) (htu : TransmitKeeps t u) : TransmitKeeps s u :=
  ⟨htu.phase, htu.beside.trans hst.beside⟩

/-- The moves, the receive stream and `POS` are not among what is kept. -/
theorem TransmitKeeps.of_same (hp : s.transmitting) (env : List Move) (stream : List Byte) (pos : Nine) :
    TransmitKeeps s { s with env := env, rxStream := stream, pos := pos } := ⟨.inl hp, rfl⟩

theorem TransmitKeeps.emit (hp : s.transmitting) {e : Event} (htaken : e.taken? = none) : TransmitKeeps s (s.emit e) :=
  ⟨.inl hp, besideTransmit_emit s htaken⟩

theorem TransmitKeeps.finish (h : TransmitKeeps s t) (code : ResultCode) : TransmitKeeps s (t.finish code) :=
  ⟨.inr rfl, (besideTransmit_emit t (e := .done code) rfl).trans h.beside⟩

theorem txPut_transmitKeeps {sig : TxSignals} {b : Byte} {onSent : State → State} (hp : s.transmitting)
    (hsent : ∀ u, u.transmitting → TransmitKeeps u (onSent u)) : TransmitKeeps s (txPut sig b s onSent) := by
  rcases txPut_cases sig b s onSent with ⟨_, he⟩ | ⟨_, he⟩ | ⟨_, he⟩ <;> rw [he]
  · exact (TransmitKeeps.emit hp rfl).trans (hsent _ hp)
  · exact (TransmitKeeps.emit hp rfl).finish .xfail
  · exact ⟨.inl hp, rfl⟩

theorem frameByteSent_transmitKeeps (hp : s.transmitting) : TransmitKeeps s (frameByteSent s) := by
  have moved : TransmitKeeps s { s with pos := s.pos + 1#9 } := .of_same hp s.env s.rxStream _
  rcases frameByteSent_cases s with ⟨_, he⟩ | ⟨_, he⟩ <;> rw [he]
  · exact moved.finish .ok
  · exact moved

theorem controlByteSent_transmitKeeps (hp : s.transmitting) : TransmitKeeps s (controlByteSent s) :=
  (TransmitKeeps.of_same hp s.env s.rxStream 1#9).finish .ok

theorem txAnswer_transmitKeeps {sig : TxSignals} (hp : s.transmitting) (h : txAnswer sig s c = .next t) :
    TransmitKeeps s t := by
  rcases txAnswer_next h with ⟨_, b, _, rfl⟩ | ⟨_, rfl⟩ | ⟨hp', _⟩ | ⟨hp', _⟩ | ⟨hf, hc, _⟩
  · exact txPut_transmitKeeps hp fun _ => frameByteSent_transmitKeeps
  · exact txPut_transmitKeeps hp fun _ => controlByteSent_transmitKeeps
  · simp [State.transmitting, hp'] at hp
  · simp [State.transmitting, hp'] at hp
  · exact absurd hp (not_or.mpr ⟨hf, hc⟩)

/-- No read call is open, so the read side's answer is not seen. -/
theorem rxAnswer_of_transmitting {sig : RxSignals} (hp : s.transmitting) : rxAnswer sig s c = .next s := by
  rcases hp with hp | hp <;> simp [rxAnswer, hp]

theorem tick_transmitKeeps (hp : s.transmitting) (h : tick s c = .next t) : TransmitKeeps s t := by
  have same (env : List Move) : TransmitKeeps s { s with env := env } := .of_same hp env s.rxStream s.pos
  rcases tick_next h with ⟨hp', _⟩ | ⟨hp', _⟩ | ⟨env, rfl⟩ | ⟨sig, env, h⟩ | ⟨sig, env, h⟩ | ⟨bytes, env, rfl⟩
  · simp [State.transmitting, hp'] at hp
  · simp [State.transmitting, hp'] at hp
  · exact same env
  · exact (same env).trans (txAnswer_transmitKeeps (s := { s with env := env }) hp h)
  · rw [rxAnswer_of_transmitting (s := { s with env := env }) hp] at h
    exact Host.Outcome.next.inj h ▸ same env
  · exact .of_same hp env (s.rxStream ++ bytes) s.pos

theorem runCommand_transmitKeeps (hp : s.transmitting) (h : runCommand s c = .next t) : TransmitKeeps s t :=
  drive_keeps (fun _ _ hu hbusy hstep => hu.trans (tick_transmitKeeps (hu.phase.resolve_right hbusy) hstep)) _
    ⟨.inl hp, rfl⟩ h

/-- A command that begins by transmitting is refused, or runs and keeps the rest. -/
theorem command_transmit_beside {w : CmdWord} {legal : State → Bool} {start : State → State}
    (h : command w legal start s c = .next t)
    (hstart : ∀ u, (start u).transmitting ∧ (start u).besideTransmit = u.besideTransmit) :
    t.besideTransmit = s.besideTransmit := by
  rcases command_next h with ⟨_, rfl⟩ | ⟨_, _, rfl⟩ | ⟨_, _, hrun⟩
  · rfl
  · exact besideTransmit_emit s (e := .cmderr w) rfl
  · obtain ⟨hp, hbegun⟩ := hstart (s.accept w)
    exact (runCommand_transmitKeeps hp hrun).beside.trans (hbegun.trans (besideTransmit_emit s (e := .cmd w) rfl))

theorem exec_transmit_beside {i : Instr} (hi : i = .send ∨ i = .ack ∨ i = .nack) (h : exec i s = .next t) :
    t.besideTransmit = s.besideTransmit := by
  obtain rfl | rfl | rfl := hi
  · exact command_transmit_beside ((execSend_command Config.hw s).symm.trans h) fun _ => ⟨.inl rfl, rfl⟩
  · exact command_transmit_beside ((execAck_command Config.hw s).symm.trans h) fun _ => ⟨.inr rfl, rfl⟩
  · exact command_transmit_beside ((execNack_command Config.hw s).symm.trans h) fun _ => ⟨.inr rfl, rfl⟩

end

/-- Settles O27: a refusal, the start and every transition of `SEND`, `ACK` and `NACK` leave the rest as it was. -/
theorem transmitFrame : Obligations.TransmitFrame := by
  intro i s t hi h
  obtain ⟨hseq, hacc, hlen, htxlen, hrxcnt, hreslen, hpend, hlog, hmem, htaken⟩ :=
    besideTransmit_eq_iff.mp (exec_transmit_beside hi h)
  exact ⟨hseq, hacc, hlen, htxlen, hrxcnt, hreslen, hpend, hlog, byte?_congr hmem, htaken⟩

/-! ### Waiting for ever (42_transmit.md R180 (c); 43_decode.md R204 (d); 70_reset_and_hazards.md R352) -/

section
variable {s : State}

/-- With nothing scheduled, a block that has no step of its own stays where it is. -/
theorem tick_of_stuck (hself : s.internal = false) (henv : s.env = []) : tick s c = .next s := by simp [tick, hself, henv]

theorem step_of_stuck (hself : s.internal = false) (henv : s.env = []) : step s = .next s := by
  have htick : step s = tick s := by rw [step, stepVia, henv]
  exact htick.trans (tick_of_stuck hself henv)

theorem goesOn_of_stuck (hself : s.internal = false) (henv : s.env = []) : s.goesOn = false := by
  simp [State.goesOn, hself, henv, othersNext]

theorem runCommand_of_not_goesOn (hgo : s.goesOn = false) : runCommand s c = .next s := by
  simp [runCommand, commandFuel, drive, hgo]

/-- A command that needs an answer of the transport begins in a phase in which the block has no step of its own. -/
theorem exec_started_waiting {i : Instr} (hi : i = .ack ∨ i = .nack ∨ i = .dec ∨ (i = .send ∧ s.txlen ≠ 0#9))
    (hidle : s.status.busy = false) :
    ∃ w u, Started Config.hw s i w u ∧ exec i s = runCommand u ∧ u.internal = false := by
  obtain rfl | rfl | rfl | ⟨rfl, hbuilt⟩ := hi
  · exact ⟨_, _, .ack, exec_ack_started hidle, rfl⟩
  · exact ⟨_, _, .nack, exec_nack_started hidle, rfl⟩
  · exact ⟨_, _, .dec, exec_dec_started hidle, rfl⟩
  · exact ⟨_, _, .send (by simpa [frameBuilt] using hbuilt), exec_send_started hidle hbuilt, rfl⟩

end

/-- Settles O28: the state in which the command begins is the one in which it waits. -/
theorem commandsCanWaitForEver : Obligations.CommandsCanWaitForEver := by
  intro s i hi hidle henv
  obtain ⟨w, u, hstart, hexec, hself⟩ := exec_started_waiting hi hidle
  have hnone : u.env = [] := hstart.orderly.env.trans henv
  refine ⟨u, ?_, ?_, hstart.begins.result, step_of_stuck hself hnone⟩
  · exact hexec.trans (runCommand_of_not_goesOn (goesOn_of_stuck hself hnone))
  · rw [hstart.begins.status]
    rfl

end Sys2Proof.Machine
end

section
/-! PROOFS. `DEC` answer by answer: what the read side's and the write side's answers do in each of its phases, and from it the
transition table (43_decode.md R204 to R220, R230). -/

namespace Sys2Proof.Machine

variable {c : Params}

/-! ### The phases of `DEC` -/

/-- A read call of `DEC` is open. -/
def State.reading (s : State) : Prop := s.phase = .dHdr ∨ s.phase = .dBody

/-- The reply of `DEC` is on offer. -/
def State.replying (s : State) : Prop := s.phase = .dAck ∨ s.phase = .dNack

section
variable {s : State} {b : Byte} {more : List Byte} {env : List Move}

theorem State.reading.internal (h : s.reading) : s.internal = false := by
  obtain h | h := h <;> simp [State.internal, h]

theorem State.replying.internal (h : s.replying) : s.internal = false := by
  obtain h | h := h <;> simp [State.internal, h]

theorem State.reading.ne_idle (h : s.reading) : s.phase ≠ .idle := by
  obtain h | h := h <;> simp [h]

/-! ### Each answer by phase (43_decode.md R230) -/

theorem otherMove_byteComes_header (hp : s.phase = .dHdr) (hhead : s.rxStream = b :: more) :
    otherMove .byteComes s c = headerByte b { s with rxStream := more } c := by
  simp [otherMove, Move.byteComes, rxAnswer, hp, readCall, readAnswer, hhead]

theorem otherMove_byteComes_body (hp : s.phase = .dBody) (hhead : s.rxStream = b :: more) :
    otherMove .byteComes s c = bodyByte b { s with rxStream := more } c := by
  simp [otherMove, Move.byteComes, rxAnswer, hp, readCall, readAnswer, hhead]

/-- The deadline can pass before a byte that waits is given. -/
theorem readAnswer_deadline (stream : List Byte) : readAnswer ⟨false, true, false⟩ stream = .timeout := by
  cases stream <;> rfl

theorem otherMove_deadline_header (hp : s.phase = .dHdr) : otherMove .deadline s c = .next (headerTimeout s) := by
  simp [otherMove, Move.deadline, rxAnswer, hp, readCall, readAnswer_deadline]

theorem otherMove_deadline_body (hp : s.phase = .dBody) : otherMove .deadline s c = .next (bodyTimeout s) := by
  simp [otherMove, Move.deadline, rxAnswer, hp, readCall, readAnswer_deadline]

theorem otherMove_readFails_reading (hp : s.reading) : otherMove .readFails s c = .next (readFailed s) := by
  obtain hp | hp := hp <;> simp [otherMove, Move.readFails, rxAnswer, hp, readCall, readAnswer]

theorem otherMove_taken_ack (hp : s.phase = .dAck) : otherMove .taken s c = .next ((s.emit (.tx c.ackByte)).finish .ok) := by
  simp only [otherMove, Move.taken, txAnswer, hp, ackReplyAnswer, txPut_taken]

theorem otherMove_taken_nack (hp : s.phase = .dNack) :
    otherMove .taken s c = .next ((s.emit (.tx c.nackByte)).finish s.pend) := by
  simp only [otherMove, Move.taken, txAnswer, hp, nackReplyAnswer, txPut_taken, State.emit_pend]

theorem otherMove_writeFails_replying (hp : s.replying) : otherMove .writeFails s c = .next ((s.emit .txerr).finish .xfail) := by
  obtain hp | hp := hp <;>
    simp only [otherMove, Move.writeFails, txAnswer, hp, ackReplyAnswer, nackReplyAnswer, txPut_writeFails]

/-- No read call is open, so the read side's answer is not seen. -/
theorem rxAnswer_of_replying (sig : RxSignals) (hp : s.replying) : rxAnswer sig s c = .next s := by
  obtain hp | hp := hp <;> simp [rxAnswer, hp]

/-- No byte is on offer, so the write side's answer is not seen. -/
theorem txAnswer_of_reading (sig : TxSignals) (hp : s.reading) : txAnswer sig s c = .next s := by
  obtain hp | hp := hp <;> simp [txAnswer, hp]

/-! ### The ends of the two read calls -/

theorem headerComplete_of_wrong_marker {first : Byte} (hfirst : s.byte? .rxbuf 0 c = some first) (hne : first ≠ c.sof) :
    headerComplete s c = .next (s.finish .invalidSof) := by
  rw [headerComplete, withByte_of_byte? _ hfirst, if_pos hne]

theorem headerComplete_of_length_zero (hsof : s.byte? .rxbuf 0 c = some c.sof) (hl : s.len = 0#8) :
    headerComplete s c = .next { s with pend := .invalidCrc, phase := .dNack } := by
  rw [headerComplete, withByte_of_byte? _ hsof, if_neg (by simp), if_pos hl]

theorem bodyByte_invalid (hlast : s.pos.toNat = s.len.toNat + 1) (hacc : s.acc ≠ b) :
    bodyByte b s c = .next { received s b with pend := .invalidCrc, phase := .dNack } := by
  have := s.len.isLt
  rw [bodyByte, if_neg (by omega), if_pos hlast, storeReceived_of_lt _ _ (by simp only [Space.size_rxbuf]; omega), bodyComplete,
    if_neg (show (received s b).acc ≠ b from hacc)]

/-! ### The transition table, one step a row (43_decode.md R230)

An answer of the transport is one step, in a phase with no step of the block's own. -/

theorem step_readSide {sig : RxSignals} (hself : s.internal = false) (henv : s.env = .rx sig :: env) :
    step s = rxAnswer sig { s with env := env } := by simp [step, stepVia, tick, hself, henv, Move.isHost, otherMove]

theorem step_writeSide {sig : TxSignals} (hself : s.internal = false) (henv : s.env = .tx sig :: env) :
    step s = txAnswer sig { s with env := env } := by simp [step, stepVia, tick, hself, henv, Move.isHost, otherMove]

theorem step_headerByte (hp : s.phase = .dHdr) (hhead : s.rxStream = b :: more) (henv : s.env = .byteComes :: env) :
    step s = headerByte b { s with rxStream := more, env := env } :=
  (step_readSide (State.reading.internal (.inl hp)) henv).trans (otherMove_byteComes_header (by exact hp) (by exact hhead))

theorem step_bodyByte (hp : s.phase = .dBody) (hhead : s.rxStream = b :: more) (henv : s.env = .byteComes :: env) :
    step s = bodyByte b { s with rxStream := more, env := env } :=
  (step_readSide (State.reading.internal (.inr hp)) henv).trans (otherMove_byteComes_body (by exact hp) (by exact hhead))

/-- The state in which `DEC` begins, register by register (43_decode.md R205). -/
theorem decStarted_eq (s : State) : s.decStarted = { s with
    rxcnt := 0#9
    reslen := 0#8
    len := 0#8
    pos := 0#9
    acc := 0xFF#8
    pend := .ok
    phase := .dHdr
    status := s.status.accepted
    opa := 0#9
    opb := 0#9
    bsl := 0#2
    sfl := false
    events := s.events ++ [.cmd (commandWord 4#4 false 0#2 0#9 0#9), .arm 2#8] } := by
  simp only [State.decStarted, State.startDec, State.arm, State.emit, State.accept, List.append_assoc]
  rfl

/-- `DEC` presented, with nothing scheduled behind it, opens its header call and waits. -/
theorem step_presentDec (hidle : s.status.busy = false) (henv : s.env = [.present 0x40000000#32]) :
    step s = .next { s with env := [] }.decStarted := by
  rw [stepRunsThePresentedCommand s _ [] .dec henv hidle rfl, exec_dec_started (by exact hidle)]
  exact runCommand_of_not_goesOn (goesOn_of_stuck rfl rfl)

/-- The second byte of the header, when the first stands in `RXBUF[0]`. -/
theorem headerByte_second_of_first {first : Byte} (hpos : s.pos = 1#9) (hfirst : s.byte? .rxbuf 0 c = some first) :
    headerByte b s c = headerComplete { received s b with len := b, acc := s.acc ^^^ b } c ∧
      State.byte? { received s b with len := b, acc := s.acc ^^^ b } .rxbuf 0 c = some first := by
  refine ⟨headerByte_second hpos, (byte?_memStore s .rxbuf .rxbuf s.pos.toNat 0 b (by simp [hpos])).trans ?_⟩
  rw [if_neg (by simp [hpos]), hfirst]

/-- A command that ends behind one event, when the moves `env` are left. -/
theorem emit_finish_env (s : State) (e : Event) (code : ResultCode) (env : List Move) :
    (State.emit { s with env := env } e).finish code = { s with
      result := code
      status := flagsAfter s.status code
      phase := .idle
      events := s.events ++ [e, .done code]
      env := env } := by
  simp only [State.finish, State.emit, List.append_assoc, List.singleton_append]
  rfl

end

/-- Settles O40: each row is the answer in that phase, and the state it leaves is the row's effect. -/
theorem decTransitionTable : Obligations.DecTransitionTable := by
  intro s b more rest
  refine ⟨fun _ hidle henv => ⟨_, step_presentDec hidle henv, ?_⟩,
    fun hp hcnt hhead henv => ⟨fun hpos => ?_, fun hpos first hfirst => ?_⟩,
    fun hp hhead henv => ⟨fun hin => ?_, fun hlast hacc => ?_, fun hlast hacc => ?_⟩, fun henv => ⟨fun hp => ?_, fun hp => ?_⟩,
    fun henv (hp : s.reading) => ?_, fun henv => ⟨fun hp => ?_, fun hp => ?_⟩, fun henv (hp : s.replying) => ?_,
    fun sig (hp : s.replying) henv => ?_, fun sig (hp : s.reading) henv => ?_⟩
  -- `IDLE`
  · rw [decStarted_eq]
    rfl
  -- `D_HDR`, a byte
  · rw [step_headerByte hp hhead henv, headerByte_first (by exact hpos)]
    simp [received, hpos, hcnt]
  · obtain ⟨hbyte, hmarker⟩ := headerByte_second_of_first (b := b) (s := { s with rxStream := more, env := rest })
      hpos hfirst
    rw [step_headerByte hp hhead henv, hbyte]
    refine ⟨fun hne => ?_, ?_, ?_⟩
    · rw [headerComplete_of_wrong_marker hmarker hne]
      simp [received, State.finish, hpos, hcnt, flagsAfter, Status.finished]
    · rintro rfl rfl
      rw [headerComplete_of_length_zero hmarker rfl]
      simp [received, hpos, hcnt]
    · rintro rfl hne
      rw [headerComplete_of_sof hmarker hne]
      simp [received, State.arm, State.emit, hpos, hcnt]
  -- `D_BODY`, a byte
  · exact (step_bodyByte hp hhead henv).trans (bodyByte_covered hin)
  · exact (step_bodyByte hp hhead henv).trans (bodyByte_valid hlast hacc)
  · exact (step_bodyByte hp hhead henv).trans (bodyByte_invalid hlast hacc)
  -- `D_HDR` and `D_BODY`, the deadline and a failure
  · rw [step_readSide (State.reading.internal (.inl hp)) henv, ← emit_finish_env]
    exact otherMove_deadline_header hp
  · rw [step_readSide (State.reading.internal (.inr hp)) henv]
    exact otherMove_deadline_body hp
  · rw [step_readSide hp.internal henv, ← emit_finish_env]
    exact otherMove_readFails_reading hp
  -- `D_ACK` and `D_NACK`, the reply taken and a failure
  · rw [step_writeSide (State.replying.internal (.inl hp)) henv, ← emit_finish_env]
    exact otherMove_taken_ack hp
  · rw [step_writeSide (State.replying.internal (.inr hp)) henv, ← emit_finish_env]
    exact otherMove_taken_nack hp
  · rw [step_writeSide hp.internal henv, ← emit_finish_env]
    exact otherMove_writeFails_replying hp
  -- what is not enabled
  · exact (step_readSide hp.internal henv).trans (rxAnswer_of_replying sig hp)
  · exact (step_writeSide hp.internal henv).trans (txAnswer_of_reading sig hp)

end Sys2Proof.Machine
end

section
/-! PROOFS. `DEC` to its end: the frame that is accepted, and each way in which it is not (43_decode.md R208 to R225). -/

namespace Sys2Proof.Machine

variable {c : Params}

section
variable {s : State} {b l : Byte} {got more : List Byte} {env : List Move}

/-! ### The answers that end `DEC`, or call for its NACK -/

theorem runCommand_headerDeadline (hp : s.phase = .dHdr) (henv : s.env = .deadline :: env) :
    runCommand s c = .next (headerTimeout { s with env := env }) := by
  rw [runCommand_of_answer (by simp [hp]) (State.reading.internal (.inl hp)) henv (.inr ⟨_, rfl⟩),
    otherMove_deadline_header (by exact hp)]
  exact runCommand_of_idle rfl

theorem runCommand_bodyDeadline (hp : s.phase = .dBody) (henv : s.env = .deadline :: env) :
    runCommand s c = runCommand (bodyTimeout { s with env := env }) c := by
  rw [runCommand_of_answer (by simp [hp]) (State.reading.internal (.inr hp)) henv (.inr ⟨_, rfl⟩),
    otherMove_deadline_body (by exact hp), andThen_of_next]

theorem runCommand_readFails (hp : s.reading) (henv : s.env = .readFails :: env) :
    runCommand s c = .next (readFailed { s with env := env }) := by
  rw [runCommand_of_answer hp.ne_idle hp.internal henv (.inr ⟨_, rfl⟩), otherMove_readFails_reading (by exact hp)]
  exact runCommand_of_idle rfl

/-- The NACK byte is taken, and the command ends with the code pending (43_decode.md R218, R219). -/
theorem runCommand_nackTaken (hp : s.phase = .dNack) (henv : s.env = .taken :: env) :
    runCommand s c = .next ((State.emit { s with env := env } (.tx c.nackByte)).finish s.pend) := by
  rw [runCommand_of_answer (by simp [hp]) (State.replying.internal (.inr hp)) henv (.inl ⟨_, rfl⟩),
    otherMove_taken_nack (by exact hp)]
  exact runCommand_of_idle rfl

/-! ### The header (43_decode.md R206 to R212) -/

/-- The state after the bytes of `got`, at most one, have been taken in the header call. -/
def State.headerPart (s : State) (got more : List Byte) (env : List Move) : State :=
  { s.took got more env with acc := s.acc }

theorem runCommand_headerPart (hp : s.phase = .dHdr) (hpos : s.pos = 0#9) (hgot : got.length ≤ 1)
    (henv : s.env = List.replicate got.length .byteComes ++ env) (hstream : s.rxStream = got ++ more) :
    runCommand s c = runCommand (s.headerPart got more env) c := by
  match got, hgot with
  | [], _ =>
    obtain rfl : s.env = env := henv
    obtain rfl : s.rxStream = more := hstream
    rw [State.headerPart, State.took_nil]
  | [b], _ =>
    rw [runCommand_headerByte hp henv hstream, headerByte_first (by exact hpos), andThen_of_next]
    rfl

/-- The state after both bytes of the header, whatever they are. -/
def State.headerFull (s : State) (first l : Byte) (more : List Byte) (env : List Move) : State :=
  { s with
    mem := storeBytes s.mem (Space.rxbuf.base + 0) [first, l]
    len := l
    acc := s.acc ^^^ l
    pos := 2#9
    rxcnt := 2#9
    rxStream := more
    events := s.events ++ [.rx first, .rx l]
    env := env }

/-- The first byte stands where the block compares it. -/
theorem headerFull_marker (s : State) (first l : Byte) (more : List Byte) (env : List Move) :
    (s.headerFull first l more env).byte? .rxbuf 0 c = some first := by
  rw [byte?_storeBytes (s := s) (i := 0) (bs := [first, l]) (by simp) rfl]
  simp

theorem runCommand_headerFull {first : Byte} (hp : s.phase = .dHdr) (hpos : s.pos = 0#9) (hcnt : s.rxcnt = 0#9)
    (henv : s.env = .byteComes :: .byteComes :: env) (hstream : s.rxStream = first :: l :: more) :
    runCommand s c = andThen (headerComplete (s.headerFull first l more env) c) fun t => runCommand t c := by
  have hpos1 : s.pos + 1#9 = 1#9 := by rw [hpos]; rfl
  rw [runCommand_headerByte hp henv hstream, headerByte_first (by exact hpos), andThen_of_next,
    runCommand_headerByte (by exact hp) rfl rfl, headerByte_second (by exact hpos1)]
  simp [State.headerFull, storeBytes, received, hpos, hcnt]

/-- A wrong marker ends the command (43_decode.md R210). -/
theorem runCommand_wrongMarker {first : Byte} (hp : s.phase = .dHdr) (hpos : s.pos = 0#9) (hcnt : s.rxcnt = 0#9)
    (hne : first ≠ c.sof) (henv : s.env = .byteComes :: .byteComes :: env) (hstream : s.rxStream = first :: l :: more) :
    runCommand s c = .next ((s.headerFull first l more env).finish .invalidSof) := by
  rw [runCommand_headerFull hp hpos hcnt henv hstream, headerComplete_of_wrong_marker (headerFull_marker ..) hne]
  exact runCommand_of_idle rfl

/-- A length field of 0 calls for the NACK (43_decode.md R212). -/
theorem runCommand_lengthZero (hp : s.phase = .dHdr) (hpos : s.pos = 0#9) (hcnt : s.rxcnt = 0#9)
    (henv : s.env = .byteComes :: .byteComes :: env) (hstream : s.rxStream = c.sof :: 0#8 :: more) :
    runCommand s c = runCommand { s.headerFull c.sof 0#8 more env with pend := .invalidCrc, phase := .dNack } c := by
  rw [runCommand_headerFull hp hpos hcnt henv hstream, headerComplete_of_length_zero (headerFull_marker ..) (by rfl),
    andThen_of_next]

/-! ### The body (43_decode.md R214 to R218) -/

/-- The state in the body call of a frame with length field `l`, after the body bytes `got` have been taken and folded. -/
def State.bodyTaken (s : State) (l : Byte) (got more : List Byte) (env : List Move) (c : Params := Config.hw) : State :=
  { s with
    mem := storeBytes s.mem (Space.rxbuf.base + 0) (c.sof :: l :: got)
    len := l
    acc := foldBytes (s.acc ^^^ l) got
    pos := BitVec.ofNat 9 (got.length + 2)
    rxcnt := BitVec.ofNat 9 (got.length + 2)
    phase := .dBody
    rxStream := more
    events := s.events ++ ([.rx c.sof, .rx l, .arm l] ++ got.map Event.rx)
    env := env }

theorem headerTaken_took (s : State) (l : Byte) (got more more' : List Byte) (env env' : List Move) :
    (s.headerTaken l more' env' c).took got more env = s.bodyTaken l got more env c := by
  have hpos : 2#9 + BitVec.ofNat 9 got.length = BitVec.ofNat 9 (got.length + 2) := by
    rw [Nat.add_comm, BitVec.ofNat_add]
  simp [State.headerTaken, State.took, State.bodyTaken, storeBytes, hpos]

/-- A header and less of the body than the length field counts are taken. -/
theorem runCommand_bodyTaken (hp : s.phase = .dHdr) (hpos : s.pos = 0#9) (hcnt : s.rxcnt = 0#9) (hgot : got.length < l.toNat)
    (henv : s.env = List.replicate (got.length + 2) .byteComes ++ env) (hstream : s.rxStream = c.sof :: l :: (got ++ more)) :
    runCommand s c = runCommand (s.bodyTaken l got more env c) c := by
  have hl : l ≠ 0#8 := by
    rintro rfl
    exact Nat.not_lt_zero _ hgot
  rw [runCommand_header hp hpos hcnt hl henv hstream,
    runCommand_covered (bs := got) (more := more) (env := env) rfl ?_ rfl rfl, headerTaken_took]
  change 2 + got.length ≤ l.toNat + 1
  omega

theorem runCommand_badChecksum (hp : s.phase = .dBody) (hlast : s.pos.toNat = s.len.toNat + 1) (hne : s.acc ≠ b)
    (henv : s.env = .byteComes :: env) (hstream : s.rxStream = b :: more) :
    runCommand s c =
      runCommand { received { s with rxStream := more, env := env } b with pend := .invalidCrc, phase := .dNack } c := by
  rw [runCommand_bodyByte hp henv hstream, bodyByte_invalid (by exact hlast) (by exact hne), andThen_of_next]

/-- The state in which the NACK of a frame with the wrong last byte `b` is due: all bytes are stored, and `b` is not folded. -/
def State.badTaken (s : State) (l : Byte) (covered : List Byte) (b : Byte) (more : List Byte) (env : List Move)
    (c : Params := Config.hw) : State :=
  { s.bodyTaken l (covered ++ [b]) more env c with acc := foldBytes (s.acc ^^^ l) covered, pend := .invalidCrc, phase := .dNack }

/-- A last byte that differs from the accumulator calls for the NACK (43_decode.md R216). -/
theorem runCommand_badTaken {covered : List Byte} (hp : s.phase = .dHdr) (hpos : s.pos = 0#9) (hcnt : s.rxcnt = 0#9)
    (hlen : l.toNat = covered.length + 1) (hne : foldBytes (s.acc ^^^ l) covered ≠ b)
    (henv : s.env = List.replicate (covered.length + 3) .byteComes ++ env)
    (hstream : s.rxStream = c.sof :: l :: (covered ++ b :: more)) :
    runCommand s c = runCommand (s.badTaken l covered b more env c) c := by
  have hl := l.isLt
  have hoffset : (BitVec.ofNat 9 (covered.length + 2)).toNat = covered.length + 2 := by
    rw [BitVec.toNat_ofNat]
    omega
  have hplace : 1024 + (covered.length + 2) = 1026 + covered.length := by omega
  have hcount : BitVec.ofNat 9 (covered.length + 2) + 1#9 = BitVec.ofNat 9 (covered.length + 1 + 2) :=
    (BitVec.ofNat_add _ 1).symm
  rw [runCommand_bodyTaken (more := b :: more) (env := .byteComes :: env) hp hpos hcnt (by omega)
      (by rw [henv, List.replicate_succ', List.append_assoc, List.singleton_append]) hstream,
    runCommand_badChecksum (by rfl) ?_ (by exact hne) rfl rfl]
  · congr 1
    simp [received, State.bodyTaken, State.badTaken, hoffset, hplace, hcount, storeBytes, storeBytes_append]
  · exact hoffset.trans (congrArg (· + 1) hlen.symm)

/-! ### Where a run ends -/

/-- A run that has stored the bytes of `got` leaves them in `RXBUF`, and every other byte as it was. -/
theorem ends_with_stored {r : Result} {t : State} {P : State → Prop} (got : List Byte) (hrun : r = .next t)
    (hfit : got.length ≤ 257) (hmem : t.mem = storeBytes s.mem (Space.rxbuf.base + 0) got) (hrest : P t) :
    ∃ t, r = .next t ∧ t.bytes? .rxbuf 0 got.length c = some got ∧ sameBytesOutside s t .rxbuf 0 got.length c ∧ P t :=
  ⟨t, hrun, bytes?_storeBytes (by simpa using hfit) hmem, sameBytesOutside_storeBytes (by simpa using hfit) hmem, hrest⟩

theorem dec_word {w : CmdWord} (hcode : encode .dec = .command w) : w = commandWord 4#4 false 0#2 0#9 0#9 :=
  (Code.command.inj hcode).symm

theorem checksum_cons (bs : List Byte) : checksum (l :: bs) c = foldBytes (c.csumSeed ^^^ l) bs := rfl

end

/-! ### The statements -/

/-- Settles O29: the body is `validBody`, and `exec_dec_decoded` is the whole run. -/
theorem decAcceptsValidFrames : Obligations.DecAcceptsValidFrames := by
  intro s covered body more rest w hidle hlen hbody hstream henv hcode
  obtain rfl := dec_word hcode
  obtain rfl : body = validBody covered := hbody
  rw [length_validBody] at henv
  refine ends_with_stored (frameBytes (validBody covered)) (exec_dec_decoded hidle hlen hstream henv)
    (by simp [length_frameBytes]; omega) rfl ?_
  simp [State.decoded, State.decStarted, State.startDec, State.arm, State.emit, State.accept, Status.accepted_finished]

/-- Settles O30: the last byte is compared with the checksum of the length field and the bytes before it. -/
theorem decRejectsBadChecksums : Obligations.DecRejectsBadChecksums := by
  intro s covered body more b rest w hidle hlen hne hbody hstream henv hcode
  obtain rfl := dec_word hcode
  obtain rfl := hbody
  have hl : (BitVec.ofNat 8 (covered.length + 1)).toNat = covered.length + 1 := by
    rw [BitVec.toNat_ofNat]
    omega
  have hrun := exec_dec_started hidle
  rw [runCommand_badTaken (c := Config.hw) (s := s.decStarted) (l := BitVec.ofNat 8 (covered.length + 1)) (covered := covered)
      (b := b) (more := more) (env := .taken :: rest) rfl rfl rfl hl hne.symm (henv.trans (by simp))
      (hstream.trans (by simp [frameBytes])), runCommand_nackTaken rfl rfl] at hrun
  refine ends_with_stored (frameBytes (covered ++ [b])) hrun (by simp [length_frameBytes]; omega) ?_ ?_
  · rw [frameBytes, List.length_append]
    rfl
  · simp [State.badTaken, State.bodyTaken, State.finish, State.emit, decStarted_eq, Status.accepted_finished, checksum_cons]

/-- Settles O31: the header call ends full, and the NACK is next. -/
theorem decRejectsLengthZero : Obligations.DecRejectsLengthZero := by
  intro s more rest w hidle hstream henv hcode
  obtain rfl := dec_word hcode
  have hrun := exec_dec_started hidle
  rw [runCommand_lengthZero (c := Config.hw) (s := s.decStarted) rfl rfl rfl henv hstream, runCommand_nackTaken rfl rfl] at hrun
  refine ends_with_stored [0x01#8, 0x00#8] hrun (by simp) rfl ?_
  simp [State.headerFull, State.finish, State.emit, decStarted_eq, Status.accepted_finished]

/-- Settles O32: the header call takes the bytes of `got`, and the deadline ends it. -/
theorem decEndsOnAShortHeader : Obligations.DecEndsOnAShortHeader := by
  intro s got more rest w hidle hgot hstream henv hcode
  obtain rfl := dec_word hcode
  have hrun := exec_dec_started hidle
  rw [runCommand_headerPart (s := s.decStarted) rfl rfl hgot henv hstream, runCommand_headerDeadline rfl rfl] at hrun
  refine ends_with_stored got hrun (by omega) rfl ?_
  simp [headerTimeout, State.headerPart, State.took, State.finish, State.emit, decStarted_eq, Status.accepted_finished]

/-- Settles O33: the header call ends full, and the command with it. -/
theorem decRejectsWrongMarkers : Obligations.DecRejectsWrongMarkers := by
  intro s first second more rest w hidle hne hstream henv hcode
  obtain rfl := dec_word hcode
  have hrun := exec_dec_started hidle
  rw [runCommand_wrongMarker (s := s.decStarted) rfl rfl rfl hne henv hstream] at hrun
  refine ends_with_stored [first, second] hrun (by simp) rfl ?_
  simp [State.headerFull, State.finish, decStarted_eq, Status.accepted_finished]

/-- Settles O34: the body call takes the bytes of `got`, the deadline ends it, and the NACK is next. -/
theorem decEndsOnAShortBody : Obligations.DecEndsOnAShortBody := by
  intro s l got more rest w hidle hgot hstream henv hcode
  obtain rfl := dec_word hcode
  have := l.isLt
  have hrun := exec_dec_started hidle
  rw [runCommand_bodyTaken (c := Config.hw) (s := s.decStarted) rfl rfl rfl hgot henv hstream,
    runCommand_bodyDeadline rfl rfl, runCommand_nackTaken rfl rfl] at hrun
  refine ends_with_stored (0x01#8 :: l :: got) hrun (by simp; omega) rfl ?_
  simp [bodyTimeout, State.bodyTaken, State.finish, State.emit, decStarted_eq, Status.accepted_finished, checksum_cons]

/-- Settles O35: both read calls take the bytes of `got`, and the failure ends them alike. -/
theorem decEndsOnAReadFailure : Obligations.DecEndsOnAReadFailure := by
  constructor
  · intro s got more rest hidle hgot hstream henv
    have hrun := exec_dec_started hidle
    rw [runCommand_headerPart (s := s.decStarted) rfl rfl hgot henv hstream, runCommand_readFails (.inl rfl) rfl] at hrun
    refine ⟨_, hrun, rfl, rfl, rfl, ?_, rfl, ?_, rfl, bytes?_storeBytes (s := s) (i := 0) (by simp; omega) rfl, rfl⟩
    · simp [readFailed, State.headerPart, State.took, decStarted_eq]
    · simp [readFailed, State.headerPart, State.took, decStarted_eq, State.txStream, List.filterMap_append,
        List.filterMap_cons, Event.sent?]
  · intro s l got more rest hidle hgot hstream henv
    have := l.isLt
    have hrun := exec_dec_started hidle
    rw [runCommand_bodyTaken (c := Config.hw) (s := s.decStarted) rfl rfl rfl hgot henv hstream,
      runCommand_readFails (.inr rfl) rfl] at hrun
    refine ⟨_, hrun, rfl, rfl, rfl, rfl, rfl, ?_, rfl,
      bytes?_storeBytes (s := s) (i := 0) (bs := 0x01#8 :: l :: got) (by simp; omega) rfl, rfl⟩
    simp [readFailed, State.bodyTaken, decStarted_eq, State.txStream, List.filterMap_append, List.filterMap_cons,
      Event.sent?]

/-- A change of one byte changes the checksum alike, wherever the byte stands (40_checksum.md R132 (d)). -/
theorem checksum_set {xs : List Byte} {j : Nat} (hj : j < xs.length) (d : Byte) :
    checksum (xs.set j (xs[j] ^^^ d)) c = checksum xs c ^^^ d := by
  have hset : xs.set j (xs[j] ^^^ d) = xs.take j ++ (xs[j] ^^^ d) :: xs.drop (j + 1) := by
    rw [List.set_eq_take_append_cons_drop, if_pos hj]
  have hxs : xs = xs.take j ++ xs[j] :: xs.drop (j + 1) := by rw [List.getElem_cons_drop, List.take_append_drop]
  rw [hset, checksum_middle, ← BitVec.xor_assoc, ← checksum_middle, ← hxs]

/-- The checksum over a valid frame's length field and body is 0 (43_decode.md R225). -/
theorem checksum_validBody (covered : List Byte) :
    checksum (BitVec.ofNat 8 (covered.length + 1) :: validBody covered c) c = 0#8 := by
  rw [validBody, ← List.cons_append, checksum_append_single, BitVec.xor_self]

/-- Settles O39: the flipped bit changes the checksum over the length field and the body, so the last byte is wrong. -/
theorem singleBitFlipsAreCaught : Obligations.SingleBitFlipsAreCaught := by
  intro s covered body flipped more j k rest hidle hlen hbody hj hk hflip hstream henv
  obtain rfl : body = validBody covered := hbody
  have hlength : flipped.length = covered.length + 1 := by simp [hflip]
  obtain rfl | ⟨kept, b, rfl⟩ := List.eq_nil_or_concat' flipped
  · simp at hlength
  have hkept : kept.length = covered.length := by simpa using hlength
  have hchanged : checksum (BitVec.ofNat 8 (covered.length + 1) :: (kept ++ [b])) = 1#8 <<< k := by
    have hset := checksum_set (c := Config.hw) (xs := BitVec.ofNat 8 (covered.length + 1) :: validBody covered) (j := j + 1)
      (by simpa using hj) (1#8 <<< k)
    rw [checksum_validBody, BitVec.zero_xor] at hset
    rw [hflip]
    exact hset
  have hbit : 1#8 <<< k ≠ 0#8 := by
    intro hzero
    have hset : (1#8 <<< k).getLsbD k = false := by rw [hzero, BitVec.getLsbD_zero]
    simp [hk] at hset
  have hwrong : b ≠ checksum (BitVec.ofNat 8 (kept.length + 1) :: kept) := by
    rintro rfl
    rw [hkept, ← List.cons_append, checksum_append_single, BitVec.xor_self] at hchanged
    exact hbit hchanged.symm
  obtain ⟨t, hrun, _, _, hregs⟩ := decRejectsBadChecksums s kept _ more b rest _ hidle (by omega) hwrong rfl hstream
    (by rw [henv]; simp [hkept]) rfl
  refine ⟨t, hrun, ?_, ?_, ?_⟩
  · exact congrArg (·.status.busy) hregs
  · exact congrArg State.result hregs
  · refine (congrArg State.txStream hregs).trans ?_
    simp [State.txStream, List.filterMap_append, List.filterMap_cons, Event.sent?]

end Sys2Proof.Machine
end

section
/-! PROOFS. What `DEC` leaves unchanged, whatever the environment does, and that it sends its reply at most (43_decode.md R201,
R219). -/

namespace Sys2Proof.Machine

variable {c : Params}

/-! ### What `DEC` keeps -/

/-- The registers and the observations that `DEC` leaves alone. -/
def State.besideDec (s : State) : Byte × Nine × List HostObs := (s.seq, s.txlen, s.hostLog)

/-- `DEC` is in progress and has sent nothing, or has ended and has sent its reply at most. -/
inductive Replies (c : Params) (s t : State) : Prop
  | pending (hp : t.reading ∨ t.replying) (hsent : t.txStream = s.txStream)
  | failed (hp : t.phase = .idle) (hsent : t.txStream = s.txStream)
  | replied (hp : t.phase = .idle) (b : Byte) (hb : b = c.ackByte ∨ b = c.nackByte) (hsent : t.txStream = s.txStream ++ [b])

/-- `DEC` has changed of `s` only what it may. -/
structure DecKeeps (c : Params) (s t : State) : Prop where
  replies : Replies c s t
  beside : t.besideDec = s.besideDec
  bytes : sameBytesOutside s t .rxbuf 0 257 c

section
variable {s t u : State}

theorem besideDec_eq_iff : t.besideDec = s.besideDec ↔ t.seq = s.seq ∧ t.txlen = s.txlen ∧ t.hostLog = s.hostLog := by
  simp only [State.besideDec, Prod.mk.injEq]

/-- An event that carries no byte to the peer. -/
theorem txStream_emit (s : State) {e : Event} (hsent : e.sent? = none) : (s.emit e).txStream = s.txStream := by
  simp [State.txStream, hsent]

theorem txStream_sent (s : State) (b : Byte) : (s.emit (.tx b)).txStream = s.txStream ++ [b] := by
  simp [State.txStream, Event.sent?]

theorem txStream_finish (s : State) (code : ResultCode) : (s.finish code).txStream = s.txStream :=
  txStream_emit s (e := .done code) rfl

/-- While nothing has been sent, what follows is as if `DEC` had begun here. -/
theorem DecKeeps.trans (hst : DecKeeps c s t) (hsent : t.txStream = s.txStream) (htu : DecKeeps c t u) : DecKeeps c s u := by
  refine ⟨?_, htu.beside.trans hst.beside, sameBytesOutside_trans hst.bytes htu.bytes⟩
  cases htu.replies with
  | pending hp h => exact .pending hp (h.trans hsent)
  | failed hp h => exact .failed hp (h.trans hsent)
  | replied hp b hb h => exact .replied hp b hb (hsent ▸ h)

/-- The phase, the code pending and the header's registers are not among what is kept. -/
theorem DecKeeps.of_same (hp : t.reading ∨ t.replying) (hbeside : t.besideDec = s.besideDec) (hmem : t.mem = s.mem)
    (hsent : t.txStream = s.txStream) : DecKeeps c s t := ⟨.pending hp hsent, hbeside, sameBytesOutside_of_mem_eq hmem⟩

/-- `DEC` ends with nothing sent (43_decode.md R208, R210, R219, R220). -/
theorem DecKeeps.finish (hsent : t.txStream = s.txStream) (hbytes : sameBytesOutside s t .rxbuf 0 257 c)
    (hbeside : t.besideDec = s.besideDec) (code : ResultCode) : DecKeeps c s (t.finish code) :=
  ⟨.failed rfl ((txStream_finish t code).trans hsent), hbeside, hbytes⟩

/-- The reply is taken, and `DEC` ends (43_decode.md R217, R218). -/
theorem DecKeeps.reply (s : State) {b : Byte} (hb : b = c.ackByte ∨ b = c.nackByte) (code : ResultCode) :
    DecKeeps c s ((s.emit (.tx b)).finish code) :=
  ⟨.replied rfl b hb ((txStream_finish _ code).trans (txStream_sent s b)), rfl, sameBytesOutside_of_mem_eq rfl⟩

/-- A byte taken is stored in `RXBUF`. -/
theorem received_bytes (s : State) (b : Byte) (hpos : s.pos.toNat < 257) :
    sameBytesOutside s (received s b) .rxbuf 0 257 c :=
  sameBytesOutside_memStore (by simpa using hpos) (Nat.zero_le _) (by simpa using hpos) rfl

theorem received_txStream (s : State) (b : Byte) : (received s b).txStream = s.txStream :=
  txStream_emit s (e := .rx b) rfl

/-! ### Each answer of the transport -/

theorem txPut_decKeeps {sig : TxSignals} {b : Byte} (hp : s.replying) (hb : b = c.ackByte ∨ b = c.nackByte)
    (code : State → ResultCode) : DecKeeps c s (txPut sig b s fun u => u.finish (code u)) := by
  rcases txPut_cases sig b s fun u => u.finish (code u) with ⟨_, he⟩ | ⟨_, he⟩ | ⟨_, he⟩ <;> rw [he]
  · exact .reply s hb _
  · exact .finish (txStream_emit s rfl) (sameBytesOutside_of_mem_eq rfl) rfl .xfail
  · exact .of_same (.inr hp) rfl rfl rfl

theorem txAnswer_decKeeps {sig : TxSignals} (hp : s.reading ∨ s.replying) (h : txAnswer sig s c = .next t) :
    DecKeeps c s t := by
  have hphase : s.phase ≠ .tFrame ∧ s.phase ≠ .tCtrl := by
    obtain (hp | hp) | (hp | hp) := hp <;> simp [hp]
  rcases txAnswer_next h with ⟨hp', _⟩ | ⟨hp', _⟩ | ⟨hp', rfl⟩ | ⟨hp', rfl⟩ | ⟨_, _, _, _, rfl⟩
  · exact absurd hp' hphase.1
  · exact absurd hp' hphase.2
  · exact txPut_decKeeps (.inl hp') (.inl rfl) fun _ => .ok
  · exact txPut_decKeeps (.inr hp') (.inr rfl) State.pend
  · exact .of_same hp rfl rfl rfl

theorem headerByte_decKeeps {b : Byte} (hp : s.phase = .dHdr) (h : headerByte b s c = .next t) : DecKeeps c s t := by
  rcases headerByte_next h with ⟨hpos, rfl⟩ | ⟨hpos, h⟩
  · exact ⟨.pending (.inl (.inl hp)) (received_txStream s b), rfl, received_bytes s b (by simp [hpos])⟩
  · have hbytes : sameBytesOutside s (received s b) .rxbuf 0 257 c := received_bytes s b (by simp [hpos])
    have hsent := received_txStream s b
    obtain ⟨first, _, ⟨_, rfl⟩ | ⟨_, _, rfl⟩ | ⟨_, _, rfl⟩⟩ := headerComplete_next h
    · exact .finish (by exact hsent) (by exact hbytes) (by rfl) .invalidSof
    · exact ⟨.pending (.inr (.inr rfl)) hsent, rfl, hbytes⟩
    · exact ⟨.pending (.inl (.inr rfl)) ((txStream_emit _ (e := .arm b) rfl).trans hsent), rfl, hbytes⟩

theorem bodyByte_decKeeps {b : Byte} (hp : s.phase = .dBody) (h : bodyByte b s c = .next t) : DecKeeps c s t := by
  obtain ⟨hpos, hcases⟩ := bodyByte_next h
  have hbytes : sameBytesOutside s (received s b) .rxbuf 0 257 c := received_bytes s b hpos
  have hsent := received_txStream s b
  obtain ⟨_, rfl⟩ | ⟨_, _, rfl⟩ | ⟨_, _, rfl⟩ := hcases
  · exact ⟨.pending (.inl (.inr hp)) hsent, rfl, hbytes⟩
  · exact ⟨.pending (.inr (.inl rfl)) hsent, rfl, hbytes⟩
  · exact ⟨.pending (.inr (.inr rfl)) hsent, rfl, hbytes⟩

theorem rxAnswer_decKeeps {sig : RxSignals} (hp : s.reading ∨ s.replying) (h : rxAnswer sig s c = .next t) :
    DecKeeps c s t := by
  have popped (rest : List Byte) : DecKeeps c s { s with rxStream := rest } := .of_same hp rfl rfl rfl
  rcases rxAnswer_next h with rfl | ⟨_, rfl⟩ | ⟨_, rfl⟩ | ⟨_, rfl⟩ | ⟨hp', b, rest, _, h⟩ | ⟨hp', b, rest, _, h⟩
  · exact .of_same hp rfl rfl rfl
  · exact .finish (txStream_emit s rfl) (sameBytesOutside_of_mem_eq rfl) rfl .xfail
  · exact .finish (txStream_emit s rfl) (sameBytesOutside_of_mem_eq rfl) rfl .invalidSofSize
  · exact .of_same (.inr (.inr rfl)) rfl rfl (txStream_emit s (e := .timeout) rfl)
  · exact (popped rest).trans rfl (headerByte_decKeeps (s := { s with rxStream := rest }) hp' h)
  · exact (popped rest).trans rfl (bodyByte_decKeeps (s := { s with rxStream := rest }) hp' h)

/-! ### A transition, and the command -/

theorem tick_decKeeps (hp : s.reading ∨ s.replying) (h : tick s c = .next t) : DecKeeps c s t := by
  have hphase : s.phase ≠ .cRun ∧ s.phase ≠ .eRun := by
    obtain (hp | hp) | (hp | hp) := hp <;> simp [hp]
  have same (env : List Move) : DecKeeps c s { s with env := env } := .of_same hp rfl rfl rfl
  rcases tick_next h with ⟨hp', _⟩ | ⟨hp', _⟩ | ⟨env, rfl⟩ | ⟨sig, env, h⟩ | ⟨sig, env, h⟩ | ⟨bytes, env, rfl⟩
  · exact absurd hp' hphase.1
  · exact absurd hp' hphase.2
  · exact same env
  · exact (same env).trans rfl (txAnswer_decKeeps (s := { s with env := env }) hp h)
  · exact (same env).trans rfl (rxAnswer_decKeeps (s := { s with env := env }) hp h)
  · exact .of_same hp rfl rfl rfl

/-- A transition is made only while `DEC` is in progress, so nothing has been sent before it. -/
theorem runCommand_decKeeps (hp : s.reading) (h : runCommand s c = .next t) : DecKeeps c s t := by
  refine drive_keeps (P := DecKeeps c s) (fun u v hu hbusy hstep => ?_) _ (.of_same (.inl hp) rfl rfl rfl) h
  cases hu.replies with
  | pending hp hsent => exact hu.trans hsent (tick_decKeeps hp hstep)
  | failed hp _ => exact absurd hp hbusy
  | replied hp _ _ _ => exact absurd hp hbusy

theorem decStarted_txStream (s : State) : s.decStarted.txStream = s.txStream := by
  simp [decStarted_eq, State.txStream, List.filterMap_cons, Event.sent?]

end

/-- Settles O36: `DEC` is not taken, or runs and keeps the rest. -/
theorem decFrame : Obligations.DecFrame := by
  intro s t h
  cases hbusy : s.status.busy with
  | true =>
    have hsame : exec .dec s = .next s := (execDec_command Config.hw s).trans (command_of_busy hbusy)
    obtain rfl : s = t := Host.Outcome.next.inj (hsame.symm.trans h)
    exact ⟨rfl, rfl, rfl, sameBytesOutside_of_mem_eq rfl, .inl rfl⟩
  | false =>
    have hkeeps := runCommand_decKeeps (s := s.decStarted) (.inl rfl) ((exec_dec_started hbusy).symm.trans h)
    obtain ⟨hseq, htxlen, hlog⟩ := besideDec_eq_iff.mp hkeeps.beside
    have hsent := decStarted_txStream s
    refine ⟨hseq, htxlen, hlog, hkeeps.bytes, ?_⟩
    cases hkeeps.replies with
    | pending _ h => exact .inl (h.trans hsent)
    | failed _ h => exact .inl (h.trans hsent)
    | replied _ b hb h =>
      rw [hsent] at h
      obtain rfl | rfl := hb
      · exact .inr (.inl h)
      · exact .inr (.inr h)

end Sys2Proof.Machine
end

section
/-! PROOFS. The host port: what a host read and a host write answer at each address of the map, idle and busy
(20_memory.md R67; 44_host_access.md R240 to R246). -/

namespace Sys2Proof.Machine

variable {c : Params}

/-! ### Zero extension (44_host_access.md R240) -/

theorem setWidth_eq_zero_append {w : Nat} (k : Nat) (x : BitVec w) : x.setWidth (k + w) = 0#k ++ x := by
  apply BitVec.eq_of_toNat_eq
  rw [BitVec.toNat_setWidth_of_le (Nat.le_add_left w k)]
  simp

/-- `STATUS` reads as its flags, bit by bit (44_host_access.md R241). -/
theorem Status.word_setWidth (st : Status) : st.word.setWidth 16 =
    0#12 ++ BitVec.ofBool st.xerr ++ BitVec.ofBool st.cmderr ++ BitVec.ofBool st.done ++ BitVec.ofBool st.busy := by
  obtain ⟨busy, done, cmderr, xerr⟩ := st
  revert busy done cmderr xerr
  decide

/-! ### The address map (20_memory.md R67) -/

/-- The registers are the addresses up to 8. -/
theorem registerAt_eq_none_iff {s : State} {a : Nat} : registerAt s a = none ↔ 8 < a := by
  constructor
  · contrapose!
    intro ha
    interval_cases a <;> simp [registerAt]
  · intro ha
    obtain ⟨k, rfl⟩ := Nat.exists_eq_add_of_le' (Nat.succ_le_of_lt ha)
    rfl

/-- No memory lies among the registers. -/
theorem Space.lt_base (sp : Space) : 8 < sp.base := by cases sp <;> decide

theorem byteAt_eq_some_iff {a i : Nat} {sp : Space} : byteAt a c = some (sp, i) ↔ i < sp.size c ∧ a = sp.base + i := by
  constructor
  · intro h
    refine ⟨lt_size_of_byteAt h, ?_⟩
    unfold byteAt at h
    split_ifs at h <;> (obtain ⟨rfl, rfl⟩ := Prod.mk.inj (Option.some.inj h); omega)
  · rintro ⟨hi, rfl⟩
    exact byteAt_base sp i hi

/-- An address has no byte when it lies outside each memory's range. -/
theorem byteAt_eq_none_iff {a : Nat} : byteAt a c = none ↔ ∀ sp : Space, ¬ (sp.base ≤ a ∧ a < sp.base + sp.size c) := by
  simp only [Option.eq_none_iff_forall_ne_some, Prod.forall, ne_eq, byteAt_eq_some_iff]
  refine forall_congr' fun sp => ⟨fun h ⟨hlo, hhi⟩ => h (a - sp.base) (by omega), fun h i ⟨hi, ha⟩ => h (by omega)⟩

/-- An address outside the range of `PAY` is no byte of it. -/
theorem byteAt_ne_pay {a : Nat} (h : a < Space.pay.base ∨ Space.pay.base + Space.pay.size c ≤ a) (j : Nat) :
    byteAt a c ≠ some (.pay, j) := fun hj => by
  obtain ⟨hlt, rfl⟩ := byteAt_eq_some_iff.mp hj
  omega

/-! ### A host read -/

section
variable {s : State} {a : HostAddr} {rest : List Move}

theorem step_hread (henv : s.env = .hread a :: rest) : step s = hostRead a { s with env := rest } := by
  rw [step, stepVia, henv]

/-- A register is read while idle, `STATUS` and `RESULT` at any time (44_host_access.md R241, R245). -/
theorem hostRead_register {v : HostData} (hreg : registerAt s a.toNat = some v)
    (hreadable : s.status.busy = false ∨ a.toNat ≤ 1) : hostRead a s c = .next (s.observe (.readData a v)) := by
  rcases hreadable with h | h <;> simp [hostRead, hreg, readableBusy, h]

/-- A memory byte is read while idle (44_host_access.md R242). -/
theorem hostRead_byte {sp : Space} {i : Nat} (hidle : s.status.busy = false) (hi : i < sp.size c) (ha : a.toNat = sp.base + i) :
    hostRead a s c = s.withByte sp i (fun b => .next (s.observe (.readData a (0#8 ++ b)))) c := by
  have hreg : registerAt s a.toNat = none := registerAt_eq_none_iff.mpr (ha ▸ Nat.lt_add_right i sp.lt_base)
  have hbyte : byteAt a.toNat c = some (sp, i) := byteAt_eq_some_iff.mpr ⟨hi, ha⟩
  simp [hostRead, hreg, hbyte, hidle, setWidth_eq_zero_append 8]

/-- An unmapped address is refused, idle or busy (44_host_access.md R246). -/
theorem hostRead_unmapped (hreg : 8 < a.toNat) (hbyte : byteAt a.toNat c = none) :
    hostRead a s c = .next (s.observe (.accessErr a)) := by
  simp [hostRead, registerAt_eq_none_iff.mpr hreg, hbyte]

/-- While busy a mapped address beyond `RESULT` has no value (44_host_access.md R245). -/
theorem hostRead_busy (hbusy : s.status.busy = true) (hbeyond : 1 < a.toNat)
    (hmapped : a.toNat ≤ 8 ∨ byteAt a.toNat c ≠ none) : hostRead a s c = .refused .busyHostRead := by
  unfold hostRead
  split
  · simp [hbusy, readableBusy, hbeyond]
  · simp [hbusy]
  · next hreg hbyte =>
    have hlt := registerAt_eq_none_iff.mp hreg
    exact absurd hbyte (hmapped.resolve_left (by omega))

end

/-! ### A host write -/

section
variable {s : State} {a : HostAddr} {d : HostData} {rest : List Move}

theorem step_hwrite (henv : s.env = .hwrite a d :: rest) : step s = hostWrite a d { s with env := rest } := by
  rw [step, stepVia, henv]

/-- The byte just written is the one read. -/
theorem byte?_of_stored {t : State} {sp : Space} {i : Nat} {b : Byte} (hi : i < sp.size c)
    (hmem : t.mem = memStore s.mem (sp.base + i) b) : t.byte? sp i c = some b := by
  rw [byte?_congr (s := { s with mem := memStore s.mem (sp.base + i) b }) hmem, byte?_memStore s sp sp i i b hi,
    if_pos ⟨rfl, rfl⟩]

/-- A byte of `PAY` is written while idle (44_host_access.md R243). -/
theorem hostWrite_pay {j : Nat} (hidle : s.status.busy = false) (hj : j < Space.pay.size c)
    (ha : a.toNat = Space.pay.base + j) :
    hostWrite a d s c =
      .next ({ s with mem := memStore s.mem (Space.pay.base + j) (d.setWidth 8) }.observe (.wrote a)) := by
  have hbyte : byteAt a.toNat c = some (.pay, j) := byteAt_eq_some_iff.mpr ⟨hj, ha⟩
  simp only [hostWrite, hbyte, hidle, Bool.false_eq_true, if_false]
  exact withStore_of_lt _ _ hj

/-- A write while busy, or of anything but `PAY`, is dropped (44_host_access.md R244, R246). -/
theorem hostWrite_refused (h : s.status.busy = true ∨ ∀ j, byteAt a.toNat c ≠ some (.pay, j)) :
    hostWrite a d s c = .next (s.observe (.accessErr a)) := by
  unfold hostWrite
  split
  · next j hj =>
    have hbusy : s.status.busy = true := h.resolve_right fun hne => hne j hj
    simp [hbusy]
  all_goals rfl

end

/-! ### The obligations -/

/-- Settles O45: the write finds the block busy or an address outside `PAY`, the read an address outside the map. -/
theorem refusedHostAccesses : Obligations.RefusedHostAccesses := by
  rintro s a d rest (⟨henv, hbusy, _, _⟩ | ⟨henv, hrange⟩ | ⟨henv, hrange⟩)
  · exact (step_hwrite henv).trans (hostWrite_refused (.inl hbusy))
  · have houtside : a.toNat < Space.pay.base ∨ Space.pay.base + Space.pay.size Config.hw ≤ a.toNat := by simp; omega
    exact (step_hwrite henv).trans (hostWrite_refused (.inr (byteAt_ne_pay houtside)))
  · have hunmapped : byteAt a.toNat Config.hw = none := byteAt_eq_none_iff.mpr fun sp => by cases sp <;> simp <;> omega
    exact (step_hread henv).trans (hostRead_unmapped (by omega) hunmapped)

/-- Settles O42: the register at each of the nine addresses is the row's value, and a read adds an observation alone. -/
theorem hostReadsRegisters : Obligations.HostReadsRegisters := by
  intro s a v rest hidle henv hrow
  have hreg : registerAt s a.toNat = some v := by
    simp only [List.mem_cons, List.not_mem_nil, or_false, Prod.mk.injEq] at hrow
    obtain ⟨ha, rfl⟩ | ⟨ha, rfl⟩ | ⟨ha, rfl⟩ | ⟨ha, rfl⟩ | ⟨ha, rfl⟩ | ⟨ha, rfl⟩ | ⟨ha, rfl⟩ | ⟨ha, rfl⟩ |
      ⟨ha, rfl⟩ := hrow <;> rw [ha]
    · exact congrArg some s.status.word_setWidth
    all_goals exact congrArg some (setWidth_eq_zero_append _ _)
  exact (step_hread henv).trans (hostRead_register hreg (.inl hidle))

/-- Settles O43: the address is that byte's, which is read if it has a value. -/
theorem hostReadsBytes : Obligations.HostReadsBytes := by
  intro s sp i a rest hidle henv hi ha
  have hread := (step_hread henv).trans (hostRead_byte hidle hi ha)
  cases hbyte : s.byte? sp i with
  | some b => exact hread.trans (withByte_of_byte? _ hbyte)
  | none => exact hread.trans (withByte_unwritten _ hi hbyte)

/-- Settles O44: the write is the store of one byte of `PAY` and an observation. -/
theorem hostWritesPayload : Obligations.HostWritesPayload := by
  intro s j a d rest hidle henv hj ha
  have hlt : j < Space.pay.size := by simp; omega
  refine ⟨_, (step_hwrite henv).trans (hostWrite_pay hidle hlt ha), ?_,
    sameBytesOutside_memStore hlt le_rfl (Nat.lt_succ_self j) rfl, rfl⟩
  rw [← BitVec.setWidth_eq_extractLsb' (by decide)]
  exact byte?_of_stored (s := s) hlt rfl

/-- Settles O46: `STATUS` and `RESULT` are registers readable at any time, and the other ranges are mapped. -/
theorem busyHostReads : Obligations.BusyHostReads := by
  intro s a rest hbusy henv
  rw [step_hread henv]
  refine ⟨?_, ?_, fun hrange => ?_⟩
  · rintro rfl
    rw [← setWidth_eq_zero_append 12 s.status.word]
    exact hostRead_register rfl (.inr (by decide))
  · rintro rfl
    rw [← setWidth_eq_zero_append 8 s.result.byte]
    exact hostRead_register rfl (.inr (by decide))
  · have hmapped : a.toNat ≤ 8 ∨ byteAt a.toNat Config.hw ≠ none := by
      rw [ne_eq, byteAt_eq_none_iff, not_forall_not]
      obtain ⟨_, h⟩ | h | h | h := hrange
      · exact .inl h
      · exact .inr ⟨.pay, by simp; omega⟩
      · exact .inr ⟨.txbuf, by simp; omega⟩
      · exact .inr ⟨.rxbuf, by simp; omega⟩
    exact hostRead_busy hbusy (by omega) hmapped

end Sys2Proof.Machine
end

section
/-! PROOFS. The ACK wait, as a move of the host and inside a call, and what a call that returns `NOACK` has had accepted
(45_host_exchange.md R270, R271). -/

namespace Sys2Proof.Machine

variable {c : Params}

/-! ### The ACK wait (45_host_exchange.md R270) -/

section
variable {s t : State}

theorem readAnswer_byteComes (b : Byte) (more : List Byte) : readAnswer ⟨true, false, false⟩ (b :: more) = .byte b more := rfl

theorem readAnswer_readFails (stream : List Byte) : readAnswer ⟨false, false, true⟩ stream = .error := rfl

theorem step_ackWait {sig : RxSignals} {rest : List Move} (henv : s.env = .ackWait sig :: rest) :
    step s = awaitAck sig { s with env := rest } := by
  rw [step, stepVia, henv]

/-- A byte that comes ends the wait, whatever it is. -/
theorem awaitAck_byteComes {b : Byte} {more : List Byte} (hidle : s.status.busy = false) (hstream : s.rxStream = b :: more) :
    awaitAck ⟨true, false, false⟩ s c = .next (State.observe { s with rxStream := more } (.ackWait (ackOutcome b c))) := by
  simp [awaitAck, hidle, hstream, readAnswer_byteComes]

theorem awaitAck_deadline (hidle : s.status.busy = false) :
    awaitAck ⟨false, true, false⟩ s c = .next (s.observe (.ackWait .noack)) := by
  simp [awaitAck, hidle, readAnswer_deadline]

theorem awaitAck_readFails (hidle : s.status.busy = false) :
    awaitAck ⟨false, false, true⟩ s c = .next (s.observe (.ackWait .xfail)) := by
  simp [awaitAck, hidle, readAnswer_readFails]

/-- Settles O47: the byte that comes, the deadline and the failure each end the wait with their own outcome. -/
theorem ackWaitOutcomes : Obligations.AckWaitOutcomes := fun _ _ _ _ hidle =>
  ⟨fun hstream henv => (step_ackWait henv).trans (awaitAck_byteComes hidle hstream),
    fun henv => (step_ackWait henv).trans (awaitAck_deadline hidle),
    fun henv => (step_ackWait henv).trans (awaitAck_readFails hidle)⟩

/-- The ACK wait inside a call changes the stream and the moves at most. -/
theorem ackWaitIn_next {moves : List Move} {code : ResultCode} (h : ackWaitIn moves s c = some (code, t)) :
    ∃ stream env, t = { s with rxStream := stream, env := env } := by
  induction moves generalizing s with
  | nil => cases h
  | cons m moves ih =>
    cases m with
    | wire bytes =>
      obtain ⟨stream, env, rfl⟩ := ih h
      exact ⟨stream, env, rfl⟩
    | ackWait sig =>
      rw [ackWaitIn] at h
      split at h
      · next b left _ => exact ⟨left, moves, (Prod.mk.inj (Option.some.inj h)).2.symm⟩
      · exact ⟨s.rxStream, moves, (Prod.mk.inj (Option.some.inj h)).2.symm⟩
      · exact ⟨s.rxStream, moves, (Prod.mk.inj (Option.some.inj h)).2.symm⟩
      · exact ih h
    | wait | run | tx | rx => exact ih h
    | present | hread | hwrite | reset => cases h

end

/-! ### The words accepted on the way from one state to another -/

/-- The events of `t` are those of `s` and more, and every command word accepted in between has `p`. -/
def AcceptsOnly (p : CmdWord → Prop) (s t : State) : Prop :=
  ∃ mid, t.events = s.events ++ mid ∧ ∀ w, Event.cmd w ∈ mid → p w

section
variable {p : CmdWord → Prop} {s t u : State}

theorem AcceptsOnly.of_same (h : t.events = s.events) : AcceptsOnly p s t := ⟨[], by simp [h], by simp⟩

theorem AcceptsOnly.trans (hst : AcceptsOnly p s t) (htu : AcceptsOnly p t u) : AcceptsOnly p s u := by
  obtain ⟨mid, ht, hmid⟩ := hst
  obtain ⟨mid', hu, hmid'⟩ := htu
  exact ⟨mid ++ mid', by rw [hu, ht, List.append_assoc], fun w hw => (List.mem_append.mp hw).elim (hmid w) (hmid' w)⟩

/-- An event that is no acceptance. -/
theorem AcceptsOnly.emit (s : State) {e : Event} (he : e.accepted? = none) : AcceptsOnly p s (s.emit e) := by
  refine ⟨[e], rfl, fun w hw => ?_⟩
  obtain rfl := List.mem_singleton.mp hw
  cases he

theorem AcceptsOnly.finish (h : AcceptsOnly p s t) (code : ResultCode) : AcceptsOnly p s (t.finish code) :=
  h.trans (.emit t (e := .done code) rfl)

theorem AcceptsOnly.received (s : State) (b : Byte) : AcceptsOnly p s (received s b) := .emit s (e := .rx b) rfl

theorem AcceptsOnly.drop (h : AcceptsOnly p s t) {w : CmdWord} (hw : Event.cmd w ∈ t.events.drop s.events.length) : p w := by
  obtain ⟨mid, ht, hmid⟩ := h
  rw [ht, List.drop_left] at hw
  exact hmid w hw

/-! ### No transition of a command accepts a word -/

theorem csumStep_acceptsOnly (h : csumStep s c = .next t) : AcceptsOnly p s t := by
  rcases csumStep_next h with ⟨_, _, _, _, _, rfl⟩ | ⟨_, rfl⟩
  · exact .of_same rfl
  · exact .finish (.of_same rfl) .ok

theorem encStep_acceptsOnly (h : encStep s c = .next t) : AcceptsOnly p s t := by
  obtain ⟨_, ⟨_, rfl⟩ | ⟨_, rfl⟩ | ⟨_, rfl⟩ | ⟨_, v, _, rfl⟩ | ⟨_, rfl⟩ | ⟨_, rfl⟩⟩ := encStep_next h
  case inr.inr.inr.inr.inr => exact .finish (.of_same rfl) .ok
  all_goals exact .of_same rfl

theorem txPut_acceptsOnly {sig : TxSignals} {b : Byte} {onSent : State → State} (hsent : ∀ u, AcceptsOnly p u (onSent u)) :
    AcceptsOnly p s (txPut sig b s onSent) := by
  rcases txPut_cases sig b s onSent with ⟨_, he⟩ | ⟨_, he⟩ | ⟨_, he⟩ <;> rw [he]
  · exact (AcceptsOnly.emit s rfl).trans (hsent _)
  · exact (AcceptsOnly.emit s rfl).finish .xfail
  · exact .of_same rfl

theorem frameByteSent_acceptsOnly (s : State) : AcceptsOnly p s (frameByteSent s) := by
  rcases frameByteSent_cases s with ⟨_, he⟩ | ⟨_, he⟩ <;> rw [he]
  · exact .finish (.of_same rfl) .ok
  · exact .of_same rfl

theorem txAnswer_acceptsOnly {sig : TxSignals} (h : txAnswer sig s c = .next t) : AcceptsOnly p s t := by
  rcases txAnswer_next h with ⟨_, _, _, rfl⟩ | ⟨_, rfl⟩ | ⟨_, rfl⟩ | ⟨_, rfl⟩ | ⟨_, _, _, _, rfl⟩
  · exact txPut_acceptsOnly frameByteSent_acceptsOnly
  · exact txPut_acceptsOnly fun u => .finish (.of_same rfl) .ok
  · exact txPut_acceptsOnly fun u => .finish (.of_same rfl) .ok
  · exact txPut_acceptsOnly fun u => .finish (.of_same rfl) u.pend
  · exact .of_same rfl

theorem headerByte_acceptsOnly {b : Byte} (h : headerByte b s c = .next t) : AcceptsOnly p s t := by
  rcases headerByte_next h with ⟨_, rfl⟩ | ⟨_, h⟩
  · exact .received s b
  · refine AcceptsOnly.trans (.received s b) ?_
    obtain ⟨_, _, ⟨_, rfl⟩ | ⟨_, _, rfl⟩ | ⟨_, _, rfl⟩⟩ := headerComplete_next h
    · exact .finish (.of_same rfl) .invalidSof
    · exact .of_same rfl
    · exact .emit (received s b) (e := .arm b) rfl

theorem bodyByte_acceptsOnly {b : Byte} (h : bodyByte b s c = .next t) : AcceptsOnly p s t := by
  obtain ⟨_, ⟨_, rfl⟩ | ⟨_, _, rfl⟩ | ⟨_, _, rfl⟩⟩ := bodyByte_next h <;> exact .emit s (e := .rx b) rfl

theorem rxAnswer_acceptsOnly {sig : RxSignals} (h : rxAnswer sig s c = .next t) : AcceptsOnly p s t := by
  rcases rxAnswer_next h with rfl | ⟨_, rfl⟩ | ⟨_, rfl⟩ | ⟨_, rfl⟩ | ⟨_, b, rest, _, h⟩ | ⟨_, b, rest, _, h⟩
  · exact .of_same rfl
  · exact .finish (.emit s rfl) .xfail
  · exact .finish (.emit s rfl) .invalidSofSize
  · exact .emit s (e := .timeout) rfl
  · exact headerByte_acceptsOnly (s := { s with rxStream := rest }) h
  · exact bodyByte_acceptsOnly (s := { s with rxStream := rest }) h

theorem acceptsOnly_kept (s : State) : KeptByTransitions c (AcceptsOnly p s) :=
  .of_parts
    (outside := fun hs h => hs.trans (by cases h; exact .of_same rfl))
    (csum := fun hs _ h => hs.trans (csumStep_acceptsOnly h))
    (enc := fun hs _ h => hs.trans (encStep_acceptsOnly h))
    (tx := fun hs h => hs.trans (txAnswer_acceptsOnly h))
    (rx := fun hs h => hs.trans (rxAnswer_acceptsOnly h))

/-! ### The parts of a call -/

/-- A command whose first-step effects are no events accepts its own word at most. -/
theorem command_acceptsOnly {w : CmdWord} {legal : State → Bool} {start : State → State}
    (h : command w legal start s c = .next t) (hw : p w) (hstart : ∀ u, (start u).events = u.events) : AcceptsOnly p s t := by
  have accepted : AcceptsOnly p s (s.accept w) := ⟨[.cmd w], rfl, by simpa using hw⟩
  rcases command_next h with ⟨_, rfl⟩ | ⟨_, _, rfl⟩ | ⟨_, _, hrun⟩
  · exact .of_same rfl
  · exact .emit s (e := .cmderr w) rfl
  · exact (acceptsOnly_kept s).run (accepted.trans (.of_same (hstart _))) hrun

theorem hostWrite_acceptsOnly {a : HostAddr} {d : HostData} (h : hostWrite a d s c = .next t) : AcceptsOnly p s t := by
  rcases hostWrite_next h with ⟨_, _, _, _, rfl⟩ | rfl <;> exact .of_same rfl

theorem writePayload_acceptsOnly {payload : List Byte} {j : Nat} (h : writePayload payload j s c = .next t) :
    AcceptsOnly p s t := by
  induction payload generalizing s j with
  | nil => exact Host.Outcome.next.inj h ▸ .of_same rfl
  | cons b bs ih =>
    obtain ⟨u, hu, ht⟩ := andThen_next h
    exact (hostWrite_acceptsOnly hu).trans (ih ht)

/-- A call that returns has come through `WAIT`. -/
theorem whenDone_returned {r : Result} {k : State → CallResult} {bytes : List Byte} {code : ResultCode}
    (h : whenDone r k = .next (t, .returned bytes code)) : ∃ s, r = .next s ∧ s.status.done = true ∧
      k s = .next (t, .returned bytes code) := by
  obtain ⟨s, hs, ⟨hdone, hk⟩ | ⟨_, hwaits⟩⟩ := whenDone_next h
  · exact ⟨s, hs, hdone, hk⟩
  · cases (Prod.mk.inj hwaits).2

/-- A call that returns has had no word accepted before its ACK wait but those of `ENC` or `ENC.S` and of `SEND`. -/
theorem sendFrame_returned {payload : List Byte} {seq : Bool} {k : State → CallResult} {bytes : List Byte}
    {code : ResultCode} (henc : ∀ n, p (commandWord 2#4 seq 0#2 0#9 n)) (hsend : p (commandWord 3#4 false 0#2 0#9 0#9))
    (h : sendFrame payload seq s k c = .next (t, .returned bytes code)) :
    ∃ u, AcceptsOnly p s u ∧ k u = .next (t, .returned bytes code) := by
  by_cases hlong : 2 ^ 9 ≤ payload.length
  · rw [sendFrame, if_pos hlong] at h
    cases h
  rw [sendFrame, if_neg hlong] at h
  obtain ⟨s1, hpay, h⟩ := callThen_next h
  obtain ⟨s2, hbuild, _, h⟩ := whenDone_returned h
  obtain ⟨s3, hsent, _, hk⟩ := whenDone_returned h
  have built : AcceptsOnly p s1 s2 := by
    cases seq
    · exact command_acceptsOnly ((execEnc_command c s1 _).symm.trans hbuild) (henc _) fun _ => rfl
    · exact command_acceptsOnly ((execEncS_command c s1 _).symm.trans hbuild) (henc _) fun _ => rfl
  have sent : AcceptsOnly p s2 s3 := command_acceptsOnly ((execSend_command c s2).symm.trans hsent) hsend fun _ => rfl
  exact ⟨s3, ((writePayload_acceptsOnly hpay).trans built).trans sent, hk⟩

end

/-! ### `DEC` never ends with `NOACK` (10_state.md R28) -/

/-- The code pending is one of the block's, and so is the code of a command that has ended. -/
def State.endsWithBlockCode (s : State) : Prop :=
  s.pend.ofBlock = true ∧ (s.status.done = true → s.result.ofBlock = true)

section
variable {s t : State}

theorem endsWithBlockCode_progress (hs : s.endsWithBlockCode) (h : Progress s t) : t.endsWithBlockCode := by
  obtain ⟨hpend, hresult⟩ := hs
  rcases h with h | h
  · exact ⟨h.pend.elim (· ▸ hpend) id, h.status ▸ h.result ▸ hresult⟩
  · exact ⟨h.pend ▸ hpend, fun _ => h.result.elim (· ▸ hpend) id⟩

theorem endsWithBlockCode_kept : KeptByTransitions c State.endsWithBlockCode := .of_progress endsWithBlockCode_progress

/-- `DEC` on a busy block is not taken; taken, it ends with a code of the block, if it ends. -/
theorem execDec_next (h : execDec s c = .next t) : t = s ∨ (t.status.done = true → t.result.ofBlock = true) := by
  rcases command_next ((execDec_command c s).symm.trans h) with ⟨_, ht⟩ | ⟨_, hlegal, _⟩ | ⟨_, _, hrun⟩
  · exact .inl ht
  · cases hlegal
  · obtain ⟨_, hresult⟩ := endsWithBlockCode_kept.run ⟨rfl, (Bool.noConfusion ·)⟩ hrun
    exact .inr hresult

/-- A call that ends in `DEC` returns `NOACK` only where the block was busy and the word was not taken. -/
theorem receiveNextPushedFrame_noack {bytes : List Byte} (h : receiveNextPushedFrame s c = .next (t, .returned bytes .noack)) :
    t = s := by
  obtain ⟨u, hexec, hdone, h⟩ := whenDone_returned h
  split_ifs at h with hok
  · split at h <;> cases h
  · obtain ⟨rfl, hret⟩ := Prod.mk.inj (Host.Outcome.next.inj h)
    rcases execDec_next hexec with ht | hcode
    · exact ht
    · have hnoack : u.result = .noack := (CallReturn.returned.inj hret).2
      have hblock := hcode hdone
      rw [hnoack] at hblock
      cases hblock

/-- An ACK wait that ends the call leaves the block as it is, and so does an untaken `DEC` behind it. -/
theorem whenAcked_noack {bytes : List Byte}
    (h : whenAcked s (fun u => receiveNextPushedFrame u c) c = .next (t, .returned bytes .noack)) : t.events = s.events := by
  rcases whenAcked_next h with ⟨_, hwaits⟩ | ⟨u, hack, h⟩ | ⟨code, u, hack, _, hret⟩
  · cases (Prod.mk.inj hwaits).2
  · obtain ⟨_, _, hu⟩ := ackWaitIn_next hack
    rw [receiveNextPushedFrame_noack h, hu]
  · obtain ⟨_, _, rfl⟩ := ackWaitIn_next hack
    obtain ⟨rfl, _⟩ := Prod.mk.inj hret
    rfl

end

/-- A word whose opcode is not that of `DEC`. -/
theorem ne_decWord_of_opField {w : CmdWord} (h : opField w ≠ 4#4) : w ≠ 0x40000000#32 := fun hw => h (hw ▸ rfl)

/-- Settles O48: before the ACK wait only `ENC` or `ENC.S` and `SEND` are accepted, and a `DEC` that is taken never leaves
`NOACK`. -/
theorem noDecodeAfterNoack : Obligations.NoDecodeAfterNoack := by
  intro payload seq s t h
  have accepts : AcceptsOnly (· ≠ 0x40000000#32) s t := by
    unfold sendCommandAwaitResponse at h
    split_ifs at h
    · exact receiveNextPushedFrame_noack h ▸ .of_same rfl
    · obtain ⟨u, hsent, h⟩ := sendFrame_returned (p := (· ≠ 0x40000000#32)) (fun n => ne_decWord_of_opField (by simp))
        (ne_decWord_of_opField (by simp)) h
      exact hsent.trans (.of_same (whenAcked_noack h))
  rintro e he rfl
  exact accepts.drop he rfl

end Sys2Proof.Machine
end

section
/-! PROOFS. A whole exchange: the payload written, the frame built and sent, the ACK taken, the response decoded and returned
(45_host_exchange.md R270, R273). -/

namespace Sys2Proof.Machine

variable {c : Params}

/-! ### The payload (44_host_access.md R243) -/

/-- The state after the host has written `payload` to `PAY` from index `j` on, and has observed `log` in all. -/
def State.withPayload (s : State) (payload : List Byte) (j : Nat) (log : List HostObs) : State :=
  { s with mem := storeBytes s.mem (Space.pay.base + j) payload, hostLog := log }

/-- On an idle block the host's writes store the payload, and add observations alone. -/
theorem writePayload_of_idle {s : State} {payload : List Byte} {j : Nat} (hidle : s.status.busy = false)
    (hfit : j + payload.length ≤ Space.pay.size c) :
    ∃ log, writePayload payload j s c = .next (s.withPayload payload j log) := by
  induction payload generalizing s j with
  | nil => exact ⟨s.hostLog, rfl⟩
  | cons b bs ih =>
    rw [List.length_cons] at hfit
    have hsmall := c.maxPayload_le
    have haddr : (BitVec.ofNat 12 (Space.pay.base + j)).toNat = Space.pay.base + j := by
      simp only [Space.size_pay] at hfit
      rw [BitVec.toNat_ofNat, Space.base_pay]
      omega
    have hlow : (b.setWidth 16).setWidth 8 = b := BitVec.setWidth_setWidth_of_le b (by decide)
    rw [writePayload, hostWrite_pay hidle (by omega) haddr, hlow, andThen_of_next]
    exact ih hidle (by omega)

/-! ### The frame built and sent (45_host_exchange.md R273) -/

/-- `s` has become `t` by building and sending the frame of `payload`, when the moves `env` are left. -/
structure FrameSent (s : State) (payload : List Byte) (seq : Bool) (env : List Move) (t : State) : Prop where
  idle : t.status.busy = false
  env : t.env = env
  rxStream : t.rxStream = s.rxStream
  txStream : t.txStream = s.txStream ++ outboundFrame payload seq s.seq
  counter : t.seq = nextSeq seq s.seq

section
variable {s : State} {payload : List Byte} {seq : Bool} {env : List Move}

/-- `SEND` behind `ENC` or `ENC.S` hands over the frame that was built. -/
theorem exec_send_of_built {n : Nine} {sum : Byte} {t : State} (hn : n.toNat = payload.length) (hfits : payload.length ≤ 250)
    (hframe : t.bytes? .txbuf 0 (n.toNat + 4 + seq.toNat) = some (outboundFrame payload seq s.seq))
    (hregs : { t with mem := s.mem } = s.encEnded seq n sum)
    (henv : s.env = List.replicate (payload.length + 4 + seq.toNat) .taken ++ env) :
    ∃ u, exec .send t = .next u ∧ u.status.done = true ∧ FrameSent s payload seq env u := by
  have hseq := seq.toNat_le
  have hsize : t.txlen.toNat = payload.length + 4 + seq.toNat := by
    have htxlen : t.txlen = BitVec.ofNat 9 (n.toNat + 4 + seq.toNat) := congrArg State.txlen hregs
    rw [htxlen, BitVec.toNat_ofNat]
    omega
  have hbuilt : t.txlen ≠ 0#9 := fun h => by
    have hzero : t.txlen.toNat = 0 := congrArg BitVec.toNat h
    omega
  have hevents : t.events = s.events ++ [.cmd (commandWord 2#4 seq 0#2 0#9 n), .done .ok] := congrArg State.events hregs
  have hexec := sendCompletes t (outboundFrame payload seq s.seq) env _ (congrArg (fun u => u.status.busy) hregs) hbuilt
    (by rw [hsize, ← hn]; exact hframe) ((congrArg State.env hregs).trans (hsize ▸ henv)) rfl
  refine ⟨_, hexec, rfl, rfl, rfl, congrArg (fun u => u.rxStream) hregs, ?_, congrArg (fun u => u.seq) hregs⟩
  simp [State.txStream, hevents, Event.sent?, List.filterMap_cons, Function.comp_def]

/-- With the payload written and a transport that takes every byte, `ENC` or `ENC.S` and then `SEND` complete. -/
theorem exec_encOf_then_send (hidle : s.status.busy = false) (hfits : payload.length ≤ 250)
    (hpay : s.bytes? .pay 0 payload.length = some payload)
    (henv : s.env = List.replicate (payload.length + 4 + seq.toNat) .taken ++ env) :
    ∃ t u, exec (encOf seq (BitVec.ofNat 9 payload.length)) s = .next t ∧ t.status.done = true ∧
      exec .send t = .next u ∧ u.status.done = true ∧ FrameSent s payload seq env u := by
  have hn : (BitVec.ofNat 9 payload.length).toNat = payload.length := by
    rw [BitVec.toNat_ofNat]
    omega
  have hyields : yieldsToBlock s.env = true := by
    rw [henv, Nat.add_right_comm, List.replicate_succ]
    rfl
  obtain ⟨t, henc, hframe, _, hregs⟩ := exec_encOf_completes (seq := seq) hidle hyields (hn.trans_le hfits) (hn.symm ▸ hpay)
  obtain ⟨u, hsend, hdone, hsent⟩ := exec_send_of_built hn hfits hframe hregs henv
  exact ⟨t, u, henc, congrArg (fun v => v.status.done) hregs, hsend, hdone, hsent⟩

/-- With a transport that takes every byte, a call on an idle block comes to the end of its `SEND`. -/
theorem sendFrame_of_taken {k : State → CallResult} (hidle : s.status.busy = false) (hfits : payload.length ≤ 250)
    (henv : s.env = List.replicate (payload.length + 4 + seq.toNat) .taken ++ env) :
    ∃ u, sendFrame payload seq s k = k u ∧ FrameSent s payload seq env u := by
  obtain ⟨log, hpay⟩ := writePayload_of_idle (c := Config.hw) (j := 0) (payload := payload) hidle (by simpa using hfits)
  have hbytes : (s.withPayload payload 0 log).bytes? .pay 0 payload.length = some payload :=
    bytes?_storeBytes (by simpa using hfits) rfl
  obtain ⟨t, u, henc, hencDone, hsend, hsendDone, hsent⟩ :=
    exec_encOf_then_send (s := s.withPayload payload 0 log) (seq := seq) hidle hfits hbytes henv
  have hbuild : (if seq then execEncS (BitVec.ofNat 9 payload.length) (s.withPayload payload 0 log)
      else execEnc (BitVec.ofNat 9 payload.length) (s.withPayload payload 0 log)) = .next t := by
    rw [← henc]
    cases seq <;> rfl
  have hsendExec : execSend t = .next u := hsend
  refine ⟨u, ?_, hsent.idle, hsent.env, hsent.rxStream, hsent.txStream, hsent.counter⟩
  rw [sendFrame, if_neg (by omega), hpay, callThen, hbuild, whenDone_of_done hencDone, hsendExec, whenDone_of_done hsendDone]

/-! ### The ACK and the response (45_host_exchange.md R270, R274) -/

/-- An ACK at the head of the stream lets the call go on behind it. -/
theorem whenAcked_of_ack {k : State → CallResult} {more : List Byte} (henv : s.env = .ackWait ⟨true, false, false⟩ :: env)
    (hstream : s.rxStream = c.ackByte :: more) : whenAcked s k c = k { s with rxStream := more, env := env } := by
  have hack : ackWaitIn s.env s c = some (.ok, { s with rxStream := more, env := env }) := by
    rw [henv, ackWaitIn, hstream, readAnswer_byteComes]
    simp [ackOutcome]
  rw [whenAcked, hack]

/-- `DEC` over a valid frame ends the call with the bytes its checksum covers behind the length field. -/
theorem receiveNextPushedFrame_decoded {covered more : List Byte} (hidle : s.status.busy = false)
    (hlen : covered.length + 1 ≤ 255) (hstream : s.rxStream = frameBytes (validBody covered) ++ more)
    (henv : s.env = List.replicate (covered.length + 3) .byteComes ++ .taken :: env) :
    receiveNextPushedFrame s = .next (s.decStarted.decoded covered more env, .returned covered .ok) := by
  have hstored := bytes?_storeBytes (c := Config.hw) (s := s) (t := s.decStarted.decoded covered more env) (sp := .rxbuf)
    (i := 0) (bs := frameBytes (validBody covered)) (by simp [length_frameBytes]; omega) rfl
  have hbytes : (s.decStarted.decoded covered more env).bytes? .rxbuf 2 covered.length = some covered := by
    obtain ⟨_, hbody⟩ := bytes?_append_iff (xs := [Config.hw.sof, _]) (ys := validBody covered).mp hstored
    exact (bytes?_append_iff.mp hbody).1
  have hexec : execDec s = .next (s.decStarted.decoded covered more env) := exec_dec_decoded hidle hlen hstream henv
  rw [receiveNextPushedFrame, hexec, whenDone_of_done rfl, if_pos (by rfl), decoded_reslen _ hlen, hbytes]

end

/-- Settles O49: the frame is built and sent, the ACK taken, and the response behind it decoded. -/
theorem awaitResponseReturnsTheResponse : Obligations.AwaitResponseReturnsTheResponse := by
  intro payload covered body more seq s rest hidle hne hfits hlen hbody hstream henv
  obtain rfl : body = validBody covered := hbody
  rw [length_validBody] at henv
  obtain ⟨u, hcall, hsent⟩ := sendFrame_of_taken (payload := payload) (seq := seq)
    (k := fun s' => whenAcked s' fun s'' => receiveNextPushedFrame s'') hidle hfits henv
  have hdecoded := receiveNextPushedFrame_decoded (covered := covered) (more := more) (env := rest)
    (s := { u with
      rxStream := frameBytes (validBody covered) ++ more
      env := List.replicate (covered.length + 3) .byteComes ++ .taken :: rest }) hsent.idle hlen rfl rfl
  have hsend : sendCommandAwaitResponse payload seq s = whenAcked u fun s' => receiveNextPushedFrame s' := by
    rw [sendCommandAwaitResponse, if_neg hne, hcall]
  have hack := whenAcked_of_ack (c := Config.hw) (k := fun s' => receiveNextPushedFrame s') hsent.env
    (hsent.rxStream.trans hstream)
  exact ⟨_, (hsend.trans hack).trans hdecoded, decStarted_decoded_txStream.trans (congrArg (· ++ [0x06#8]) hsent.txStream), rfl,
    hsent.counter⟩

end Sys2Proof.Machine
end
